-- ==== Sys2Proof/Word.lean ====
section
/-! DEFINITION. The word types of the SecuCode BCH core: bytes, window addresses, sub-block indices and the two
forms of a field element (spec/00_scope.md R6, R7; spec/20_memory.md R66). -/

namespace Sys2Proof

/-- One byte of the register window; bit 0 is the least significant bit (R6, R67). -/
abbrev Byte := BitVec 8

/-- An address of the host window: ten address bits, `0x000` to `0x3FF` (R66). No other address reaches the block (R67). -/
abbrev Addr := BitVec 10

/-- A sub-block index `b`, 0 to 7: the field `B` of a command byte and the register `BLK` (R28, R90). -/
abbrev BlockIdx := Fin 8

/-- A field element in PolyForm: bit `i` is the coefficient of α^i (R7). -/
abbrev PolyForm := BitVec 5

/-- A field element in LogForm: `none` is `LOGZ`, the logarithm of zero, and `some e` is α^e with `e` in 0..30 (R7).
The storage patterns `0x1F` to `0x3E` have no term of this type (93_implementation_defined.md U4). -/
abbrev LogForm := Option (Fin 31)

end Sys2Proof
end

