-- ==== Sys2Proof/Syntax.lean ====
section
/-! DEFINITION. The six commands of spec/opcode_table.json (30_encoding.md R91) and the host-program syntax of
30_encoding.md R101 and R102: statements and pseudo-instructions. -/

namespace Sys2Proof

/-- A command written to `CMD`; one constructor per row of spec/opcode_table.json (R91). -/
inductive Instr where
  /-- `ENCODE b`: encode sub-block `b` (42_block_encoder.md R166). -/
  | encode (b : BlockIdx)
  /-- `DECODE b`: decode sub-block `b` (46_block_decoder.md R230). -/
  | decode (b : BlockIdx)
  /-- `ENROLL`: encode all eight sub-blocks (47_key_assembler.md R241). -/
  | enroll
  /-- `RECON`: decode all eight sub-blocks (47_key_assembler.md R242). -/
  | recon
  /-- `CONT`: resume a paused run (47_key_assembler.md R245). -/
  | cont
  /-- `ZEROIZE`: erase key material (47_key_assembler.md R246). -/
  | zeroize
deriving DecidableEq, Repr

/-- A statement of a host program as it is written (R101): addresses and values are the numbers of the text, so a
statement can be ill-formed (`WellFormed.lean`). -/
inductive Statement where
  /-- `WR addr, v`: the transaction `MemWrite(addr, 1, v)`. -/
  | wr (addr v : Nat)
  /-- `RD addr`: the transaction `MemRead(addr, 1)`. -/
  | rd (addr : Nat)
  /-- `ENCODE b`; `b` is a decimal digit 0 to 7. -/
  | encode (b : Nat)
  /-- `DECODE b`; `b` is a decimal digit 0 to 7. -/
  | decode (b : Nat)
  /-- `ENROLL`. -/
  | enroll
  /-- `RECON`. -/
  | recon
  /-- `CONT`. -/
  | cont
  /-- `ZEROIZE`. -/
  | zeroize
deriving DecidableEq, Repr

/-- A pseudo-instruction (R102); it has no encoding of its own and stands for a list of statements
(`Machine/HostProgram.lean`). -/
inductive Pseudo where
  /-- `LDBLK b, r0 r1 r2 r3`: load the four bytes of sub-block `b`. -/
  | ldblk (b r0 r1 r2 r3 : Nat)
  /-- `LDPUF f`: load the whole reading, byte `a` of `f` at `PUFBUF[a]`. -/
  | ldpuf (f : List Nat)
  /-- `LDHELP h0 … h15`: load the helper data and state its length 16. -/
  | ldhelp (h : List Nat)
  /-- `LDHB b, h0 h1`: load the helper pair of sub-block `b`. -/
  | ldhb (b h0 h1 : Nat)
  /-- `RDKEY`: read the sixteen key bytes. -/
  | rdkey
  /-- `RDHELP`: read the sixteen helper bytes. -/
  | rdhelp
  /-- `RDRES`: read the eight `BRES`, then `TOTERR`, `RESULT` and `STATUS`. -/
  | rdres
deriving DecidableEq, Repr

end Sys2Proof
end

