-- ==== Sys2Proof/WellFormed.lean ====
section
/-! DEFINITION. Which written statements and pseudo-instructions are well formed (30_encoding.md R101, R102;
20_memory.md R67). Every term of `Instr` is well formed by its type: its one operand is a `Fin 8` (R90). -/

namespace Sys2Proof

/-- An address of the window: "a transaction with an address outside `0x000..0x3FF` … is not a transaction of this
spec" (R67). -/
def isWindowAddr (a : Nat) : Bool := a < 0x400

/-- A byte value (R63). -/
def isByteValue (v : Nat) : Bool := v < 0x100

/-- A sub-block digit: "`b` is a decimal digit 0 to 7" (R101). -/
def isBlockDigit (b : Nat) : Bool := b < 8

/-- Every command is well formed: `B` is 0 to 7 by its type and the other commands have no operand (R90). -/
def Instr.wf : Instr → Bool
  | .encode b => isBlockDigit b.val
  | .decode b => isBlockDigit b.val
  | .enroll => true
  | .recon => true
  | .cont => true
  | .zeroize => true

/-- Well-formed statements (R101). -/
def Statement.wf : Statement → Bool
  | .wr a v => isWindowAddr a && isByteValue v
  | .rd a => isWindowAddr a
  | .encode b => isBlockDigit b
  | .decode b => isBlockDigit b
  | .enroll => true
  | .recon => true
  | .cont => true
  | .zeroize => true

/-- Well-formed pseudo-instructions (R102): digits and bytes in range, 256 reading bytes, 16 helper bytes. -/
def Pseudo.wf : Pseudo → Bool
  | .ldblk b r0 r1 r2 r3 => isBlockDigit b && isByteValue r0 && isByteValue r1 && isByteValue r2 && isByteValue r3
  | .ldpuf f => f.length == 256 && f.all isByteValue
  | .ldhelp h => h.length == 16 && h.all isByteValue
  | .ldhb b h0 h1 => isBlockDigit b && isByteValue h0 && isByteValue h1
  | .rdkey => true
  | .rdhelp => true
  | .rdres => true

end Sys2Proof
end

