-- ==== Sys2Proof/Decode.lean ====
section
/-! DEFINITION. The command byte: its decoder, total on the 256 bytes (30_encoding.md R90 to R94), and after it the
encoder, written from the same table (R91). -/

namespace Sys2Proof

/-- Why a byte is no command (R93). -/
inductive DecodeError where
  /-- The byte is none of the twenty legal encodings; the write raises `IllegalCommand`. -/
  | illegalCommand
deriving DecidableEq, Repr

/-- The field `B`, bits 2:0 of the command byte: `b = c & 0x07` (R90, R92). -/
def fieldB (c : Byte) : BlockIdx := ⟨(c &&& 0x07#8).toNat % 8, Nat.mod_lt _ (by decide)⟩

/-- Decode a command byte by the masks and patterns of R92; every other byte is `IllegalCommand` (R93). -/
def decode (c : Byte) : Except DecodeError Instr :=
  if c &&& 0xF8#8 = 0x10#8 then .ok (.encode (fieldB c))
  else if c &&& 0xF8#8 = 0x20#8 then .ok (.decode (fieldB c))
  else if c = 0x30#8 then .ok .enroll
  else if c = 0x40#8 then .ok .recon
  else if c = 0x50#8 then .ok .cont
  else if c = 0x60#8 then .ok .zeroize
  else .error .illegalCommand

/-- The command byte of a command (R91). -/
def encode : Instr → Byte
  | .encode b => 0x10#8 + BitVec.ofNat 8 b.val
  | .decode b => 0x20#8 + BitVec.ofNat 8 b.val
  | .enroll => 0x30#8
  | .recon => 0x40#8
  | .cont => 0x50#8
  | .zeroize => 0x60#8

/-- The instruction the decoder reads from the bits `w` of an opcode-table row of `nbits` bits. A command is one byte,
so a word with a bit above bit 7 is no command. -/
def decodeTableWord (nbits w : Nat) : Option Instr :=
  if w % 2 ^ nbits < 256 then (decode (BitVec.ofNat 8 (w % 2 ^ nbits))).toOption else none

end Sys2Proof
end

