-- ==== Sys2Proof/Config.lean ====
section
/-! DEFINITION. What is fixed for the hardware: the parameters of spec/00_scope.md R5, the one open parameter
`ENC_STRIDE` as a type of its two values, and the one free value of the model. -/

namespace Sys2Proof

/-- The encode stride: the byte distance between sub-blocks in the encode path, "the one parameter this spec leaves as
a named argument of the model" (R5), with "the value 32 taken by this spec and the alternative 4"
(92_eei_decisions.md D12). A model holds it as the never-written field `State.encStride` (assumption log 2). -/
inductive EncStride where
  | stride32
  | stride4
deriving DecidableEq, Repr

namespace Config

/-- `M`: field order exponent (R5). -/
abbrev m : Nat := 5
/-- `N` = 2^M − 1: number of nonzero field elements (R5). -/
abbrev n : Nat := 31
/-- `LENGTH`: code length (R5). -/
abbrev codeLength : Nat := 31
/-- `K`: information bits per sub-block (R5). -/
abbrev k : Nat := 16
/-- `T`: error-correcting capability (R5). -/
abbrev t : Nat := 3
/-- `D` = 2T + 1: designed distance (R5). -/
abbrev d : Nat := 7
/-- `RDNCY` = LENGTH − K: parity bits per sub-block (R5). -/
abbrev rdncy : Nat := 15
/-- `NBLK`: sub-blocks per key (R5). -/
abbrev nblk : Nat := 8
/-- `BLKBYTES`: raw bytes consumed per sub-block (R5). -/
abbrev blkBytes : Nat := 4
/-- `DEC_STRIDE`: byte distance between sub-blocks in the decode path (R5). -/
abbrev decStride : Nat := 32
/-- `HELPBYTES`: helper bytes per sub-block (R5). -/
abbrev helpBytes : Nat := 2
/-- `SEGBYTES`: key bytes per sub-block (R5). -/
abbrev segBytes : Nat := 2
/-- `HELPLEN`: total helper data bytes (R5). -/
abbrev helpLen : Nat := 16
/-- `KEYLEN`: key bytes (R5). -/
abbrev keyLen : Nat := 16
/-- `PUFLEN`: bytes of the reading buffer (R5). -/
abbrev pufLen : Nat := 256

/-- What `gf_div(a, 0)` is: `gf_div` is "defined only for `b ≠ 0`" (40_gf_tables.md R128), and no rule divides by zero
(44_berlekamp_massey.md R195). A free value, applied to the dividend (assumption log 3). -/
opaque gfDivByZero : PolyForm → PolyForm

end Config

end Sys2Proof
end

