-- ==== Sys2Proof/Machine/Rom.lean ====
section
/-! DEFINITION. The three ROM tables, which are constants and not state (10_state.md R20 (c), R33): `ALPHA_TO` and
`INDEX_OF` (40_gf_tables.md R123, R124) and `GPOLY` (41_generator_rom.md R140), written as the literals the spec prints. -/

namespace Sys2Proof.Machine

/-- `ALPHA_TO[0..31]`, entry `i` the PolyForm of α^i (R123; entry 31 by R131). -/
def alphaToRom : Vector PolyForm 32 :=
  #v[1, 2, 4, 8, 16, 5, 10, 20, 13, 26, 17, 7, 14, 28, 29, 31,
     27, 19, 3, 6, 12, 24, 21, 15, 30, 25, 23, 11, 22, 9, 18, 1]

/-- `INDEX_OF[0..31]`, entry `x` the LogForm of the element `x`; entry 0 is `LOGZ` (R124). -/
def indexOfRom : Vector LogForm 32 :=
  #v[none, some 0, some 1, some 18, some 2, some 5, some 19, some 11,
     some 3, some 29, some 6, some 27, some 20, some 8, some 12, some 23,
     some 4, some 10, some 30, some 17, some 7, some 22, some 28, some 26,
     some 21, some 25, some 9, some 16, some 13, some 14, some 24, some 15]

/-- `GPOLY[0..15]`, entry `i` the coefficient of x^i of the generator polynomial (R140). -/
def gpolyRom : Vector Bool 16 :=
  #v[true, true, true, true, false, true, false, true,
     true, true, true, true, false, false, false, true]

/-- `ALPHA_TO[e mod 31]`: every antilog lookup of a rule reduces its exponent first (R127, R131, R132). -/
def alphaPow (e : Nat) : PolyForm := alphaToRom[e % 31]'(by omega)

/-- `INDEX_OF[a]` (R124). -/
def indexOf (a : PolyForm) : LogForm := indexOfRom[a.toNat]'(a.isLt)

/-- `g[j]`, the coefficient of x^j of the generator polynomial, 0 above its degree 15 (R140). -/
def genCoeff (j : Nat) : Bool := if h : j < 16 then gpolyRom[j] else false

/-- The stored form of a LogForm in 8 bits: `0x3F` for `LOGZ`, the exponent itself otherwise (R7, R65). -/
def logFormByte : LogForm → Byte
  | none => 0x3F#8
  | some e => BitVec.ofNat 8 e.val

end Sys2Proof.Machine
end

