-- ==== Sys2Proof/Machine/GaloisField.lean ====
section
/-! DEFINITION. Field arithmetic through the ROM tables (40_gf_tables.md R126 to R130). -/

namespace Sys2Proof.Machine

/-- `gf_add(a, b)`: bitwise exclusive or (R126). -/
def gfAdd (a b : PolyForm) : PolyForm := a ^^^ b

/-- `log(a) = INDEX_OF[a]`; `log(0) = LOGZ` (R129). -/
def gfLog (a : PolyForm) : LogForm := indexOf a

/-- `exp(e)`: 0 for `LOGZ`, otherwise `ALPHA_TO[e]` (R130). -/
def gfExp : LogForm → PolyForm
  | none => 0
  | some e => alphaPow e.val

/-- `gf_mul(a, b)`: 0 if an operand is 0, otherwise the antilog of the sum of the exponents modulo 31 (R127). -/
def gfMul (a b : PolyForm) : PolyForm :=
  match gfLog a, gfLog b with
  | some x, some y => alphaPow (x.val + y.val)
  | none, _ => 0
  | some _, none => 0

/-- `gf_div(a, b)`, for `b ≠ 0` (R128). For `b = 0`, where the rule defines nothing, the free value
`Config.gfDivByZero`; no rule divides by zero (44_berlekamp_massey.md R195; assumption log 3). -/
def gfDiv (a b : PolyForm) : PolyForm :=
  match gfLog b with
  | none => Config.gfDivByZero a
  | some y =>
    match gfLog a with
    | none => 0
    | some x => alphaPow (x.val + 31 - y.val)

end Sys2Proof.Machine
end

