-- ==== Sys2Proof/Machine/Syndrome.lean ====
section
/-! DEFINITION. The syndrome calculator (43_syndrome.md R180 to R182). -/

namespace Sys2Proof.Machine

/-- The six syndromes `s[1..6]` in PolyForm (10_state.md R34); `s[i]` is read by `synd`. -/
abbrev Syndromes := Vector PolyForm 6

/-- The sum of `recd[j]·α^(i·j)` over `j` below the bound (R180). -/
def syndromeSum (recd : BitVec 31) (i : Nat) : Nat → PolyForm
  | 0 => 0
  | j + 1 =>
    if recd.getLsbD j then gfAdd (syndromeSum recd i j) (alphaPow (i * j)) else syndromeSum recd i j

/-- `s[1..6]` (R180). -/
def syndromes (recd : BitVec 31) : Syndromes :=
  #v[syndromeSum recd 1 31, syndromeSum recd 2 31, syndromeSum recd 3 31,
     syndromeSum recd 4 31, syndromeSum recd 5 31, syndromeSum recd 6 31]

/-- `s[i]` for `i = 1..6`, counted from 1 as the rules do. -/
def synd (s : Syndromes) (i : Nat) : PolyForm := s[i - 1]?.getD 0

/-- `slog[i] = log(s[i])` (R181); no later rule needs it. -/
def syndromeLogs (s : Syndromes) : Vector LogForm 6 := s.map gfLog

/-- `syn_error`: at least one syndrome is nonzero (R182). -/
def synError (s : Syndromes) : Bool := s.toList.any fun x => decide (x ≠ 0)

end Sys2Proof.Machine
end

