-- ==== Sys2Proof/Machine/BerlekampMassey.lean ====
section
/-! DEFINITION. The Berlekamp-Massey error-locator engine (44_berlekamp_massey.md R190 to R198). -/

namespace Sys2Proof.Machine

/-- A polynomial of degree at most 6, PolyForm coefficients by degree (R190, R191). -/
abbrev Locator := Vector PolyForm 7

/-- One row of the table (R191): candidate polynomial, degree bound, discrepancy, and `ul = (r − 1) − l`. -/
structure LocatorRow where
  elp : Locator
  l   : Nat
  d   : PolyForm
  ul  : Int
deriving DecidableEq, Repr

/-- What leaves the engine (R190): the final degree bound `L` and `sigma[0..6]`. -/
structure LocatorResult where
  degree : Nat
  sigma  : Locator
deriving DecidableEq, Repr

/-- The coefficient of x^c, 0 outside 0..6. -/
def coeff (p : Locator) (c : Nat) : PolyForm := p[c]?.getD 0

/-- The constant polynomial 1. -/
def onePoly : Locator := #v[1, 0, 0, 0, 0, 0, 0]

/-- The polynomial with the coefficients `f 0` to `f 6`. -/
def ofCoeffs (f : Nat → PolyForm) : Locator := #v[f 0, f 1, f 2, f 3, f 4, f 5, f 6]

/-- Row 0, the fictitious starting row, before the first step (R192). -/
def startRow : LocatorRow := ⟨onePoly, 0, 1, -1⟩

/-- Row 1 before the first step (R192). -/
def firstRow (s : Syndromes) : LocatorRow := ⟨onePoly, 0, synd s 1, 0⟩

/-- A candidate of `SelectRow` with its row number. -/
structure Selected where
  q   : Nat
  row : LocatorRow
deriving DecidableEq, Repr

/-- Go through rows `i`, `i + 1`, … keeping the best so far: a row with nonzero discrepancy replaces it when its `ul` is
at least as large, so that ties go to the largest row number (R194). -/
def selectFrom (best : Selected) : Nat → List LocatorRow → Selected
  | _, [] => best
  | i, r :: rest =>
    selectFrom (if r.d ≠ 0 ∧ best.row.ul ≤ r.ul then ⟨i, r⟩ else best) (i + 1) rest

/-- `SelectRow(u)` over the rows 0 to `u − 1`, of which `others` are the rows 1 to `u − 1` (R194). Row 0, with
`d[0] = 1`, is the candidate that always exists. -/
def selectRow (others : List LocatorRow) : Selected := selectFrom ⟨0, startRow⟩ 1 others

/-- `Discrepancy(r)`: `s[r]` plus the sum of `s[r−i]·elp[i]` for `i = 1..l` (R196). -/
def discrepancySum (s : Syndromes) (r : Nat) (elp : Locator) : Nat → PolyForm
  | 0 => synd s r
  | i + 1 => gfAdd (discrepancySum s r elp i) (gfMul (synd s (r - (i + 1))) (coeff elp (i + 1)))

/-- The corrected polynomial of row `u + 1` and its degree bound, from row `u` and the selected row (R193, R195):
`elp[u] + (d[u]/d[q])·x^(u−q)·elp[q]` and `max(l[u], l[q] + u − q)`. -/
def correctRow (u : Nat) (sel : Selected) (cur : LocatorRow) : Locator × Nat :=
  let shift := u - sel.q
  let scale := gfDiv cur.d sel.row.d
  (ofCoeffs fun c =>
      gfAdd (if shift ≤ c ∧ c - shift ≤ sel.row.l then gfMul scale (coeff sel.row.elp (c - shift)) else 0)
        (if c ≤ cur.l then coeff cur.elp c else 0),
    max cur.l (sel.row.l + shift))

/-- The polynomial and degree bound of row `u + 1`: row `u` copied when its discrepancy is 0, corrected otherwise
(R193). -/
def nextLocator (u : Nat) (others : List LocatorRow) (cur : LocatorRow) : Locator × Nat :=
  if cur.d = 0 then (cur.elp, cur.l) else correctRow u (selectRow others) cur

/-- Row `u + 1` (R193): its discrepancy is computed when `u < 6`, and row 7 keeps 0. -/
def nextRow (s : Syndromes) (u : Nat) (others : List LocatorRow) (cur : LocatorRow) : LocatorRow :=
  let new := nextLocator u others cur
  ⟨new.1, new.2, if u < 6 then discrepancySum s (u + 1) new.1 new.2 else 0, (u : Int) - (new.2 : Int)⟩

/-- The loop of R193 from step `u` on: `others` is rows 1 to `u − 1`, `cur` is row `u`. It stops after the step in which
`u = 6` or the new degree bound exceeds 3 (R197) and answers the last row written. -/
def locatorLoop (s : Syndromes) : Nat → Nat → List LocatorRow → LocatorRow → LocatorRow
  | 0, _, _, cur => cur
  | fuel + 1, u, others, cur =>
    let new := nextRow s u others cur
    if u < 6 ∧ new.l ≤ Config.t then locatorLoop s fuel (u + 1) (others ++ [cur]) new else new

/-- The engine (R192 to R197): at most `2T = 6` iterations, starting with step `u = 1` on row 1. -/
def berlekampMassey (s : Syndromes) : LocatorResult :=
  let last := locatorLoop s 6 1 [] (firstRow s)
  ⟨last.l, last.elp⟩

end Sys2Proof.Machine
end

