-- ==== Sys2Proof/Machine/ChienSearch.lean ====
section
/-! DEFINITION. The Chien-search root finder (45_chien_search.md R210 to R214). -/

namespace Sys2Proof.Machine

/-- `reg[1..L]` (R211): list entry `j − 1` is `reg[j] = log(sigma[j])`. -/
def chienStart (degree : Nat) (sigma : Locator) : List LogForm :=
  (List.range degree).map fun j => gfLog (coeff sigma (j + 1))

/-- The register update of one pass: `reg[j] = (reg[j] + j) mod 31`, a `LOGZ` register staying `LOGZ` (R211, R212).
`j` is the index of the first register of the list. -/
def chienAdvance : Nat → List LogForm → List LogForm
  | _, [] => []
  | j, none :: rest => none :: chienAdvance (j + 1) rest
  | j, some e :: rest =>
    some ⟨(e.val + j) % 31, Nat.mod_lt _ (by decide)⟩ :: chienAdvance (j + 1) rest

/-- `q`: 1 plus the antilogs of the registers (R212). -/
def chienValue : List LogForm → PolyForm
  | [] => 1
  | r :: rest => gfAdd (chienValue rest) (gfExp r)

/-- The remaining passes, `i = 32 − left` to 31: a pass whose `q` is 0 reports position `31 − i` (R212, R213). -/
def chienPasses : Nat → List LogForm → List Nat
  | 0, _ => []
  | left + 1, regs =>
    let regs' := chienAdvance 1 regs
    if chienValue regs' = 0 then left :: chienPasses left regs' else chienPasses left regs'

/-- `loc[0 .. count−1]` in the order found, from all 31 passes (R212, R214); `count` is its length. -/
def chienSearch (r : LocatorResult) : List Nat := chienPasses 31 (chienStart r.degree r.sigma)

end Sys2Proof.Machine
end

