-- ==== Sys2Proof/Machine/Bits.lean ====
section
/-! DEFINITION. Bit sequences. A sequence of `n` bits is a `BitVec n` whose bit `i` is element `i` (00_scope.md R6, R8).
`unpack8` and `pack8` turn bytes into sequences and back, MSB-first (R9; 20_memory.md R70). -/

namespace Sys2Proof.Machine

/-- The sequence of `n` bits whose element `i` is `f i`. -/
def ofBits (n : Nat) (f : Nat → Bool) : BitVec n :=
  match n with
  | 0 => 0#0
  | k + 1 => BitVec.cons (f k) (ofBits k f)

/-- `unpack8(B)`: element `i` is `B[7−i]` (R9). -/
def unpack8 (b : Byte) : BitVec 8 := ofBits 8 fun i => b.getLsbD (7 - i)

/-- `pack8(s)`: the byte whose bit `7−i` is `s[i]` (R9). -/
def pack8 (s : BitVec 8) : Byte := ofBits 8 fun i => s.getLsbD (7 - i)

end Sys2Proof.Machine
end

