-- ==== Sys2Proof/Machine/State.lean ====
section
/-! DEFINITION. The state of the block as plain data (10_state.md R20 to R38), the host's pending transactions, and the
state after reset (10_state.md R38, 70_reset_and_hazards.md R300). -/

namespace Sys2Proof.Machine

/-- Stored bytes of the window, keyed by window address, in one canonical form (`Memory.wf` in `Ops.lean`). -/
abbrev Memory := List Host.Cell

/-- `STATUS.PHASE` (R25, R28): the sequencer's phase. The code 3 never occurs. -/
inductive Phase where
  | idle
  | pausedEnroll
  | pausedRecon
deriving DecidableEq, Repr

/-- `STATUS.ERR` (R25, 60_exceptions.md R271): outcome of the most recent write to `CMD`. Codes 4 to 7 never occur. -/
inductive ErrCode where
  | ok
  | illegalCommand
  | illegalState
  | malformedHelperData
deriving DecidableEq, Repr

/-- `BRES[b].CLASS` (R30). -/
inductive BlockClass where
  | none
  | clean
  | corrected
  | uncorrectable
deriving DecidableEq, Repr

/-- One register `BRES[b]` (R30): exactly its six values `0x00`, `0x40`, `0x81`, `0x82`, `0x83`, `0xC0`, so that no other
pair of class and count can be built (93_implementation_defined.md U22). Its fields are read by `BlockResult.cls` and
`BlockResult.count`. -/
inductive BlockResult where
  /-- `CLASS = NONE`, `COUNT = 0`. -/
  | none
  /-- `CLASS = CLEAN`, `COUNT = 0`. -/
  | clean
  /-- `CLASS = CORRECTED`, `COUNT = extra + 1`: 1, 2 or 3. -/
  | corrected (extra : Fin 3)
  /-- `CLASS = UNCORRECTABLE`, `COUNT = 0`. -/
  | uncorrectable
deriving DecidableEq, Repr

/-- What the host does at the block's port: one of the two transactions of 20_memory.md R60, or the reset input of
70_reset_and_hazards.md R300. -/
inductive HostAction where
  /-- `MemRead(a, 1)` (R62). -/
  | read (a : Addr)
  /-- `MemWrite(a, 1, v)` (R63). -/
  | write (a : Addr) (v : Byte)
  /-- A reset, which falls between transactions (R301). -/
  | reset
deriving DecidableEq, Repr

/-- The state of the machine. The first nine fields are the block's own state (R20 (a), (b)). `encStride` is the model's
parameter (R5). `pending` and `rdata` are the port: what the host has issued and the block has not yet seen, and what
the last transaction returned. -/
structure State where
  /-- `HELPER[0..15]` at `0x010 + i`, `KEY[0..15]` at `0x020 + i`, `PUFBUF[0..255]` at `0x100 + i` (R21 to R23, R65). -/
  mem       : Memory
  /-- `STATUS.PHASE` (R25, R28). -/
  phase     : Phase
  /-- `STATUS.ERR` (R25). -/
  err       : ErrCode
  /-- `STATUS.ACCERR` (R25): sticky, some host write was ignored. -/
  accErr    : Bool
  /-- `CTRL.YIELD_EN`, the one stored bit of `CTRL` (R26). -/
  yieldEn   : Bool
  /-- `CHAL` (R27). -/
  chal      : Byte
  /-- `HLEN` (R29). -/
  hlen      : Byte
  /-- `BLK` (R28). -/
  blk       : BlockIdx
  /-- `BRES[0..7]` (R30). -/
  bres      : Vector BlockResult 8
  /-- The parameter `ENC_STRIDE` (R5): no step changes it. -/
  encStride : EncStride
  /-- The host's actions that the block has not yet seen, oldest first (R61, R71). -/
  pending   : List HostAction
  /-- `rdata` of 20_memory.md R76: the byte the last transaction returned, `none` after a write and after a reset. -/
  rdata     : Option Byte
deriving DecidableEq, Repr

/-- Why the machine stops with a fault. It has NO constructor: no transaction stops the block ("every command is defined
on every state", R303), every command error is a next state (60_exceptions.md R274), and there is no bus error
(R277). Safe: nothing can end this way. -/
inductive Fault where
deriving DecidableEq, Repr

/-- Why a step is refused. -/
inductive Refusal where
  /-- Raised only by an arm of `exec` for an instruction that has no meaning yet. Safe: nothing follows from it. No arm
  raises it now. -/
  | notModelled (mnemonic : String)
deriving DecidableEq, Repr

/-- `BRES[b]` holding no decode result: `0x00` (R30). -/
def BlockResult.empty : BlockResult := .none

/-- The state after reset (R38, R300): every buffer and register zero, `PHASE = IDLE`, `ERR = OK`, `ACCERR = 0`. The
parameter has the value this spec takes (R5), and the host has issued nothing. -/
def State.reset : State where
  mem       := []
  phase     := .idle
  err       := .ok
  accErr    := false
  yieldEn   := false
  chal      := 0#8
  hlen      := 0#8
  blk       := 0
  bres      := Vector.replicate 8 BlockResult.empty
  encStride := .stride32
  pending   := []
  rdata     := .none

end Sys2Proof.Machine
end

