-- ==== Sys2Proof/Machine/Ops.lean ====
section
/-! DEFINITION. The named operations over the stored bytes and the registers, and the block's one error operation
`raise` (60_exceptions.md R274). -/

namespace Sys2Proof.Machine

/-- What an unlisted byte reads as: every stored byte is `0x00` after reset (10_state.md R38). -/
def Memory.unlisted : Byte := 0x00#8

/-- The canonical form: addresses strictly rising and no entry equal to what an unlisted address reads as. -/
abbrev Memory.wf (m : Memory) : Prop :=
  m.Pairwise (fun c c' => c.1 < c'.1) ∧ ∀ c ∈ m, c.2 ≠ Memory.unlisted

/-- Read one stored byte. -/
def Memory.read : Memory → Nat → Byte
  | [], _ => Memory.unlisted
  | c :: rest, a => if c.1 = a then c.2 else Memory.read rest a

/-- Store one byte, keeping the canonical form. -/
def Memory.write : Memory → Nat → Byte → Memory
  | [], a, v => if v = Memory.unlisted then [] else [(a, v)]
  | c :: rest, a, v =>
    if c.1 < a then c :: Memory.write rest a v
    else if c.1 = a then (if v = Memory.unlisted then rest else (a, v) :: rest)
    else if v = Memory.unlisted then c :: rest
    else (a, v) :: c :: rest

/-- Store `0x00` in the `len` bytes from `lo` on. -/
def Memory.zeroRange (m : Memory) (lo len : Nat) : Memory :=
  m.filter fun c => decide (c.1 < lo) || decide (lo + len ≤ c.1)

/-- Window address of `HELPER[i]` (20_memory.md R65). -/
def helperAddr (i : Nat) : Nat := 0x010 + i

/-- Window address of `KEY[i]` (R65). -/
def keyAddr (i : Nat) : Nat := 0x020 + i

/-- Window address of `PUFBUF[i]` (R65). -/
def pufAddr (i : Nat) : Nat := 0x100 + i

/-- `HELPER[i]` (10_state.md R22). -/
def State.helper (s : State) (i : Nat) : Byte := Memory.read s.mem (helperAddr i)

/-- `KEY[i]` (R23). -/
def State.key (s : State) (i : Nat) : Byte := Memory.read s.mem (keyAddr i)

/-- `PUFBUF[a]` (R21). -/
def State.puf (s : State) (a : Nat) : Byte := Memory.read s.mem (pufAddr a)

/-- `HELPER[i] <- v`. -/
def State.setHelper (s : State) (i : Nat) (v : Byte) : State := { s with mem := Memory.write s.mem (helperAddr i) v }

/-- `KEY[i] <- v`. -/
def State.setKey (s : State) (i : Nat) (v : Byte) : State := { s with mem := Memory.write s.mem (keyAddr i) v }

/-- `PUFBUF[a] <- v`. -/
def State.setPuf (s : State) (a : Nat) (v : Byte) : State := { s with mem := Memory.write s.mem (pufAddr a) v }

/-- `BRES[b] <- r` (R30). -/
def State.setBres (s : State) (b : BlockIdx) (r : BlockResult) : State := { s with bres := s.bres.set b.val r }

/-- `for i = 0 to 15: HELPER[i] <- 0` (47_key_assembler.md R241). -/
def State.clearHelper (s : State) : State := { s with mem := Memory.zeroRange s.mem (helperAddr 0) 16 }

/-- `for i = 0 to 15: KEY[i] <- 0` (R241, R242, R246). -/
def State.clearKey (s : State) : State := { s with mem := Memory.zeroRange s.mem (keyAddr 0) 16 }

/-- `for a = 0 to 255: PUFBUF[a] <- 0` (R246). -/
def State.clearPuf (s : State) : State := { s with mem := Memory.zeroRange s.mem (pufAddr 0) 256 }

/-- `for b = 0 to 7: BRES[b] <- 0x00` (R241, R242, R246). -/
def State.clearBres (s : State) : State := { s with bres := Vector.replicate 8 BlockResult.empty }

/-- `STATUS.ERR <- 0`: the command is accepted (60_exceptions.md R271). -/
def State.accept (s : State) : State := { s with err := .ok }

/-- `raise E`, the block's "trap entry" (R274): `STATUS.ERR` takes the code of `E`, the command ends, nothing else
changes, nothing is saved and control goes nowhere. There is no return from it (R279). -/
def raise (e : ErrCode) (s : State) : Host.Outcome State Fault Refusal := .next { s with err := e }

end Sys2Proof.Machine
end

