-- ==== Sys2Proof/Machine/Operands.lean ====
section
/-! DEFINITION. Operands: the address map of the window (20_memory.md R65) and the addresses a sub-block index stands for
(30_encoding.md R95). -/

namespace Sys2Proof.Machine

/-- What a window address names (R65). -/
inductive Loc where
  | cmd
  | status
  | ctrl
  | chal
  | hlen
  | blk
  | toterr
  | result
  | bres (b : BlockIdx)
  | helper (i : Fin 16)
  | key (i : Fin 16)
  | alphaTo (i : Fin 32)
  | indexOf (x : Fin 32)
  | gpoly (i : Fin 16)
  | puf (a : Fin 256)
  | reserved
deriving DecidableEq, Repr

/-- The address map (R65), total on the 1024 addresses. -/
def locOf (a : Addr) : Loc :=
  if a = 0x000#10 then .cmd
  else if a = 0x001#10 then .status
  else if a = 0x002#10 then .ctrl
  else if a = 0x003#10 then .chal
  else if a = 0x004#10 then .hlen
  else if a = 0x005#10 then .blk
  else if a = 0x006#10 then .toterr
  else if a = 0x007#10 then .result
  else if a.toNat < 0x010 then .bres ⟨(a.toNat - 0x008) % 8, Nat.mod_lt _ (by decide)⟩
  else if a.toNat < 0x020 then .helper ⟨(a.toNat - 0x010) % 16, Nat.mod_lt _ (by decide)⟩
  else if a.toNat < 0x030 then .key ⟨(a.toNat - 0x020) % 16, Nat.mod_lt _ (by decide)⟩
  else if a.toNat < 0x040 then .reserved
  else if a.toNat < 0x060 then .alphaTo ⟨(a.toNat - 0x040) % 32, Nat.mod_lt _ (by decide)⟩
  else if a.toNat < 0x080 then .indexOf ⟨(a.toNat - 0x060) % 32, Nat.mod_lt _ (by decide)⟩
  else if a.toNat < 0x090 then .gpoly ⟨(a.toNat - 0x080) % 16, Nat.mod_lt _ (by decide)⟩
  else if a.toNat < 0x100 then .reserved
  else if a.toNat < 0x200 then .puf ⟨(a.toNat - 0x100) % 256, Nat.mod_lt _ (by decide)⟩
  else .reserved

/-- The encode stride as a number of bytes (00_scope.md R5). -/
def strideBytes : EncStride → Nat
  | .stride32 => 32
  | .stride4 => 4

/-- The four bytes `response[0..3]` of a sub-block (30_encoding.md R96). -/
structure SubBlock where
  r0 : Byte
  r1 : Byte
  r2 : Byte
  r3 : Byte
deriving DecidableEq, Repr

/-- The two helper bytes `helper[0..1]` of a sub-block (R97). -/
structure HelperPair where
  h0 : Byte
  h1 : Byte
deriving DecidableEq, Repr

/-- `response[j] = PUFBUF[S·b + j]` for `j = 0..3` (R95). -/
def readResponse (s : State) (stride : Nat) (b : BlockIdx) : SubBlock where
  r0 := s.puf (stride * b.val)
  r1 := s.puf (stride * b.val + 1)
  r2 := s.puf (stride * b.val + 2)
  r3 := s.puf (stride * b.val + 3)

/-- `HELPER[2b]`, `HELPER[2b + 1]` (R95). -/
def readHelper (s : State) (b : BlockIdx) : HelperPair where
  h0 := s.helper (2 * b.val)
  h1 := s.helper (2 * b.val + 1)

/-- `HELPER[2b] <- h0`, `HELPER[2b + 1] <- h1` (R95). -/
def writeHelper (s : State) (b : BlockIdx) (h : HelperPair) : State :=
  (s.setHelper (2 * b.val) h.h0).setHelper (2 * b.val + 1) h.h1

/-- `KEY[2b] <- k0`, `KEY[2b + 1] <- k1` (R95). -/
def writeKey (s : State) (b : BlockIdx) (k0 k1 : Byte) : State :=
  (s.setKey (2 * b.val) k0).setKey (2 * b.val + 1) k1

/-- `response[j]` of a sub-block; `j` is 0 to 3. -/
def SubBlock.byte (r : SubBlock) (j : Nat) : Byte :=
  if j = 0 then r.r0 else if j = 1 then r.r1 else if j = 2 then r.r2 else r.r3

end Sys2Proof.Machine
end

