-- ==== Sys2Proof/Machine/Encoder.lean ====
section
/-! DEFINITION. The block encoder and the meaning of `ENCODE b` (42_block_encoder.md R160 to R166). -/

namespace Sys2Proof.Machine

/-- `rbit[0..31]`: `rbit[8j + i] = response[j][7 − i]`; element 31 is the discarded bit (R160). -/
def unpackResponse (r : SubBlock) : BitVec 32 := ofBits 32 fun p => (unpack8 (r.byte (p / 8))).getLsbD (p % 8)

/-- `data[i] = rbit[i]` for `i = 0..15` (R161). -/
def infoBits (rbit : BitVec 32) : BitVec 16 := ofBits 16 fun i => rbit.getLsbD i

/-- One step of the shift register fed the bit `x`: shift up by one, tapped where `g[j] = 1` (R162). -/
def lfsrStep (bb : BitVec 15) (x : Bool) : BitVec 15 :=
  let fb := x ^^ bb.getLsbD 14
  ofBits 15 fun j => if j = 0 then fb && genCoeff 0 else bb.getLsbD (j - 1) ^^ (fb && genCoeff j)

/-- The steps for `i` from `count − 1` down to 0 (R162). -/
def lfsrRun (data : BitVec 16) : Nat → BitVec 15 → BitVec 15
  | 0, bb => bb
  | i + 1, bb => lfsrRun data i (lfsrStep bb (data.getLsbD i))

/-- `bb[0..14]`: the remainder of `data(x)·x^15` divided by `g(x)` (R162). -/
def remainder (data : BitVec 16) : BitVec 15 := lfsrRun data 16 0#15

/-- `par[0..1]`: the remainder packed MSB-first, bit 0 of the second byte 0 (R163). -/
def packRemainder (bb : BitVec 15) : HelperPair where
  h0 := pack8 (ofBits 8 fun i => bb.getLsbD i)
  h1 := pack8 (ofBits 8 fun i => if i < 7 then bb.getLsbD (8 + i) else false)

/-- The perturbation with `response[2]`, `response[3]`, the padding-bit mask last; its own inverse on the 15 helper bits
(R164; 46_block_decoder.md R221). -/
def perturb (p : HelperPair) (r : SubBlock) : HelperPair where
  h0 := p.h0 ^^^ r.r2
  h1 := (p.h1 ^^^ r.r3) &&& 0xFE#8

/-- The helper pair of a sub-block (R160 to R164). -/
def helperOf (r : SubBlock) : HelperPair := perturb (packRemainder (remainder (infoBits (unpackResponse r)))) r

/-- `EncBlock(b, S)` (R166). -/
def encBlock (b : BlockIdx) (stride : Nat) (s : State) : State :=
  let r := readResponse s stride b
  (writeKey (writeHelper s b (helperOf r)) b r.r0 r.r1).setBres b BlockResult.empty

/-- `ENCODE b` (R166). -/
def execEncode (b : BlockIdx) (s : State) : Host.Outcome State Fault Refusal :=
  if s.phase ≠ .idle then raise .illegalState s
  else .next (encBlock b (strideBytes s.encStride) s.accept)

end Sys2Proof.Machine
end

