-- ==== Sys2Proof/Machine/Decoder.lean ====
section
/-! DEFINITION. The block decoder and the meaning of `DECODE b` (46_block_decoder.md R220 to R230). -/

namespace Sys2Proof.Machine

/-- `recd[0..30]`: the 15 parity bits, the perturbation undone, below the 16 information bits (R221, R222; 30_encoding.md
R98). -/
def receivedWord (r : SubBlock) (h : HelperPair) : BitVec 31 :=
  let par := perturb h r
  ofBits 31 fun p =>
    if p < 15 then (if p < 8 then (unpack8 par.h0).getLsbD p else (unpack8 par.h1).getLsbD (p - 8))
    else (unpackResponse r).getLsbD (p - 15)

/-- What the correction leaves: the word, its class and its count. -/
structure Corrected where
  word   : BitVec 31
  result : BlockResult
deriving DecidableEq, Repr

/-- Flip the bits of `recd` at the positions found (R227). -/
def flipAt (recd : BitVec 31) : List Nat → BitVec 31
  | [] => recd
  | p :: rest => flipAt (recd ^^^ BitVec.twoPow 31 p) rest

/-- `CLASS = CORRECTED` with `cnt = L` (R227, R229). A correction has `L` from 1 to 3: `L = 0` cannot happen with a
nonzero syndrome (44_berlekamp_massey.md R198), and `L > 3` is uncorrectable (assumption log 8). -/
def correctedBy (degree : Nat) : BlockResult := .corrected ⟨(degree - 1) % 3, Nat.mod_lt _ (by decide)⟩

/-- The decision of R224 to R227: clean, corrected, or uncorrectable for one of its two causes. -/
def correctWord (recd : BitVec 31) : Corrected :=
  let s := syndromes recd
  if synError s then
    let r := berlekampMassey s
    if Config.t < r.degree then ⟨recd, .uncorrectable⟩
    else
      let loc := chienSearch r
      if loc.length = r.degree then ⟨flipAt recd loc, correctedBy r.degree⟩
      else ⟨recd, .uncorrectable⟩
  else ⟨recd, .clean⟩

/-- `seg[0]`: `recd[15..22]` packed MSB-first (R228). -/
def keySegment0 (recd : BitVec 31) : Byte := pack8 (ofBits 8 fun i => recd.getLsbD (15 + i))

/-- `seg[1]`: `recd[23..30]` packed MSB-first (R228). -/
def keySegment1 (recd : BitVec 31) : Byte := pack8 (ofBits 8 fun i => recd.getLsbD (23 + i))

/-- `DecBlock(b, S)` (R230). -/
def decBlock (b : BlockIdx) (stride : Nat) (s : State) : State :=
  let c := correctWord (receivedWord (readResponse s stride b) (readHelper s b))
  (writeKey s b (keySegment0 c.word) (keySegment1 c.word)).setBres b c.result

/-- `DECODE b` (R230). -/
def execDecode (b : BlockIdx) (s : State) : Host.Outcome State Fault Refusal :=
  if s.phase ≠ .idle then raise .illegalState s
  else .next (decBlock b Config.decStride s.accept)

end Sys2Proof.Machine
end

