-- ==== Sys2Proof/Machine/KeyAssembler.lean ====
section
/-! DEFINITION. The key assembler: the sequencer loop and the meanings of `ENROLL`, `RECON`, `CONT` and `ZEROIZE`
(47_key_assembler.md R240 to R246). -/

namespace Sys2Proof.Machine

/-- The kind of a run (R243). -/
inductive RunKind where
  | enroll
  | recon
deriving DecidableEq, Repr

/-- The phase in which a run of this kind pauses (R243). -/
def pausedPhase : RunKind → Phase
  | .enroll => .pausedEnroll
  | .recon => .pausedRecon

/-- The sub-block operation of a run: `EncBlock` with `ENC_STRIDE` or `DecBlock` with `DEC_STRIDE` (R243). -/
def runOp : RunKind → BlockIdx → State → State
  | .enroll, b, s => encBlock b (strideBytes s.encStride) s
  | .recon, b, s => decBlock b Config.decStride s

/-- `RunBlocks(kind)` with at most `fuel` sub-blocks (R243). -/
def runLoop (kind : RunKind) : Nat → State → State
  | 0, s => s
  | fuel + 1, s =>
    let t := runOp kind s.blk s
    if s.blk = 7 then { t with phase := .idle, blk := 0 }
    else
      let t' := { t with blk := s.blk + 1 }
      if t.yieldEn then { t' with phase := pausedPhase kind } else runLoop kind fuel t'

/-- `RunBlocks(kind)` (R243): from any `BLK` the run completes or yields within eight sub-blocks. -/
def runBlocks (kind : RunKind) (s : State) : State := runLoop kind 8 s

/-- `ENROLL` (R241). -/
def execEnroll (s : State) : Host.Outcome State Fault Refusal :=
  if s.phase ≠ .idle then raise .illegalState s
  else .next (runBlocks .enroll { s.accept.clearKey.clearHelper.clearBres with blk := 0 })

/-- `RECON` (R242): the length check comes after the phase check and before any change (60_exceptions.md R273). -/
def execRecon (s : State) : Host.Outcome State Fault Refusal :=
  if s.phase ≠ .idle then raise .illegalState s
  else if s.hlen ≠ 16#8 then raise .malformedHelperData s
  else .next (runBlocks .recon { s.accept.clearKey.clearBres with blk := 0 })

/-- `CONT` (R245). -/
def execCont (s : State) : Host.Outcome State Fault Refusal :=
  match s.phase with
  | .idle => raise .illegalState s
  | .pausedEnroll => .next (runBlocks .enroll s.accept)
  | .pausedRecon => .next (runBlocks .recon s.accept)

/-- `ZEROIZE` (R246). -/
def execZeroize (s : State) : Host.Outcome State Fault Refusal :=
  if s.phase ≠ .idle then raise .illegalState s
  else .next ({ s.accept with accErr := false }.clearKey.clearPuf.clearBres)

end Sys2Proof.Machine
end

