-- ==== Sys2Proof/Machine/Dispatch.lean ====
section
/-! DEFINITION. The dispatch: one arm per command of spec/opcode_table.json. -/

namespace Sys2Proof.Machine

def exec (i : Instr) (s : State) : Host.Outcome State Fault Refusal :=
  match i with
  | .encode b => Sys2Proof.Machine.execEncode b s
  | .decode b => Sys2Proof.Machine.execDecode b s
  | .enroll => Sys2Proof.Machine.execEnroll s
  | .recon => Sys2Proof.Machine.execRecon s
  | .cont => Sys2Proof.Machine.execCont s
  | .zeroize => Sys2Proof.Machine.execZeroize s

end Sys2Proof.Machine
end

