-- ==== Sys2Proof/Machine/Flags.lean ====
section
/-! DEFINITION. The codes of the status fields, the packing of `STATUS` and `BRES`, and the two computed views `TOTERR`
and `RESULT` (10_state.md R25 to R32; 60_exceptions.md R271). -/

namespace Sys2Proof.Machine

/-- The code of `STATUS.PHASE` (R25). -/
def phaseCode : Phase → BitVec 2
  | .idle => 0#2
  | .pausedEnroll => 1#2
  | .pausedRecon => 2#2

/-- The code of `STATUS.ERR` (R25, R271). -/
def errBits : ErrCode → BitVec 3
  | .ok => 0#3
  | .illegalCommand => 1#3
  | .illegalState => 2#3
  | .malformedHelperData => 3#3

/-- The code of `BRES[b].CLASS` (R30). -/
def classCode : BlockClass → BitVec 2
  | .none => 0#2
  | .clean => 1#2
  | .corrected => 2#2
  | .uncorrectable => 3#2

/-- `STATUS` as read: bit 7 reserved, `ACCERR`, `ERR` in 5:3, bit 2 reserved, `PHASE` in 1:0 (R25). -/
def statusByte (s : State) : Byte :=
  0#1 ++ BitVec.ofBool s.accErr ++ errBits s.err ++ 0#1 ++ phaseCode s.phase

/-- `CTRL` as read: `YIELD_EN` in bit 0, zeros above (R26). -/
def ctrlByte (s : State) : Byte := 0#7 ++ BitVec.ofBool s.yieldEn

/-- `BLK` as read: the value in bits 2:0, zeros above (R28). -/
def blkByte (s : State) : Byte := BitVec.ofNat 8 s.blk.val

/-- The field `BRES[b].CLASS` (R30). -/
def BlockResult.cls : BlockResult → BlockClass
  | .none => .none
  | .clean => .clean
  | .corrected _ => .corrected
  | .uncorrectable => .uncorrectable

/-- The field `BRES[b].COUNT`: 1 to 3 when the class is `CORRECTED`, 0 otherwise (R30). -/
def BlockResult.count : BlockResult → BitVec 2
  | .none => 0#2
  | .clean => 0#2
  | .corrected extra => BitVec.ofNat 2 (extra.val + 1)
  | .uncorrectable => 0#2

/-- `BRES[b]` as read: `CLASS` in 7:6, zeros, `COUNT` in 1:0 (R30; 46_block_decoder.md R229). -/
def bresByte (r : BlockResult) : Byte := classCode r.cls ++ 0#4 ++ r.count

/-- `sum over b of BRES[b].COUNT` (R31). -/
def totalErrors (s : State) : Nat := (s.bres.toList.map fun r => r.count.toNat).sum

/-- `TOTERR` as read, a computed view (R31). -/
def toterrByte (s : State) : Byte := BitVec.ofNat 8 (totalErrors s)

/-- Whether some `BRES[b].CLASS` is `c`. -/
def anyClass (s : State) (c : BlockClass) : Bool := s.bres.toList.any fun r => decide (r.cls = c)

/-- The class of the whole key: the first that applies of uncorrectable, incomplete, corrected, clean (R32). -/
def overallClass (s : State) : BlockClass :=
  if anyClass s .uncorrectable then .uncorrectable
  else if anyClass s .none then .none
  else if anyClass s .corrected then .corrected
  else .clean

/-- `RESULT` as read, a computed view: the class in bits 1:0, zeros above (R32). -/
def resultByte (s : State) : Byte := 0#6 ++ classCode (overallClass s)

end Sys2Proof.Machine
end

