-- ==== Sys2Proof/Machine/HostPort.lean ====
section
/-! DEFINITION. The host's port: read transactions, write transactions, the issue of a command, and reset (20_memory.md
R61 to R67; 70_reset_and_hazards.md R300, R301). -/

namespace Sys2Proof.Machine

/-- `MemRead(addr, 1)`: the byte the address map assigns to `addr` (R62, R65). -/
def readWindow (s : State) (a : Addr) : Byte :=
  match locOf a with
  | .cmd => 0x00#8
  | .status => statusByte s
  | .ctrl => ctrlByte s
  | .chal => s.chal
  | .hlen => s.hlen
  | .blk => blkByte s
  | .toterr => toterrByte s
  | .result => resultByte s
  | .bres b => bresByte (s.bres.get b)
  | .helper i => s.helper i.val
  | .key i => s.key i.val
  | .alphaTo i => (alphaToRom.get i).setWidth 8
  | .indexOf x => logFormByte (indexOfRom.get x)
  | .gpoly i => 0#7 ++ BitVec.ofBool (gpolyRom.get i)
  | .puf i => s.puf i.val
  | .reserved => 0x00#8

/-- An ignored write: only `STATUS.ACCERR` changes (R64; 60_exceptions.md R277). -/
def ignoreWrite (s : State) : State := { s with accErr := true }

/-- A host-writable location takes its new value while `PHASE = IDLE`; otherwise the write is ignored (R63, R64). -/
def whenIdle (s t : State) : State := if s.phase = .idle then t else ignoreWrite s

/-- `MemWrite(addr, 1, v)` for every address but `CMD` (R63 (b), (c), R64). `CMD` is `issueCommand`; its arm is not
reached by `transact`. -/
def writeWindow (s : State) (a : Addr) (v : Byte) : State :=
  match locOf a with
  | .cmd => s
  | .ctrl => whenIdle s { s with yieldEn := v.getLsbD 0 }
  | .chal => whenIdle s { s with chal := v }
  | .hlen => whenIdle s { s with hlen := v }
  | .helper i => whenIdle s (s.setHelper i.val v)
  | .puf i => whenIdle s (s.setPuf i.val v)
  | .status => ignoreWrite s
  | .blk => ignoreWrite s
  | .toterr => ignoreWrite s
  | .result => ignoreWrite s
  | .bres _ => ignoreWrite s
  | .key _ => ignoreWrite s
  | .alphaTo _ => ignoreWrite s
  | .indexOf _ => ignoreWrite s
  | .gpoly _ => ignoreWrite s
  | .reserved => ignoreWrite s

/-- A write of the byte `c` to `CMD`: decode first, from the byte alone; an illegal byte raises `IllegalCommand`,
a legal one runs (30_encoding.md R93, R94; 60_exceptions.md R273). -/
def issueCommand (s : State) (c : Byte) : Host.Outcome State Fault Refusal :=
  match decode c with
  | .ok i => exec i s
  | .error .illegalCommand => raise .illegalCommand s

/-- Reset (70_reset_and_hazards.md R300, R301): every piece of the block's state takes its reset value. The parameter
`ENC_STRIDE` and what the host has yet to issue are no state of the block. -/
def resetBlock (s : State) : State := { State.reset with encStride := s.encStride, pending := s.pending }

/-- One action of the host at the port, carried to its end (R61). -/
def transact (s : State) : HostAction → Host.Outcome State Fault Refusal
  | .read a => .next { s with rdata := some (readWindow s a) }
  | .write a v => if locOf a = .cmd then issueCommand s v else .next (writeWindow s a v)
  | .reset => .next (resetBlock s)

/-- The state in which the block sees its next action: the action taken off the queue, the port returning nothing yet. -/
def takeAction (s : State) (rest : List HostAction) : State := { s with pending := rest, rdata := none }

end Sys2Proof.Machine
end

