-- ==== Sys2Proof/Machine/Step.lean ====
section
/-! DEFINITION. The step: the block sees the host's next action and carries it to its end (20_memory.md R61); with no
action pending it does nothing (70_reset_and_hazards.md R300). -/

namespace Sys2Proof.Machine

/-- One step (R61, R71, R300). -/
def step (s : State) : Host.Outcome State Fault Refusal :=
  match s.pending with
  | [] => .next s
  | a :: rest => transact (takeAction s rest) a

/-- `s` with the write of the command byte `w` to `CMD` as the host's next action (10_state.md R24; 20_memory.md R74): the
very next step decodes and runs it. -/
def State.withFetchWord (s : State) (nbits w : Nat) : State :=
  { s with pending := .write 0x000#10 (BitVec.ofNat 8 (w % 2 ^ nbits)) :: s.pending }

end Sys2Proof.Machine
end

