-- ==== Sys2Proof/Machine/FieldBuild.lean ====
section
/-! DEFINITION. `GFBuild`, the configuration-time function that defines the contents of the field tables, and its
failure (40_gf_tables.md R121, R122; 60_exceptions.md R276). It touches no state of the block. -/

namespace Sys2Proof.Machine

/-- The two configuration-time failures; neither is a state of the block (60_exceptions.md R276). -/
inductive ConfigFailure where
  /-- `GFBuild`: the polynomial does not generate a field of the requested order (40_gf_tables.md R122). -/
  | notPrimitive
  /-- `GenSynth`: `k < 0` (41_generator_rom.md R144). -/
  | infeasibleCodeParameters
deriving DecidableEq, Repr

/-- The operands of `GFBuild`: `m ≥ 1` and the coefficients `p[0..m]`, indexed by degree (R121). -/
structure FieldOperands where
  m     : Nat
  m_pos : 1 ≤ m
  p     : Vector Bool (m + 1)
deriving DecidableEq, Repr

/-- A built field: its two tables, each of `n + 1` entries, with `n = 2^m − 1`. Elements are held as numbers, since `m`
is an operand; `none` is the sentinel for the logarithm of zero (R121). -/
structure FieldTables where
  n       : Nat
  alphaTo : List Nat
  indexOf : List (Option Nat)
deriving DecidableEq, Repr

/-- `taps`: the PolyForm of α^m, the coefficients `p[0..m−1]` as a number (R121). -/
def fieldTaps (o : FieldOperands) : Nat :=
  ((List.range o.m).map fun j => if o.p[j]?.getD false then 2 ^ j else 0).sum

/-- One step of the companion recurrence: multiply by α, drop the bit of α^m and put it back as its taps (R121). -/
def timesAlpha (m taps a : Nat) : Nat :=
  let shifted := (a <<< 1) &&& (2 ^ m - 1)
  if a.testBit (m - 1) then shifted ^^^ taps else shifted

/-- `alpha_to[0..n]`: the powers of α from α^0 to α^n (R121, R131). -/
def fieldPowers (o : FieldOperands) : List Nat :=
  List.iterate (timesAlpha o.m (fieldTaps o)) 1 (2 ^ o.m - 1 + 1)

/-- `Primitive(p, m, alpha_to)`: `p[m] = 1`, and entries 0 to `n − 1` are not 0 and pairwise different (R122). -/
def isPrimitive (o : FieldOperands) : Bool :=
  let entries := (fieldPowers o).take (2 ^ o.m - 1)
  o.p[o.m] && decide (0 ∉ entries) && decide entries.Nodup

/-- `index_of`: all `LOGZ`, then `index_of[alpha_to[i]] <- i` for `i = 0` to `n − 1` (R121). -/
def fieldLogs (n : Nat) (alphaTo : List Nat) : List (Option Nat) :=
  (List.range n).foldl (fun t i => t.set (alphaTo.getD i 0) (some i)) (List.replicate (n + 1) none)

/-- `GFBuild(p, m)` (R121, R122). -/
def gfBuild (o : FieldOperands) : Except ConfigFailure FieldTables :=
  let n := 2 ^ o.m - 1
  if isPrimitive o then .ok ⟨n, fieldPowers o, fieldLogs n (fieldPowers o)⟩ else .error .notPrimitive

/-- `PRIM` and `M`: `p[0..5] = {1,0,1,0,0,1}`, that is 1 + x^2 + x^5 (00_scope.md R5; R120). -/
def primOperands : FieldOperands := ⟨5, by decide, #v[true, false, true, false, false, true]⟩

end Sys2Proof.Machine
end

