-- ==== Sys2Proof/Machine/GeneratorSynth.lean ====
section
/-! DEFINITION. `GenSynth`, the configuration-time function that defines the generator polynomial ROM, and its failure
(41_generator_rom.md R142 to R145). It touches no state of the block. -/

namespace Sys2Proof.Machine

/-- The operands of `GenSynth` over a field with `n` nonzero elements: `1 ≤ length ≤ n` and `t ≥ 1` (R142). Other values
cannot be constructed (93_implementation_defined.md U28). -/
structure SynthOperands (n : Nat) where
  length     : Nat
  t          : Nat
  length_pos : 1 ≤ length
  length_le  : length ≤ n
  t_pos      : 1 ≤ t
deriving DecidableEq, Repr

/-- The result of `GenSynth`: the coefficients `g[0..rdncy]`, PolyForm numbers, with `rdncy` and `k` (R142). -/
structure SynthResult where
  g     : List Nat
  rdncy : Nat
  k     : Nat
deriving DecidableEq, Repr

/-- The rest of the coset of `r` from `x` on, doubling until the representative returns, at most `fuel` elements (R143). -/
def cosetTail (n r : Nat) : Nat → Nat → List Nat
  | 0, _ => []
  | fuel + 1, x => if x = r then [] else x :: cosetTail n r fuel (2 * x % n)

/-- The cyclotomic coset of `r` modulo `n`, in the order of doubling (R143). -/
def cosetOf (n r : Nat) : List Nat := r :: cosetTail n r n (2 * r % n)

/-- `Cosets(n)`: the cosets of the representatives 1 to `n − 1` in rising order, skipping representatives already
covered (R143). -/
def cosets (n : Nat) : List (List Nat) :=
  (List.range' 1 (n - 1)).foldl (fun cs r => if cs.any (·.contains r) then cs else cs ++ [cosetOf n r]) []

/-- `zeros`: the selected cosets, those with an element `e`, `1 ≤ e ≤ d − 1 = 2t`, concatenated in order (R144). -/
def synthZeros (n t : Nat) : List Nat :=
  ((cosets n).filter fun c => c.any fun e => decide (1 ≤ e) && decide (e ≤ 2 * t)).flatten

/-- `gf_mul` over the tables of a built field (40_gf_tables.md R127). -/
def tableMul (f : FieldTables) (a b : Nat) : Nat :=
  match (f.indexOf.getD a none), (f.indexOf.getD b none) with
  | some x, some y => f.alphaTo.getD ((x + y) % f.n) 0
  | none, _ => 0
  | some _, none => 0

/-- `g(x) · (x + r)`: `h[i+1]` gains `g[i]` and `h[i]` gains `gf_mul(g[i], r)` (R145). -/
def mulLinear (f : FieldTables) (g : List Nat) (r : Nat) : List Nat :=
  List.zipWith (· ^^^ ·) (0 :: g) (g.map (fun c => tableMul f c r) ++ [0])

/-- `GenSynth(field, length, t)` (R142 to R145). The failure test is exactly `k < 0`. -/
def genSynth (f : FieldTables) (o : SynthOperands f.n) : Except ConfigFailure SynthResult :=
  let zeros := synthZeros f.n o.t
  let rdncy := zeros.length
  if o.length < rdncy then .error .infeasibleCodeParameters
  else .ok ⟨zeros.foldl (fun g z => mulLinear f g (f.alphaTo.getD z 0)) [1], rdncy, o.length - rdncy⟩

end Sys2Proof.Machine
end

