-- ==== Sys2Proof/Machine/HostProgram.lean ====
section
/-! DEFINITION. Host programs: the expansion of pseudo-instructions into statements and of statements into transactions
(30_encoding.md R101, R102). -/

namespace Sys2Proof.Machine

/-- The write of a command byte to `CMD`. -/
def commandWrite (i : Instr) : HostAction := .write 0x000#10 (encode i)

/-- The transaction a well-formed statement stands for; an ill-formed one stands for none (R101, R67). -/
def statementAction (st : Statement) : Option HostAction :=
  if st.wf then
    match st with
    | .wr a v => some (.write (BitVec.ofNat 10 a) (BitVec.ofNat 8 v))
    | .rd a => some (.read (BitVec.ofNat 10 a))
    | .encode b => some (commandWrite (.encode (Fin.ofNat 8 b)))
    | .decode b => some (commandWrite (.decode (Fin.ofNat 8 b)))
    | .enroll => some (commandWrite .enroll)
    | .recon => some (commandWrite .recon)
    | .cont => some (commandWrite .cont)
    | .zeroize => some (commandWrite .zeroize)
  else none

/-- `WR base + i, v_i` for the values in order. -/
def writeRun (base : Nat) : List Nat → List Statement
  | [] => []
  | v :: rest => .wr base v :: writeRun (base + 1) rest

/-- `RD base + i` for `i` below `count`. -/
def readRun (base count : Nat) : List Statement := (List.range count).map fun i => .rd (base + i)

/-- The expansion of a pseudo-instruction (R102); `LDBLK` uses the stride 32 of both paths. DESIGN CHOICE (assumption
log 15): the expansion does not consult `Pseudo.wf`, so an ill-formed pseudo-instruction (`LDBLK 8`, `LDHELP` with
fifteen bytes), for which the spec gives no expansion, expands by the same rows; `statementAction` then checks each
statement on its own. -/
def expandPseudo : Pseudo → List Statement
  | .ldblk b r0 r1 r2 r3 => writeRun (0x100 + 32 * b) [r0, r1, r2, r3]
  | .ldpuf f => writeRun 0x100 f
  | .ldhelp h => writeRun 0x010 h ++ [.wr 0x004 16]
  | .ldhb b h0 h1 => writeRun (0x010 + 2 * b) [h0, h1]
  | .rdkey => readRun 0x020 16
  | .rdhelp => readRun 0x010 16
  | .rdres => readRun 0x008 8 ++ [.rd 0x006, .rd 0x007, .rd 0x001]

/-- `s` with the transactions of a host program queued after what is pending already; `none` if a statement is
ill-formed. -/
def State.withProgram (s : State) (prog : List Statement) : Option State :=
  (prog.mapM statementAction).map fun acts => { s with pending := s.pending ++ acts }

end Sys2Proof.Machine
end

