-- ==== Sys2Proof/Safety.lean ====
section
/-! DEFINITION. What counts as a safe state and the terms the claims use: the invariant of every reachable state, the
shape of a paused run, the acceptance table of commands, and the parts of the state a command keeps. -/

namespace Sys2Proof.Machine

/-- The only six values a `BRES` register takes (10_state.md R30). -/
def bresValues : List Byte := [0x00#8, 0x40#8, 0x81#8, 0x82#8, 0x83#8, 0xC0#8]

/-- The window addresses that hold a stored byte: `HELPER`, `KEY` and `PUFBUF` (20_memory.md R65). -/
def isStorage (a : Nat) : Bool := (0x010 ≤ a && a < 0x030) || (0x100 ≤ a && a < 0x200)

/-- `n` bits of `v` that differ from 0: the weight of the first `n` elements. -/
def weight {w : Nat} (n : Nat) (v : BitVec w) : Nat := (List.range n).countP fun i => v.getLsbD i

/-- The invariant of every reachable state. -/
structure State.Inv (s : State) : Prop where
  /-- The stored bytes are in canonical form. -/
  canonical : Memory.wf s.mem
  /-- Every listed byte belongs to `HELPER`, `KEY` or `PUFBUF` (R65, R66). -/
  located   : ∀ c ∈ s.mem, isStorage c.1
  /-- "`PHASE = IDLE`: no command is in progress, `BLK = 0`" (R28). -/
  idleBlk   : s.phase = .idle → s.blk = 0
  /-- While paused `BLK` is 1 to 7 (R28). -/
  pausedBlk : s.phase ≠ .idle → s.blk ≠ 0
  /-- "`YIELD_EN` is still 1" while paused (47_key_assembler.md R245). -/
  yielding  : s.phase ≠ .idle → s.yieldEn = true
  /-- A paused reconstruction passed the length check, and `HLEN` is locked since (R242, R244). -/
  lengthOk  : s.phase = .pausedRecon → s.hlen = 16#8
  /-- Every `BRES` register reads as one of its six values (R30); the type `BlockResult` has no others. -/
  results   : ∀ b : BlockIdx, bresByte (s.bres.get b) ∈ bresValues

/-- What `EncBlock` leaves for sub-block `b` is in place: helper pair, key pair and an empty result (42_block_encoder.md
R166). -/
def State.EncodedBlock (s : State) (b : BlockIdx) : Prop :=
  let r := readResponse s (strideBytes s.encStride) b
  readHelper s b = helperOf r ∧ s.key (2 * b.val) = r.r0 ∧ s.key (2 * b.val + 1) = r.r1 ∧
    s.bres.get b = BlockResult.empty

/-- What `DecBlock` leaves for sub-block `b` is in place: key pair and result (46_block_decoder.md R230). -/
def State.DecodedBlock (s : State) (b : BlockIdx) : Prop :=
  let c := correctWord (receivedWord (readResponse s Config.decStride b) (readHelper s b))
  s.key (2 * b.val) = keySegment0 c.word ∧ s.key (2 * b.val + 1) = keySegment1 c.word ∧ s.bres.get b = c.result

/-- What the sub-block operation of a run of this kind leaves for sub-block `b` is in place (47_key_assembler.md R243). -/
def State.DoneBlock (kind : RunKind) (s : State) (b : BlockIdx) : Prop :=
  match kind with
  | .enroll => s.EncodedBlock b
  | .recon => s.DecodedBlock b

/-- The key pair and result of sub-block `b` are as the clearing at the start of a run left them (R241, R242). -/
def State.ClearedBlock (s : State) (b : BlockIdx) : Prop :=
  s.key (2 * b.val) = 0 ∧ s.key (2 * b.val + 1) = 0 ∧ s.bres.get b = BlockResult.empty

/-- The outputs of a paused run (47_key_assembler.md R244): those of the sub-blocks already done hold their final values,
those of the sub-blocks not yet done hold zero. -/
structure State.PausedOutputs (s : State) : Prop where
  enrollDone    : s.phase = .pausedEnroll → ∀ b : BlockIdx, b < s.blk → s.EncodedBlock b
  enrollPending : s.phase = .pausedEnroll → ∀ b : BlockIdx, s.blk ≤ b → s.ClearedBlock b ∧ readHelper s b = ⟨0, 0⟩
  reconDone     : s.phase = .pausedRecon → ∀ b : BlockIdx, b < s.blk → s.DecodedBlock b
  reconPending  : s.phase = .pausedRecon → ∀ b : BlockIdx, s.blk ≤ b → s.ClearedBlock b

/-- The outcome of issuing a command in a state: the table of 60_exceptions.md R272, with the priority of R273. -/
def acceptance : Instr → State → ErrCode
  | .encode _, s => if s.phase = .idle then .ok else .illegalState
  | .decode _, s => if s.phase = .idle then .ok else .illegalState
  | .enroll, s => if s.phase = .idle then .ok else .illegalState
  | .recon, s => if s.phase = .idle then (if s.hlen = 16#8 then .ok else .malformedHelperData) else .illegalState
  | .cont, s => if s.phase = .idle then .illegalState else .ok
  | .zeroize, s => if s.phase = .idle then .ok else .illegalState

/-- The outcome of writing the byte `c` to `CMD` (R273): the byte alone first, then the command against the state. -/
def writeOutcome (c : Byte) (s : State) : ErrCode :=
  match decode c with
  | .ok i => acceptance i s
  | .error .illegalCommand => .illegalCommand

/-- The registers only the host and reset write, the parameter and the port are unchanged: `CTRL`, `CHAL`, `HLEN`
(10_state.md R26, R27, R29). -/
def KeepsHostSide (s t : State) : Prop :=
  t.yieldEn = s.yieldEn ∧ t.chal = s.chal ∧ t.hlen = s.hlen ∧ t.encStride = s.encStride ∧
    t.pending = s.pending ∧ t.rdata = s.rdata

/-- `PHASE` and `BLK` are unchanged (R28). -/
def KeepsSequencer (s t : State) : Prop := t.phase = s.phase ∧ t.blk = s.blk

/-- Every stored byte outside the addresses of `touched` reads as before. -/
def KeepsBytesBut (touched : Nat → Prop) (s t : State) : Prop :=
  ∀ a, ¬touched a → Memory.read t.mem a = Memory.read s.mem a

/-- Run commands one after another, stopping at the first that does not answer a next state. -/
def execAll : List Instr → State → Host.Outcome State Fault Refusal
  | [], s => .next s
  | i :: rest, s =>
    match exec i s with
    | .next t => execAll rest t
    | .fault f => .fault f
    | .refused r => .refused r

/-- The word with ones exactly at the positions of a list without repeats. -/
def errorWord : List Nat → BitVec 31
  | [] => 0
  | p :: rest => BitVec.twoPow 31 p ^^^ errorWord rest

/-- The product over the positions `p` of `1 + α^p·x` (44_berlekamp_massey.md R200). -/
def errorLocator : List Nat → Locator
  | [] => onePoly
  | p :: rest =>
    let q := errorLocator rest
    ofCoeffs fun c => gfAdd (coeff q c) (if c = 0 then 0 else gfMul (alphaPow p) (coeff q (c - 1)))

/-- The value at α^i of the polynomial with constant term 1 and coefficients `sigma[1..degree]`
(45_chien_search.md R212). -/
def locatorValue (sigma : Locator) (i : Nat) : Nat → PolyForm
  | 0 => 1
  | j + 1 => gfAdd (locatorValue sigma i j) (gfMul (coeff sigma (j + 1)) (alphaPow (i * (j + 1))))

/-- The systematic codeword `bb(x) + x^15·data(x)` of the information bits (42_block_encoder.md R168). -/
def codeword (data : BitVec 16) : BitVec 31 := data ++ remainder data

/-- The reading bytes that some command reads, with stride 32 on both paths: `PUFBUF[32b .. 32b + 3]`
(70_reset_and_hazards.md R323). -/
def isUsedReadingByte (a : Nat) : Bool := a < 256 && a % 32 < 4

/-- A location the host may write while idle: `CTRL`, `CHAL`, `HLEN`, `HELPER[i]`, `PUFBUF[i]` (R63 (b), R65). -/
def isHostWritable (a : Addr) : Prop :=
  (0x002 ≤ a.toNat ∧ a.toNat ≤ 0x004) ∨ (0x010 ≤ a.toNat ∧ a.toNat < 0x020) ∨ (0x100 ≤ a.toNat ∧ a.toNat < 0x200)

/-- A read-only or reserved location (R64, R65). -/
def isReadOnlyOrReserved (a : Addr) : Prop :=
  a.toNat = 0x001 ∨ (0x005 ≤ a.toNat ∧ a.toNat < 0x010) ∨ (0x020 ≤ a.toNat ∧ a.toNat < 0x100) ∨ 0x200 ≤ a.toNat

/-- The window addresses of the helper pair of sub-block `b` (R95). -/
def isHelperPair (b : BlockIdx) (a : Nat) : Prop := a = helperAddr (2 * b.val) ∨ a = helperAddr (2 * b.val + 1)

/-- The window addresses of the key pair of sub-block `b` (R95). -/
def isKeyPair (b : BlockIdx) (a : Nat) : Prop := a = keyAddr (2 * b.val) ∨ a = keyAddr (2 * b.val + 1)

/-- The window addresses that the sub-block operation of a run writes for sub-block `b`: the key pair, and the helper
pair in an enrollment (47_key_assembler.md R240). -/
def isRunPair (kind : RunKind) (b : BlockIdx) (a : Nat) : Prop :=
  isKeyPair b a ∨ (kind = .enroll ∧ isHelperPair b a)

end Sys2Proof.Machine
end

