-- ==== Sys2Proof/Certificates/Slice0/Obligations.lean ====
section
/-! DEFINITION. The statements for the provers, about the block as spec/ describes it. -/

open Sys2Proof Sys2Proof.Machine

/-! ### The command byte -/

/-- R92: which bytes are which command, with the operand of each. -/
def Obligations.MaskAndMatchDecodeEachCommand : Prop :=
  ∀ c : Byte,
    (∀ b : BlockIdx, decode c = .ok (.encode b) ↔ c &&& 0xF8#8 = 0x10#8 ∧ b.val = (c &&& 0x07#8).toNat) ∧
    (∀ b : BlockIdx, decode c = .ok (.decode b) ↔ c &&& 0xF8#8 = 0x20#8 ∧ b.val = (c &&& 0x07#8).toNat) ∧
    (decode c = .ok .enroll ↔ c = 0x30#8) ∧
    (decode c = .ok .recon ↔ c = 0x40#8) ∧
    (decode c = .ok .cont ↔ c = 0x50#8) ∧
    (decode c = .ok .zeroize ↔ c = 0x60#8)

/-- 30_encoding.md section 1: a byte decodes to a command exactly when it is the command's encoding, so decoding is
unambiguous and no bit of an encoding is dropped. -/
def Obligations.EncodingAndDecodingAreInverse : Prop :=
  ∀ (c : Byte) (i : Instr), decode c = .ok i ↔ encode i = c

/-- R93: the 236 illegal bytes, and that writing one raises `IllegalCommand` in every state. That the step takes the write
off the host's queue and empties the port is the model's choice (assumption log 4, 6). -/
def Obligations.IllegalBytesRaiseIllegalCommand : Prop :=
  (∀ c : Byte, decode c = .error .illegalCommand ↔
    c.toNat < 0x10 ∨ 0x70 ≤ c.toNat ∨ (0x18 ≤ c.toNat ∧ c.toNat < 0x20) ∨ (0x28 ≤ c.toNat ∧ c.toNat < 0x30) ∨
    (0x31 ≤ c.toNat ∧ c.toNat < 0x40) ∨ (0x41 ≤ c.toNat ∧ c.toNat < 0x50) ∨ (0x51 ≤ c.toNat ∧ c.toNat < 0x60) ∨
    (0x61 ≤ c.toNat ∧ c.toNat < 0x70)) ∧
  (List.range 256).countP (fun n => decide (decode (BitVec.ofNat 8 n) = .error .illegalCommand)) = 236 ∧
  ∀ (s : State) (c : Byte) (rest : List HostAction), s.pending = .write 0x000#10 c :: rest →
    decode c = .error .illegalCommand → step s = .next { takeAction s rest with err := .illegalCommand }

/-- R91: words written out from the table decode to their commands. -/
def Obligations.WordsOfTheTableDecode : Prop :=
  decode 0b00010011#8 = .ok (.encode 3) ∧ decode 0b00100111#8 = .ok (.decode 7) ∧
  decode 0b00110000#8 = .ok .enroll ∧ decode 0b01000000#8 = .ok .recon ∧
  decode 0b01010000#8 = .ok .cont ∧ decode 0b01100000#8 = .ok .zeroize

/-- R24, R61, R74: a write to `CMD` whose byte decodes to `i` is the whole run of `i`, in the state in which the write is
taken off the host's queue; and `withFetchWord` queues exactly that write. The queue, the emptied port and
`withFetchWord` are the model's choice (assumption log 4, 6, 1). -/
def Obligations.StepRunsTheDecodedCommand : Prop :=
  (∀ (s : State) (c : Byte) (rest : List HostAction) (i : Instr), s.pending = .write 0x000#10 c :: rest →
    decode c = .ok i → step s = exec i (takeAction s rest)) ∧
  ∀ (s : State) (i : Instr), step (s.withFetchWord 8 (encode i).toNat) = exec i { s with rdata := none }

/-! ### Reset and the host's transactions -/

/-- R300: the block does nothing until the host acts, and a reset puts every piece of its state at its reset value. That
the parameter `ENC_STRIDE` and the host's queue stay is the model's choice (assumption log 2, 4). -/
def Obligations.ResetRestoresEveryRegister : Prop :=
  (∀ s : State, s.pending = [] → step s = .next s) ∧
  ∀ (s : State) (rest : List HostAction), s.pending = .reset :: rest →
    step s = .next { State.reset with encStride := s.encStride, pending := rest }

/-- R38: after reset every window address reads `0x00`, the ROM tables apart. -/
def Obligations.EveryAddressReadsZeroAfterReset : Prop :=
  ∀ a : Addr, ¬(0x040 ≤ a.toNat ∧ a.toNat < 0x090) → readWindow State.reset a = 0x00#8

/-- R62 with the map of R65: a read returns the byte the map assigns to the address and changes no state of the block,
in every phase. That the action leaves the host's queue and the byte stands on the port is the model's choice (assumption
log 4, 6). -/
def Obligations.ReadReturnsTheMappedByteAndChangesNothing : Prop :=
  (∀ (s : State) (a : Addr) (rest : List HostAction), s.pending = .read a :: rest →
    step s = .next { s with pending := rest, rdata := some (readWindow s a) }) ∧
  ∀ s : State,
    readWindow s 0x000#10 = 0x00#8 ∧ readWindow s 0x001#10 = statusByte s ∧ readWindow s 0x002#10 = ctrlByte s ∧
    readWindow s 0x003#10 = s.chal ∧ readWindow s 0x004#10 = s.hlen ∧
    readWindow s 0x005#10 = BitVec.ofNat 8 s.blk.val ∧ readWindow s 0x006#10 = toterrByte s ∧
    readWindow s 0x007#10 = resultByte s ∧
    (∀ b : BlockIdx, readWindow s (BitVec.ofNat 10 (0x008 + b.val)) = bresByte (s.bres.get b)) ∧
    (∀ i : Fin 16, readWindow s (BitVec.ofNat 10 (0x010 + i.val)) = s.helper i.val) ∧
    (∀ i : Fin 16, readWindow s (BitVec.ofNat 10 (0x020 + i.val)) = s.key i.val) ∧
    (∀ i : Fin 32, readWindow s (BitVec.ofNat 10 (0x040 + i.val)) = (alphaToRom.get i).setWidth 8) ∧
    (∀ i : Fin 32, readWindow s (BitVec.ofNat 10 (0x060 + i.val)) = logFormByte (indexOfRom.get i)) ∧
    (∀ i : Fin 16, readWindow s (BitVec.ofNat 10 (0x080 + i.val)) = if gpolyRom.get i then 0x01#8 else 0x00#8) ∧
    (∀ i : Fin 256, readWindow s (BitVec.ofNat 10 (0x100 + i.val)) = s.puf i.val) ∧
    ∀ a : Addr, (0x030 ≤ a.toNat ∧ a.toNat < 0x040) ∨ (0x090 ≤ a.toNat ∧ a.toNat < 0x100) ∨ 0x200 ≤ a.toNat →
      readWindow s a = 0x00#8

/-- R63: a write is a command, or gives a writable location its byte and changes nothing else the host can read, or is
ignored. What becomes of the host's queue, of the port and of the parameter is the model's choice (assumption log 4, 6,
2). -/
def Obligations.WriteDoesOneOfThreeThings : Prop :=
  ∀ (s : State) (a : Addr) (v : Byte) (rest : List HostAction), Memory.wf s.mem → s.pending = .write a v :: rest →
    (a = 0x000#10 →
      (∀ i, decode v = .ok i → step s = exec i (takeAction s rest)) ∧
      (decode v = .error .illegalCommand → step s = .next { takeAction s rest with err := .illegalCommand })) ∧
    (isHostWritable a → s.phase = .idle → ∃ t, step s = .next t ∧
      readWindow t a = (if a = 0x002#10 then v &&& 0x01#8 else v) ∧
      (∀ a', a' ≠ a → readWindow t a' = readWindow s a') ∧ t.encStride = s.encStride ∧ t.pending = rest ∧
      t.rdata = none) ∧
    (a ≠ 0x000#10 → ¬(isHostWritable a ∧ s.phase = .idle) →
      step s = .next { takeAction s rest with accErr := true })

/-- R64: an ignored write changes nothing but `STATUS.ACCERR`, which it sets, and these are the ignored writes. That the
step takes the write off the host's queue and empties the port is the model's choice (assumption log 4, 6). -/
def Obligations.IgnoredWriteSetsOnlyAccErr : Prop :=
  ∀ (s : State) (a : Addr) (v : Byte) (rest : List HostAction), s.pending = .write a v :: rest →
    isReadOnlyOrReserved a ∨ (isHostWritable a ∧ s.phase ≠ .idle) →
    step s = .next { takeAction s rest with accErr := true }

/-! ### Whole-machine rules -/

/-- R277: `ACCERR` is sticky; only an accepted `ZEROIZE` and reset clear it. -/
def Obligations.AccErrClearedOnlyByZeroizeOrReset : Prop :=
  ∀ (s t : State), s.accErr = true → step s = .next t → t.accErr = false →
    (∃ rest, s.pending = .reset :: rest) ∨
    ∃ c rest, s.pending = .write 0x000#10 c :: rest ∧ decode c = .ok .zeroize ∧ s.phase = .idle

/-- R28: `PHASE` and `BLK` are written only by `ENROLL`, `RECON` and `CONT`, and by reset. -/
def Obligations.SequencerWrittenOnlyByRunsAndReset : Prop :=
  ∀ (s t : State), step s = .next t → ¬KeepsSequencer s t →
    (∃ rest, s.pending = .reset :: rest) ∨
    ∃ c rest, s.pending = .write 0x000#10 c :: rest ∧
      (decode c = .ok .enroll ∨ decode c = .ok .recon ∨ decode c = .ok .cont)

/-- R21, R22, R23: what can change a byte of `PUFBUF`, of `HELPER` and of `KEY`. -/
def Obligations.BuffersChangeOnlyByTheirWriters : Prop :=
  ∀ (s t : State), step s = .next t → ¬(∃ rest, s.pending = .reset :: rest) →
    (∀ a : Nat, a < 256 → t.puf a ≠ s.puf a →
      (∃ v rest, s.pending = .write (BitVec.ofNat 10 (0x100 + a)) v :: rest ∧ s.phase = .idle) ∨
      ∃ c rest, s.pending = .write 0x000#10 c :: rest ∧ decode c = .ok .zeroize) ∧
    (∀ i : Nat, i < 16 → t.helper i ≠ s.helper i →
      (∃ v rest, s.pending = .write (BitVec.ofNat 10 (0x010 + i)) v :: rest ∧ s.phase = .idle) ∨
      ∃ c rest, s.pending = .write 0x000#10 c :: rest ∧
        ((∃ b : BlockIdx, decode c = .ok (.encode b) ∧ i / 2 = b.val) ∨ decode c = .ok .enroll ∨
          (decode c = .ok .cont ∧ s.phase = .pausedEnroll))) ∧
    ∀ i : Nat, i < 16 → t.key i ≠ s.key i →
      ∃ c rest, s.pending = .write 0x000#10 c :: rest ∧
        ((∃ b : BlockIdx, (decode c = .ok (.encode b) ∨ decode c = .ok (.decode b)) ∧ i / 2 = b.val) ∨
          decode c = .ok .enroll ∨ decode c = .ok .recon ∨ decode c = .ok .cont ∨ decode c = .ok .zeroize)

/-- R272, R273, R274: the outcome of every byte written to `CMD` in every state, reported in `STATUS.ERR`, and that a
refused command changes nothing else. That the step takes the write off the host's queue and empties the port is the
model's choice (assumption log 4, 6). -/
def Obligations.EveryCommandWriteReportsItsOutcome : Prop :=
  ∀ (s : State) (c : Byte) (rest : List HostAction), s.pending = .write 0x000#10 c :: rest →
    ∃ t, step s = .next t ∧ t.err = writeOutcome c s ∧
      (writeOutcome c s ≠ .ok → t = { takeAction s rest with err := writeOutcome c s })

/-- R303: every command, and every action of the host, is defined on every state. -/
def Obligations.EveryStepAnswersANextState : Prop :=
  ∀ s : State, ∃ t, step s = .next t

/-- The invariant holds after reset. -/
def Obligations.InvariantHoldsAtReset : Prop := State.reset.Inv ∧ State.reset.PausedOutputs

/-- The invariant (R28, R30, R65, R242, R245) is kept by every step. -/
def Obligations.InvariantKeptByEveryStep : Prop :=
  ∀ (s t : State), s.Inv → step s = .next t → t.Inv

/-- R244: in a paused run the outputs of the sub-blocks already done hold their final values and those of the others
hold zero; every step keeps this. -/
def Obligations.PausedOutputsKeptByEveryStep : Prop :=
  ∀ (s t : State), s.Inv → s.PausedOutputs → step s = .next t → t.PausedOutputs

/-- R251: the ways out of a paused run are the `CONT` of the last sub-block and reset. -/
def Obligations.PausedRunEndsOnlyByLastContOrReset : Prop :=
  ∀ (s t : State), s.Inv → s.phase ≠ .idle → step s = .next t → t.phase ≠ s.phase →
    t.phase = .idle ∧ t.blk = 0 ∧
      ((∃ rest, s.pending = .reset :: rest) ∨
        ∃ c rest, s.pending = .write 0x000#10 c :: rest ∧ decode c = .ok .cont ∧ s.blk = 7)

/-- R244: while a run is paused no step but reset changes `PUFBUF`, `HLEN`, `CTRL` or `CHAL`. -/
def Obligations.InputsFrozenWhilePaused : Prop :=
  ∀ (s t : State), s.phase ≠ .idle → ¬(∃ rest, s.pending = .reset :: rest) → step s = .next t →
    (∀ a : Nat, a < 256 → t.puf a = s.puf a) ∧ t.hlen = s.hlen ∧ t.yieldEn = s.yieldEn ∧ t.chal = s.chal

/-! ### The six commands -/

/-- R166: `ENCODE b` is refused unless idle; otherwise it writes the helper pair, the key pair (the first two bytes of
the reading), clears `BRES[b]`, and changes nothing else. -/
def Obligations.EncodeWritesHelperPairAndKeyPair : Prop :=
  ∀ (s : State) (b : BlockIdx), Memory.wf s.mem →
    (s.phase ≠ .idle → exec (.encode b) s = .next { s with err := .illegalState }) ∧
    (s.phase = .idle → ∃ t, exec (.encode b) s = .next t ∧
      readHelper t b = helperOf (readResponse s (strideBytes s.encStride) b) ∧
      t.key (2 * b.val) = (readResponse s (strideBytes s.encStride) b).r0 ∧
      t.key (2 * b.val + 1) = (readResponse s (strideBytes s.encStride) b).r1 ∧
      bresByte (t.bres.get b) = 0x00#8 ∧ (∀ b', b' ≠ b → t.bres.get b' = s.bres.get b') ∧
      t.err = .ok ∧ t.accErr = s.accErr ∧ KeepsSequencer s t ∧ KeepsHostSide s t ∧
      KeepsBytesBut (fun a => isHelperPair b a ∨ isKeyPair b a) s t)

/-- R230: `DECODE b` is refused unless idle; otherwise it writes the key pair and `BRES[b]` from the corrected word and
changes nothing else; it checks no length. -/
def Obligations.DecodeWritesKeyPairAndResult : Prop :=
  ∀ (s : State) (b : BlockIdx), Memory.wf s.mem →
    (s.phase ≠ .idle → exec (.decode b) s = .next { s with err := .illegalState }) ∧
    (s.phase = .idle →
      let c := correctWord (receivedWord (readResponse s 32 b) (readHelper s b))
      ∃ t, exec (.decode b) s = .next t ∧
        t.key (2 * b.val) = keySegment0 c.word ∧ t.key (2 * b.val + 1) = keySegment1 c.word ∧
        t.bres.get b = c.result ∧ (∀ b', b' ≠ b → t.bres.get b' = s.bres.get b') ∧
        t.err = .ok ∧ t.accErr = s.accErr ∧ KeepsSequencer s t ∧ KeepsHostSide s t ∧
        KeepsBytesBut (fun a => isKeyPair b a) s t)

/-- R241, R243: `ENROLL` is refused unless idle; otherwise, without yields, every sub-block is encoded and the block is
idle again, and with yields sub-block 0 is encoded, the others read zero, the run is paused at sub-block 1 and seven
`CONT`s carry it to the same end. Only `HELPER`, `KEY`, `BRES`, `ERR` and the sequencer change. -/
def Obligations.EnrollEncodesEverySubBlock : Prop :=
  ∀ s : State, Memory.wf s.mem →
    (s.phase ≠ .idle → exec .enroll s = .next { s with err := .illegalState }) ∧
    (s.phase = .idle → ∃ t, exec .enroll s = .next t ∧
      (s.yieldEn = false → t.phase = .idle ∧ t.blk = 0 ∧ ∀ b, t.EncodedBlock b) ∧
      (s.yieldEn = true → t.phase = .pausedEnroll ∧ t.blk = 1 ∧ t.EncodedBlock 0 ∧
        (∀ b : BlockIdx, b ≠ 0 → t.ClearedBlock b ∧ readHelper t b = ⟨0, 0⟩) ∧
        ∃ u, execAll (List.replicate 7 .cont) t = .next u ∧ u.phase = .idle ∧ u.blk = 0 ∧ ∀ b, u.EncodedBlock b) ∧
      toterrByte t = 0x00#8 ∧ resultByte t = 0x00#8 ∧
      t.err = .ok ∧ t.accErr = s.accErr ∧ KeepsHostSide s t ∧
      KeepsBytesBut (fun a => 0x010 ≤ a ∧ a < 0x030) s t)

/-- R242, R243: `RECON` is refused unless idle, and with `MalformedHelperData` unless `HLEN = 16`; otherwise, without
yields, every sub-block is decoded and the block is idle again, and with yields sub-block 0 is decoded, the others are
cleared, the run is paused at sub-block 1 and seven `CONT`s carry it to the same end. Only `KEY`, `BRES`, `ERR` and the
sequencer change. -/
def Obligations.ReconDecodesEverySubBlock : Prop :=
  ∀ s : State, Memory.wf s.mem →
    (s.phase ≠ .idle → exec .recon s = .next { s with err := .illegalState }) ∧
    (s.phase = .idle → s.hlen ≠ 16#8 → exec .recon s = .next { s with err := .malformedHelperData }) ∧
    (s.phase = .idle → s.hlen = 16#8 → ∃ t, exec .recon s = .next t ∧
      (s.yieldEn = false → t.phase = .idle ∧ t.blk = 0 ∧ ∀ b, t.DecodedBlock b) ∧
      (s.yieldEn = true → t.phase = .pausedRecon ∧ t.blk = 1 ∧ t.DecodedBlock 0 ∧
        (∀ b : BlockIdx, b ≠ 0 → t.ClearedBlock b) ∧
        ∃ u, execAll (List.replicate 7 .cont) t = .next u ∧ u.phase = .idle ∧ u.blk = 0 ∧ ∀ b, u.DecodedBlock b) ∧
      t.err = .ok ∧ t.accErr = s.accErr ∧ KeepsHostSide s t ∧
      KeepsBytesBut (fun a => 0x020 ≤ a ∧ a < 0x030) s t)

/-- R245, R243: `CONT` is refused when idle; otherwise it processes sub-block `BLK` of the paused run and, with yields
on, exactly that one: `BLK` moves on, or the run is complete after sub-block 7. With yields off, which no run reaches,
it carries the run to its end, as the loop of R243 says (assumption log 9, DEDUCED). -/
def Obligations.ContProcessesTheNextSubBlock : Prop :=
  ∀ s : State, Memory.wf s.mem →
    (s.phase = .idle → exec .cont s = .next { s with err := .illegalState }) ∧
    (s.phase ≠ .idle → ∃ t, exec .cont s = .next t ∧
      (s.phase = .pausedEnroll → t.EncodedBlock s.blk) ∧ (s.phase = .pausedRecon → t.DecodedBlock s.blk) ∧
      (s.yieldEn = true →
        (s.blk = 7 → t.phase = .idle ∧ t.blk = 0) ∧
        (s.blk ≠ 7 → t.phase = s.phase ∧ t.blk = s.blk + 1) ∧
        (∀ b, b ≠ s.blk → t.bres.get b = s.bres.get b) ∧
        KeepsBytesBut (fun a => isKeyPair s.blk a ∨ (s.phase = .pausedEnroll ∧ isHelperPair s.blk a)) s t) ∧
      (s.yieldEn = false → t.phase = .idle ∧ t.blk = 0 ∧
        (∀ b : BlockIdx, s.blk ≤ b →
          (s.phase = .pausedEnroll → t.EncodedBlock b) ∧ (s.phase = .pausedRecon → t.DecodedBlock b)) ∧
        (∀ b : BlockIdx, b < s.blk → t.bres.get b = s.bres.get b) ∧
        KeepsBytesBut (fun a => ∃ b : BlockIdx, s.blk ≤ b ∧
          (isKeyPair b a ∨ (s.phase = .pausedEnroll ∧ isHelperPair b a))) s t) ∧
      t.err = .ok ∧ t.accErr = s.accErr ∧ KeepsHostSide s t)

/-- R246: `ZEROIZE` is refused unless idle; otherwise it clears `KEY`, `PUFBUF`, `BRES`, `ERR` and `ACCERR`, and changes
nothing else, `HELPER` included. -/
def Obligations.ZeroizeErasesKeyReadingAndResults : Prop :=
  ∀ s : State,
    (s.phase ≠ .idle → exec .zeroize s = .next { s with err := .illegalState }) ∧
    (s.phase = .idle → ∃ t, exec .zeroize s = .next t ∧
      (∀ i : Nat, i < 16 → t.key i = 0x00#8) ∧ (∀ a : Nat, a < 256 → t.puf a = 0x00#8) ∧
      (∀ b, bresByte (t.bres.get b) = 0x00#8) ∧ statusByte t = 0x00#8 ∧
      t.err = .ok ∧ t.accErr = false ∧ KeepsSequencer s t ∧ KeepsHostSide s t ∧
      KeepsBytesBut (fun a => (0x020 ≤ a ∧ a < 0x030) ∨ (0x100 ≤ a ∧ a < 0x200)) s t)

/-- R68: `ENCODE b` and `DECODE b` are idempotent in effect. -/
def Obligations.SingleBlockCommandsAreIdempotent : Prop :=
  ∀ (s : State) (b : BlockIdx), Memory.wf s.mem → s.phase = .idle →
    (∃ t, exec (.encode b) s = .next t ∧ exec (.encode b) t = .next t) ∧
    ∃ t, exec (.decode b) s = .next t ∧ exec (.decode b) t = .next t

/-! ### Runs of the key assembler -/

/-- R244: a run with yields, its seven `CONT`s included, gives the same final state as the same run without. -/
def Obligations.YieldingRunEqualsRunWithoutYields : Prop :=
  ∀ s : State, s.phase = .idle → s.yieldEn = true →
    (∃ t, execAll (.enroll :: List.replicate 7 .cont) s = .next t ∧
      exec .enroll { s with yieldEn := false } = .next { t with yieldEn := false }) ∧
    (s.hlen = 16#8 → ∃ t, execAll (.recon :: List.replicate 7 .cont) s = .next t ∧
      exec .recon { s with yieldEn := false } = .next { t with yieldEn := false })

/-- R248: a complete `RECON` gives what eight single `DECODE`s of the same buffers give, and a complete `ENROLL` what
eight single `ENCODE`s give. -/
def Obligations.KeyIsTheConcatenationOfTheSubBlocks : Prop :=
  ∀ s : State, Memory.wf s.mem → s.phase = .idle → s.yieldEn = false →
    (s.hlen = 16#8 → ∃ t, exec .recon s = .next t ∧ ∀ b : BlockIdx, ∃ u, exec (.decode b) s = .next u ∧
      t.key (2 * b.val) = u.key (2 * b.val) ∧ t.key (2 * b.val + 1) = u.key (2 * b.val + 1) ∧
      t.bres.get b = u.bres.get b) ∧
    ∃ t, exec .enroll s = .next t ∧ ∀ b : BlockIdx, ∃ u, exec (.encode b) s = .next u ∧
      readHelper t b = readHelper u b ∧
      t.key (2 * b.val) = u.key (2 * b.val) ∧ t.key (2 * b.val + 1) = u.key (2 * b.val + 1)

/-- R231: decoding the reading that was just encoded is clean and gives the encoded key pair, with equal strides. -/
def Obligations.DecodingTheEncodedReadingIsClean : Prop :=
  ∀ (s : State) (b : BlockIdx), Memory.wf s.mem → s.phase = .idle → s.encStride = .stride32 →
    ∃ t u, exec (.encode b) s = .next t ∧ exec (.decode b) t = .next u ∧
      bresByte (u.bres.get b) = 0x40#8 ∧
      u.key (2 * b.val) = t.key (2 * b.val) ∧ u.key (2 * b.val + 1) = t.key (2 * b.val + 1)

/-- R249: an enrollment followed by a reconstruction from the same reading and helper data is clean in every sub-block
and gives the enrolled key, with equal strides. -/
def Obligations.ReconstructionFromTheEnrolledReadingIsClean : Prop :=
  ∀ s : State, Memory.wf s.mem → s.phase = .idle → s.encStride = .stride32 → s.yieldEn = false →
    ∃ t u, exec .enroll s = .next t ∧ exec .recon { t with hlen := 16#8 } = .next u ∧
      toterrByte u = 0x00#8 ∧ resultByte u = 0x01#8 ∧ (∀ b, bresByte (u.bres.get b) = 0x40#8) ∧
      ∀ i : Nat, i < 16 → u.key i = t.key i

/-- R232: with the helper data of a reading `r`, decoding a reading that differs from `r` in at most three of its first
31 bits gives the key pair of `r`, and the count is the number of differing bits. -/
def Obligations.UpToThreeBitErrorsAreCorrected : Prop :=
  ∀ (s : State) (b : BlockIdx) (r : SubBlock), Memory.wf s.mem → s.phase = .idle → readHelper s b = helperOf r →
    let w := weight 31 (unpackResponse r ^^^ unpackResponse (readResponse s 32 b))
    w ≤ 3 → ∃ t, exec (.decode b) s = .next t ∧
      t.key (2 * b.val) = r.r0 ∧ t.key (2 * b.val + 1) = r.r1 ∧
      bresByte (t.bres.get b) = if w = 0 then 0x40#8 else 0x80#8 + BitVec.ofNat 8 w

/-- R234, R224 to R227: the outcome is `CLEAN` exactly on codewords, a `CORRECTED` word is a codeword at distance
`COUNT` (1 to 3) from the received word, and otherwise the word is unchanged. -/
def Obligations.CorrectionLandsOnACodewordAtItsCount : Prop :=
  ∀ recd : BitVec 31,
    let c := correctWord recd
    (c.result.cls = .clean ↔ ∃ data, recd = codeword data) ∧
    (c.result.cls = .corrected → (∃ data, c.word = codeword data) ∧
      weight 31 (c.word ^^^ recd) = c.result.count.toNat ∧ 1 ≤ c.result.count.toNat) ∧
    (c.result.cls ≠ .corrected → c.word = recd ∧ c.result.count = 0#2)

/-- R275, R228: an uncorrectable sub-block is an outcome and no error: the command ends `OK`, `BRES[b]` is `0xC0`, the
key pair is the uncorrected reading and `RESULT` says uncorrectable. -/
def Obligations.UncorrectableIsAnOutcomeAndNoError : Prop :=
  ∀ (s : State) (b : BlockIdx), Memory.wf s.mem → s.phase = .idle →
    let syn := syndromes (receivedWord (readResponse s 32 b) (readHelper s b))
    let loc := berlekampMassey syn
    synError syn = true → (3 < loc.degree ∨ (chienSearch loc).length ≠ loc.degree) →
    ∃ t, exec (.decode b) s = .next t ∧ t.err = .ok ∧ bresByte (t.bres.get b) = 0xC0#8 ∧
      t.key (2 * b.val) = s.puf (32 * b.val) ∧ t.key (2 * b.val + 1) = s.puf (32 * b.val + 1) ∧
      resultByte t = 0x03#8

/-! ### What does not matter -/

/-- R37, R27, R23: no command's effect depends on `ERR`, `ACCERR`, `BRES` or `CHAL`, and no command reads `KEY`: from
memories that differ in `KEY` alone, every command ends in states that differ in `KEY` at most. -/
def Obligations.FlagsAndChallengeSteerNothing : Prop :=
  ∀ (i : Instr) (s t : State), exec i s = .next t →
    (∀ v, exec i { s with chal := v } = .next { t with chal := v }) ∧
    (∀ e, exec i { s with err := e } = .next t) ∧
    (∀ a, ∃ a', exec i { s with accErr := a } = .next { t with accErr := a' }) ∧
    (∀ r, ∃ r', exec i { s with bres := r } = .next { t with bres := r' }) ∧
    ∀ m : Memory, Memory.wf s.mem → Memory.wf m →
      (∀ a, ¬(0x020 ≤ a ∧ a < 0x030) → Memory.read m a = Memory.read s.mem a) →
      ∃ m', exec i { s with mem := m } = .next { t with mem := m' } ∧
        ∀ a, ¬(0x020 ≤ a ∧ a < 0x030) → Memory.read m' a = Memory.read t.mem a

/-- R323: with stride 32, two states that differ only in the 224 unused bytes of the reading and in bit 0 of each
sub-block's fourth byte end every command with the same `HELPER`, `KEY` and registers. -/
def Obligations.UnusedReadingBitsReachNoOutput : Prop :=
  ∀ (i : Instr) (s : State) (m : Memory), Memory.wf s.mem → Memory.wf m → s.encStride = .stride32 →
    (∀ a, a < 0x100 → Memory.read m a = Memory.read s.mem a) →
    (∀ a, isUsedReadingByte a = true → a % 32 ≠ 3 → Memory.read m (pufAddr a) = s.puf a) →
    (∀ a, isUsedReadingByte a = true → a % 32 = 3 →
      Memory.read m (pufAddr a) &&& 0xFE#8 = s.puf a &&& 0xFE#8) →
    ∃ t m', exec i s = .next t ∧ exec i { s with mem := m } = .next { t with mem := m' } ∧
      ∀ a, a < 0x100 → Memory.read m' a = Memory.read t.mem a

/-- R246, D20: after an accepted `ZEROIZE` nothing of the key, the reading, the results or the access flag is left: two
states that differ only there end in the same state. -/
def Obligations.ZeroizeLeavesNoTraceOfTheSecret : Prop :=
  ∀ (s : State) (m : Memory) (r : Vector BlockResult 8) (a : Bool), s.phase = .idle →
    Memory.wf s.mem → Memory.wf m → (∀ c ∈ s.mem, isStorage c.1 = true) → (∀ c ∈ m, isStorage c.1 = true) →
    (∀ i, i < 16 → Memory.read m (helperAddr i) = s.helper i) →
    ∃ t, exec .zeroize s = .next t ∧ exec .zeroize { s with mem := m, bres := r, accErr := a } = .next t

/-! ### The encoder's and the decoder's stages -/

/-- R162: the shift register leaves the remainder of `data(x)·x^15` divided by `g(x)` over GF(2), and the map is linear. -/
def Obligations.ShiftRegisterComputesThePolynomialRemainder : Prop :=
  (∀ data : BitVec 16,
    (∑ j ∈ Finset.range 15, if (remainder data).getLsbD j then (Polynomial.X : Polynomial (ZMod 2)) ^ j else 0) =
      ((∑ i ∈ Finset.range 16, if data.getLsbD i then (Polynomial.X : Polynomial (ZMod 2)) ^ i else 0) *
          Polynomial.X ^ 15) %ₘ
        (∑ j ∈ Finset.range 16, if genCoeff j then (Polynomial.X : Polynomial (ZMod 2)) ^ j else 0)) ∧
  ∀ x y : BitVec 16, remainder (x ^^^ y) = remainder x ^^^ remainder y

/-- R165: the helper bits, bit by bit: parity bit exclusive-or mask bit, and a zero padding bit. -/
def Obligations.HelperBitsAreParityXorMask : Prop :=
  ∀ r : SubBlock,
    (∀ j, j < 15 →
      (if j < 8 then (unpack8 (helperOf r).h0).getLsbD j else (unpack8 (helperOf r).h1).getLsbD (j - 8)) =
        ((remainder (infoBits (unpackResponse r))).getLsbD j ^^ (unpackResponse r).getLsbD (16 + j))) ∧
    (unpack8 (helperOf r).h1).getLsbD 7 = false

/-- R222, R221: the received word bit by bit; the padding bit and the discarded bit have no effect; and on the enrolled
reading the word is the enrollment codeword. -/
def Obligations.ReceivedWordIsHelperXorMaskThenInformation : Prop :=
  ∀ (r : SubBlock) (h : HelperPair),
    (∀ j, j < 15 → (receivedWord r h).getLsbD j =
      ((if j < 8 then (unpack8 h.h0).getLsbD j else (unpack8 h.h1).getLsbD (j - 8)) ^^
        (unpackResponse r).getLsbD (16 + j))) ∧
    (∀ i, i < 16 → (receivedWord r h).getLsbD (15 + i) = (unpackResponse r).getLsbD i) ∧
    receivedWord r ⟨h.h0, h.h1 ^^^ 0x01#8⟩ = receivedWord r h ∧
    receivedWord { r with r3 := r.r3 ^^^ 0x01#8 } h = receivedWord r h ∧
    receivedWord r (helperOf r) = codeword (infoBits (unpackResponse r))

/-- R183 (a), (d): syndromes are linear, and a single set bit at position `j` gives `α^(i·j)`. -/
def Obligations.SyndromesAreLinear : Prop :=
  (∀ (x y : BitVec 31) (i : Nat), 1 ≤ i → i ≤ 6 →
    synd (syndromes (x ^^^ y)) i = gfAdd (synd (syndromes x) i) (synd (syndromes y) i)) ∧
  ∀ i j : Nat, 1 ≤ i → i ≤ 6 → j < 31 → synd (syndromes (BitVec.twoPow 31 j)) i = alphaPow (i * j)

/-- R183 (e): the even syndromes are squares, on every received word. -/
def Obligations.EvenSyndromesAreSquares : Prop :=
  ∀ w : BitVec 31,
    synd (syndromes w) 2 = gfMul (synd (syndromes w) 1) (synd (syndromes w) 1) ∧
    synd (syndromes w) 4 = gfMul (synd (syndromes w) 2) (synd (syndromes w) 2) ∧
    synd (syndromes w) 6 = gfMul (synd (syndromes w) 3) (synd (syndromes w) 3)

/-- R168, R183 (b), R182: a word has all six syndromes zero exactly when it is a systematic codeword. -/
def Obligations.SyndromesVanishExactlyOnCodewords : Prop :=
  ∀ w : BitVec 31, synError (syndromes w) = false ↔ ∃ data, w = codeword data

/-- R194: `SelectRow` answers a row with nonzero discrepancy of largest `ul`, and among those the one with the largest
row number; row 0 makes sure there is one, so the divisor of R195 is never zero. -/
def Obligations.SelectRowAnswersTheBestCandidate : Prop :=
  ∀ others : List LocatorRow,
    let sel := selectRow others
    (startRow :: others)[sel.q]? = some sel.row ∧ sel.row.d ≠ 0 ∧
    ∀ (q : Nat) (row : LocatorRow), (startRow :: others)[q]? = some row → row.d ≠ 0 →
      row.ul ≤ sel.row.ul ∧ (row.ul = sel.row.ul → q ≤ sel.q)

/-- R190, R198: on syndromes that are not all zero the engine answers a degree from 1 to 6, a constant term 1 and no
coefficient above the degree. -/
def Obligations.LocatorHasConstantTermOneAndItsDegree : Prop :=
  ∀ s : Syndromes, synError s = true →
    1 ≤ (berlekampMassey s).degree ∧ (berlekampMassey s).degree ≤ 6 ∧ coeff (berlekampMassey s).sigma 0 = 1 ∧
    ∀ c, (berlekampMassey s).degree < c → coeff (berlekampMassey s).sigma c = 0

/-- R200: for one to three errors on a codeword the engine answers their number and the locator polynomial of their
positions. -/
def Obligations.LocatorOfUpToThreeErrors : Prop :=
  ∀ (data : BitVec 16) (ps : List Nat), ps.Nodup → (∀ p ∈ ps, p < 31) → 1 ≤ ps.length → ps.length ≤ 3 →
    berlekampMassey (syndromes (codeword data ^^^ errorWord ps)) = ⟨ps.length, errorLocator ps⟩

/-- R212, R213, R214: the search reports position `p` exactly when `α^(31−p)` is a root, in falling order. -/
def Obligations.ChienSearchFindsExactlyTheRoots : Prop :=
  ∀ r : LocatorResult,
    (∀ p, p ∈ chienSearch r ↔ p < 31 ∧ locatorValue r.sigma (31 - p) r.degree = 0) ∧
    (chienSearch r).Pairwise fun p p' => p' < p

/-! ### Tables and configuration time -/

/-- R121, R123, R124: `GFBuild(PRIM, 5)` succeeds and gives the two ROM tables. -/
def Obligations.FieldRomIsWhatGFBuildGives : Prop :=
  gfBuild primOperands = .ok ⟨31, alphaToRom.toList.map BitVec.toNat, indexOfRom.toList.map (Option.map Fin.val)⟩

/-- R125: the table invariant. -/
def Obligations.FieldTablesAreInverse : Prop :=
  (∀ x : PolyForm, x ≠ 0 → ∃ e, indexOf x = some e ∧ alphaPow e.val = x) ∧ indexOf 0 = none ∧
  (∀ i : Nat, ∀ h : i < 31, indexOf (alphaPow i) = some ⟨i, h⟩)

/-- R121, R122, R125 for every field: whenever `GFBuild` succeeds its two tables are inverse to each other on the nonzero
elements, and the logarithm of zero is the sentinel. -/
def Obligations.EveryBuiltFieldHasInverseTables : Prop :=
  ∀ (o : FieldOperands) (f : FieldTables), gfBuild o = .ok f →
    f.n = 2 ^ o.m - 1 ∧ f.alphaTo.length = f.n + 1 ∧ f.indexOf.length = f.n + 1 ∧ f.indexOf[0]? = some none ∧
    (∀ i, i < f.n → ∃ x, f.alphaTo[i]? = some x ∧ f.indexOf[x]? = some (some i)) ∧
    ∀ x, 0 < x → x ≤ f.n → ∃ i, i < f.n ∧ f.indexOf[x]? = some (some i) ∧ f.alphaTo[i]? = some x

/-- R122: of the sequences `p[0..5]` with `p[5] = 1`, exactly six are accepted, and none with `p[5] = 0` is. -/
def Obligations.SixPrimitivePolynomialsOfDegreeFive : Prop :=
  ∀ p0 p1 p2 p3 p4 p5 : Bool,
    isPrimitive ⟨5, by decide, #v[p0, p1, p2, p3, p4, p5]⟩ =
      (p5 && [[true, false, true, false, false], [true, false, false, true, false], [true, true, true, true, false],
        [true, true, true, false, true], [true, true, false, true, true], [true, false, true, true, true]].contains
          [p0, p1, p2, p3, p4])

/-- R141: the generator polynomial ROM is what synthesis gives. -/
def Obligations.GeneratorRomIsWhatSynthesisGives : Prop :=
  ∃ (f : FieldTables) (o : SynthOperands f.n), gfBuild primOperands = .ok f ∧ o.length = 31 ∧ o.t = 3 ∧
    genSynth f o = .ok ⟨gpolyRom.toList.map Bool.toNat, 15, 16⟩

/-- R144: over this field, the redundancy for every `t`, and failure exactly when it exceeds the length. -/
def Obligations.SynthesisFailsExactlyWhenRedundancyExceedsLength : Prop :=
  ∀ (f : FieldTables) (o : SynthOperands f.n), gfBuild primOperands = .ok f →
    let rdncy := if o.t = 1 then 5 else if o.t = 2 then 10 else if o.t = 3 then 15 else if o.t ≤ 5 then 20
      else if o.t ≤ 7 then 25 else 30
    (o.length < rdncy → genSynth f o = .error .infeasibleCodeParameters) ∧
    (rdncy ≤ o.length → ∃ g, genSynth f o = .ok ⟨g, rdncy, o.length - rdncy⟩ ∧ g.length = rdncy + 1 ∧
      g.getLast? = some 1 ∧ ∀ x ∈ g, x = 0 ∨ x = 1)

/-- R127: multiplication through the tables, with its corner cases and laws. -/
def Obligations.FieldMultiplicationThroughTheTables : Prop :=
  (∀ a b : PolyForm, (a = 0 ∨ b = 0 → gfMul a b = 0) ∧
    ∀ x y, indexOf a = some x → indexOf b = some y → gfMul a b = alphaToRom[(x.val + y.val) % 31]'(by omega)) ∧
  (∀ x : PolyForm, gfMul x 1 = x) ∧ (∀ a b : PolyForm, gfMul a b = gfMul b a) ∧
  ∀ a b c : PolyForm, gfMul (gfMul a b) c = gfMul a (gfMul b c)

/-- R128: division by a nonzero element through the tables, and that it undoes multiplication. -/
def Obligations.FieldDivisionUndoesMultiplication : Prop :=
  ∀ a b : PolyForm, b ≠ 0 →
    (a = 0 → gfDiv a b = 0) ∧
    (∀ x y, indexOf a = some x → indexOf b = some y →
      gfDiv a b = alphaToRom[(x.val + 31 - y.val) % 31]'(by omega)) ∧
    gfMul (gfDiv a b) b = a

/-- R130, R129: `exp` and `log` undo each other on every element and every LogForm. -/
def Obligations.ExpAndLogUndoEachOther : Prop :=
  gfExp none = 0 ∧ (∀ e : Fin 31, gfExp (some e) = alphaToRom.get (e.castLE (by decide))) ∧
  (∀ a : PolyForm, gfExp (gfLog a) = a) ∧ ∀ e : LogForm, gfLog (gfExp e) = e

/-! ### Views and layouts -/

/-- R31: `TOTERR` reads the sum of the eight counts, a value from 0 to 24. -/
def Obligations.ToterrReadsTheSumOfCounts : Prop :=
  ∀ s : State, (readWindow s 0x006#10).toNat = ∑ b : Fin 8, (s.bres.get b).count.toNat ∧
    (readWindow s 0x006#10).toNat ≤ 24

/-- R32: `RESULT` reads the first of uncorrectable, incomplete, corrected, clean that applies. -/
def Obligations.ResultReadsTheOverallClass : Prop :=
  ∀ s : State,
    ((∃ b, (s.bres.get b).cls = .uncorrectable) → readWindow s 0x007#10 = 0x03#8) ∧
    ((∀ b, (s.bres.get b).cls ≠ .uncorrectable) → (∃ b, (s.bres.get b).cls = .none) →
      readWindow s 0x007#10 = 0x00#8) ∧
    ((∀ b, (s.bres.get b).cls ≠ .uncorrectable ∧ (s.bres.get b).cls ≠ .none) →
      (∃ b, (s.bres.get b).cls = .corrected) → readWindow s 0x007#10 = 0x02#8) ∧
    ((∀ b, (s.bres.get b).cls = .clean) → readWindow s 0x007#10 = 0x01#8)

/-- R25, R30: the fields of `STATUS` and its two reserved bits; the fields of `BRES[b]`, its reserved bits and its six
values. -/
def Obligations.StatusFieldsStandWhereTheTableSays : Prop :=
  ∀ s : State,
    (readWindow s 0x001#10).extractLsb' 0 2 =
      (match s.phase with | .idle => 0#2 | .pausedEnroll => 1#2 | .pausedRecon => 2#2) ∧
    (readWindow s 0x001#10).getLsbD 2 = false ∧
    (readWindow s 0x001#10).extractLsb' 3 3 =
      (match s.err with
        | .ok => 0#3 | .illegalCommand => 1#3 | .illegalState => 2#3 | .malformedHelperData => 3#3) ∧
    (readWindow s 0x001#10).getLsbD 6 = s.accErr ∧ (readWindow s 0x001#10).getLsbD 7 = false ∧
    ∀ b : BlockIdx,
      let v := readWindow s (BitVec.ofNat 10 (0x008 + b.val))
      v.extractLsb' 6 2 = (match (s.bres.get b).cls with
        | .none => 0#2 | .clean => 1#2 | .corrected => 2#2 | .uncorrectable => 3#2) ∧
      v.extractLsb' 2 4 = 0#4 ∧ v.extractLsb' 0 2 = (s.bres.get b).count ∧
      v ∈ [0x00#8, 0x40#8, 0x81#8, 0x82#8, 0x83#8, 0xC0#8]

/-- R101, R102, R67: the transaction each statement stands for, with none for an ill-formed one, and the transactions
each pseudo-instruction stands for, row by row. That a transaction is a queued `HostAction` is the model's choice
(assumption log 4, 13). -/
def Obligations.PseudoInstructionsExpandToTransactions : Prop :=
  (∀ st : Statement, st.wf = false → statementAction st = none) ∧
  (∀ a v : Nat, a < 0x400 → v < 0x100 →
    statementAction (.wr a v) = some (.write (BitVec.ofNat 10 a) (BitVec.ofNat 8 v))) ∧
  (∀ a : Nat, a < 0x400 → statementAction (.rd a) = some (.read (BitVec.ofNat 10 a))) ∧
  (∀ b : Nat, b < 8 → statementAction (.encode b) = some (.write 0x000#10 (BitVec.ofNat 8 (0x10 + b))) ∧
    statementAction (.decode b) = some (.write 0x000#10 (BitVec.ofNat 8 (0x20 + b)))) ∧
  statementAction .enroll = some (.write 0x000#10 0x30#8) ∧ statementAction .recon = some (.write 0x000#10 0x40#8) ∧
  statementAction .cont = some (.write 0x000#10 0x50#8) ∧ statementAction .zeroize = some (.write 0x000#10 0x60#8) ∧
  (∀ b r0 r1 r2 r3 : Nat, b < 8 → r0 < 0x100 → r1 < 0x100 → r2 < 0x100 → r3 < 0x100 →
    (expandPseudo (.ldblk b r0 r1 r2 r3)).mapM statementAction = some
      [.write (BitVec.ofNat 10 (0x100 + 32 * b)) (BitVec.ofNat 8 r0),
       .write (BitVec.ofNat 10 (0x100 + 32 * b + 1)) (BitVec.ofNat 8 r1),
       .write (BitVec.ofNat 10 (0x100 + 32 * b + 2)) (BitVec.ofNat 8 r2),
       .write (BitVec.ofNat 10 (0x100 + 32 * b + 3)) (BitVec.ofNat 8 r3)]) ∧
  (∀ f : Fin 256 → Byte, (expandPseudo (.ldpuf (List.ofFn fun a => (f a).toNat))).mapM statementAction =
    some (List.ofFn fun a => .write (BitVec.ofNat 10 (0x100 + a.val)) (f a))) ∧
  (∀ h : Fin 16 → Byte, (expandPseudo (.ldhelp (List.ofFn fun i => (h i).toNat))).mapM statementAction =
    some ((List.ofFn fun i => .write (BitVec.ofNat 10 (0x010 + i.val)) (h i)) ++ [.write 0x004#10 16#8])) ∧
  (∀ b h0 h1 : Nat, b < 8 → h0 < 0x100 → h1 < 0x100 →
    (expandPseudo (.ldhb b h0 h1)).mapM statementAction = some
      [.write (BitVec.ofNat 10 (0x010 + 2 * b)) (BitVec.ofNat 8 h0),
       .write (BitVec.ofNat 10 (0x010 + 2 * b + 1)) (BitVec.ofNat 8 h1)]) ∧
  (expandPseudo .rdkey).mapM statementAction =
    some (List.ofFn fun i : Fin 16 => .read (BitVec.ofNat 10 (0x020 + i.val))) ∧
  (expandPseudo .rdhelp).mapM statementAction =
    some (List.ofFn fun i : Fin 16 => .read (BitVec.ofNat 10 (0x010 + i.val))) ∧
  (expandPseudo .rdres).mapM statementAction =
    some ((List.ofFn fun b : Fin 8 => .read (BitVec.ofNat 10 (0x008 + b.val))) ++
      [.read 0x006#10, .read 0x007#10, .read 0x001#10])
end

