-- ==== Sys2Proof/Laws/Bits.lean ====
section
/-! SUPPORT. The elements of a bit sequence, and packing as the inverse of unpacking (20_memory.md R70). -/

namespace Sys2Proof.Machine

/-- Element `i` of `ofBits n f` is `f i`. -/
theorem getLsbD_ofBits (n : Nat) (f : Nat → Bool) (i : Nat) :
    (ofBits n f).getLsbD i = (decide (i < n) && f i) := by
  induction n with
  | zero => simp [ofBits]
  | succ k ih =>
    rw [ofBits, BitVec.getLsbD_cons, ih]
    by_cases h : i = k
    · simp [h]
    · have : decide (i < k) = decide (i < k + 1) := by
        simp only [decide_eq_decide]; omega
      simp [h, this]

theorem getLsbD_unpack8 (b : Byte) (i : Nat) : (unpack8 b).getLsbD i = (decide (i < 8) && b.getLsbD (7 - i)) := by
  rw [unpack8, getLsbD_ofBits]

theorem getLsbD_pack8 (s : BitVec 8) (i : Nat) : (pack8 s).getLsbD i = (decide (i < 8) && s.getLsbD (7 - i)) := by
  rw [pack8, getLsbD_ofBits]

/-- Two sequences with the same elements are equal. -/
theorem ofBits_ext {n : Nat} {v w : BitVec n} (h : ∀ i < n, v.getLsbD i = w.getLsbD i) : v = w :=
  BitVec.eq_of_getLsbD_eq h

/-- Unpacking what was packed gives the sequence back. -/
@[simp] theorem unpack8_pack8 (s : BitVec 8) : unpack8 (pack8 s) = s := by
  refine ofBits_ext fun i hi => ?_
  have h1 : 7 - i < 8 := by omega
  have h2 : 7 - (7 - i) = i := by omega
  rw [getLsbD_unpack8, getLsbD_pack8, h2]
  simp [hi, h1]

/-- Bit `p` of the unpacked sub-block (42_block_encoder.md R160). -/
theorem getLsbD_unpackResponse (r : SubBlock) {p : Nat} (hp : p < 32) :
    (unpackResponse r).getLsbD p = (r.byte (p / 8)).getLsbD (7 - p % 8) := by
  have : p % 8 < 8 := Nat.mod_lt _ (by decide)
  rw [unpackResponse, getLsbD_ofBits, getLsbD_unpack8]
  simp [hp, this]

end Sys2Proof.Machine
end

