-- ==== Sys2Proof/Laws/Flags.lean ====
section
/-! SUPPORT. What a `BRES` register can hold and read as (10_state.md R30). -/

namespace Sys2Proof.Machine

@[simp] theorem BlockResult.empty_cls : BlockResult.empty.cls = .none := rfl
@[simp] theorem BlockResult.empty_count : BlockResult.empty.count = 0#2 := rfl
@[simp] theorem BlockResult.clean_cls : BlockResult.clean.cls = .clean := rfl
@[simp] theorem BlockResult.clean_count : BlockResult.clean.count = 0#2 := rfl
@[simp] theorem BlockResult.uncorrectable_cls : BlockResult.uncorrectable.cls = .uncorrectable := rfl
@[simp] theorem BlockResult.uncorrectable_count : BlockResult.uncorrectable.count = 0#2 := rfl
@[simp] theorem BlockResult.corrected_cls (n : Fin 3) : (BlockResult.corrected n).cls = .corrected := rfl
@[simp] theorem correctedBy_cls (degree : Nat) : (correctedBy degree).cls = .corrected := rfl

/-- The count is nonzero exactly in the class `CORRECTED`. -/
theorem BlockResult.count_ne_zero_iff (r : BlockResult) : r.count ≠ 0#2 ↔ r.cls = .corrected := by
  cases r with
  | none => decide
  | clean => decide
  | corrected n => revert n; decide
  | uncorrectable => decide

/-- Every `BRES` register reads as one of the six values. -/
theorem bresByte_mem_bresValues (r : BlockResult) : bresByte r ∈ bresValues := by
  cases r with
  | none => decide
  | clean => decide
  | corrected n => revert n; decide
  | uncorrectable => decide

/-- A correction of 1 to 3 positions counts them. -/
theorem correctedBy_count {degree : Nat} (h0 : 1 ≤ degree) (h3 : degree ≤ 3) :
    (correctedBy degree).count.toNat = degree := by
  interval_cases degree <;> decide

/-- The byte of a correction of 1 to 3 positions. -/
theorem bresByte_correctedBy {degree : Nat} (h0 : 1 ≤ degree) (h3 : degree ≤ 3) :
    bresByte (correctedBy degree) = 0x80#8 + BitVec.ofNat 8 degree := by
  interval_cases degree <;> decide

end Sys2Proof.Machine
end

