-- ==== Sys2Proof/Laws/HostProgram.lean ====
section
/-! SUPPORT. The transactions of written statements, and of runs of writes and of reads (30_encoding.md R101, R102). -/

namespace Sys2Proof.Machine

/-- An ill-formed statement stands for no transaction. -/
theorem statementAction_of_not_wf {st : Statement} (h : st.wf = false) : statementAction st = none := by
  simp [statementAction, h]

/-- A byte write to the window stands for that write. -/
theorem statementAction_wr {a v : Nat} (ha : a < 0x400) (hv : v < 0x100) :
    statementAction (.wr a v) = some (.write (BitVec.ofNat 10 a) (BitVec.ofNat 8 v)) := by
  simp [statementAction, Statement.wf, isWindowAddr, isByteValue, ha, hv]

/-- A read of the window stands for that read. -/
theorem statementAction_rd {a : Nat} (ha : a < 0x400) :
    statementAction (.rd a) = some (.read (BitVec.ofNat 10 a)) := by
  simp [statementAction, Statement.wf, isWindowAddr, ha]

/-- Statement `i` of a run of writes. -/
theorem getElem?_writeRun (base : Nat) (vs : List Nat) (i : Nat) :
    (writeRun base vs)[i]? = vs[i]?.map fun v => .wr (base + i) v := by
  induction vs generalizing base i with
  | nil => simp [writeRun]
  | cons v rest ih =>
    cases i with
    | zero => simp [writeRun]
    | succ i => simp only [writeRun, List.getElem?_cons_succ, ih]; congr 2; funext v; congr 1; omega

/-- A run of byte writes inside the window stands for the writes in order. -/
theorem mapM_writeRun (base : Nat) (vs : List Nat) (hb : base + vs.length ≤ 0x400) (hv : ∀ v ∈ vs, v < 0x100) :
    (writeRun base vs).mapM statementAction =
      some (vs.mapIdx fun i v => .write (BitVec.ofNat 10 (base + i)) (BitVec.ofNat 8 v)) := by
  induction vs generalizing base with
  | nil => rfl
  | cons v rest ih =>
    have hl : (v :: rest).length = rest.length + 1 := rfl
    have h := ih (base + 1) (by omega) fun w hw => hv w (List.mem_cons_of_mem _ hw)
    rw [writeRun, List.mapM_cons, statementAction_wr (by omega) (hv v List.mem_cons_self), h]
    simp [List.mapIdx_cons, Nat.add_assoc, Nat.add_comm 1]

/-- A run of writes of a sequence of bytes stands for the writes in index order. -/
theorem mapM_writeRun_ofFn (base : Nat) {n : Nat} (f : Fin n → Byte) (hb : base + n ≤ 0x400) :
    (writeRun base (List.ofFn fun i => (f i).toNat)).mapM statementAction =
      some (List.ofFn fun i => .write (BitVec.ofNat 10 (base + i.val)) (f i)) := by
  rw [mapM_writeRun base _ (by rw [List.length_ofFn]; exact hb) (List.forall_mem_ofFn_iff.2 fun i => (f i).isLt)]
  congr 1
  apply List.ext_getElem
  · simp only [List.length_mapIdx, List.length_ofFn]
  · intro i h1 h2
    simp only [List.getElem_mapIdx, List.getElem_ofFn, BitVec.ofNat_toNat, BitVec.setWidth_eq]

/-- A run of reads inside the window stands for the reads in order. -/
theorem mapM_readRun (base count : Nat) (hb : base + count ≤ 0x400) :
    (readRun base count).mapM statementAction =
      some ((List.range count).map fun i => .read (BitVec.ofNat 10 (base + i))) := by
  induction count with
  | zero => rfl
  | succ n ih =>
    have h := ih (by omega)
    unfold readRun at h ⊢
    rw [List.range_succ, List.map_append, List.mapM_append, h, List.map_append]
    simp [statementAction_rd (show base + n < 0x400 by omega)]

end Sys2Proof.Machine
end

