-- ==== Sys2Proof/Laws/Memory.lean ====
section
/-! SUPPORT. The laws of the stored bytes: a read after a write, the canonical form is kept by every operation, and two
canonical memories that read alike are equal. -/

namespace Sys2Proof.Machine

/-- The empty memory, the one of the reset state, is canonical. -/
theorem Memory.wf_nil : Memory.wf [] := by simp [Memory.wf]

theorem Memory.wf_cons {c : Host.Cell} {m : Memory} :
    Memory.wf (c :: m) ↔ (∀ c' ∈ m, c.1 < c'.1) ∧ c.2 ≠ Memory.unlisted ∧ Memory.wf m := by
  simp only [Memory.wf, List.pairwise_cons, List.mem_cons, forall_eq_or_imp]
  tauto

/-- An address below every listed one reads as unlisted. -/
theorem Memory.read_unlisted {m : Memory} {a : Nat} (h : ∀ c ∈ m, c.1 ≠ a) :
    Memory.read m a = Memory.unlisted := by
  induction m with
  | nil => rfl
  | cons c rest ih =>
    simp only [List.mem_cons, forall_eq_or_imp] at h
    simp [Memory.read, h.1, ih h.2]

/-- The cells of a memory after a write are old cells at other addresses, or the new one. -/
theorem Memory.mem_write {m : Memory} {a : Nat} {v : Byte} {c : Host.Cell} (h : c ∈ Memory.write m a v) :
    c ∈ m ∨ (c = (a, v) ∧ v ≠ Memory.unlisted) := by
  induction m with
  | nil =>
    by_cases hv : v = Memory.unlisted <;> simp_all [Memory.write]
  | cons d rest ih =>
    simp only [Memory.write] at h
    split at h
    · rcases List.mem_cons.1 h with h | h
      · exact .inl (h ▸ List.mem_cons_self)
      · exact (ih h).imp (List.mem_cons_of_mem _) id
    · split at h
      · split at h
        · exact .inl (List.mem_cons_of_mem _ h)
        · rename_i hv
          rcases List.mem_cons.1 h with h | h
          · exact .inr ⟨h, hv⟩
          · exact .inl (List.mem_cons_of_mem _ h)
      · split at h
        · exact .inl h
        · rename_i hv
          rcases List.mem_cons.1 h with h | h
          · exact .inr ⟨h, hv⟩
          · exact .inl h

/-- A write leaves every other address alone. -/
theorem Memory.read_write_ne {m : Memory} {a a' : Nat} (v : Byte) (h : a' ≠ a) :
    Memory.read (Memory.write m a v) a' = Memory.read m a' := by
  induction m with
  | nil => by_cases hv : v = Memory.unlisted <;> simp [Memory.write, Memory.read, hv, h.symm]
  | cons c rest ih =>
    simp only [Memory.write]
    split
    · simp only [Memory.read, ih]
    · split
      · rename_i _ hc
        have hne : c.1 ≠ a' := by omega
        split <;> simp [Memory.read, hne, h.symm]
      · split
        · rfl
        · simp [Memory.read, h.symm]

/-- A read of the written address gives the written value. -/
theorem Memory.read_write_self {m : Memory} (a : Nat) (v : Byte) (hm : Memory.wf m) :
    Memory.read (Memory.write m a v) a = v := by
  induction m with
  | nil => by_cases hv : v = Memory.unlisted <;> simp [Memory.write, Memory.read, hv]
  | cons c rest ih =>
    obtain ⟨hlt, _, hrest⟩ := Memory.wf_cons.1 hm
    simp only [Memory.write]
    split
    · rename_i hc
      have hne : c.1 ≠ a := by omega
      simp [Memory.read, hne, ih hrest]
    · split
      · rename_i _ hc
        split
        · rename_i hv
          rw [Memory.read_unlisted fun d hd => by have := hlt d hd; omega, hv]
        · simp [Memory.read]
      · rename_i hc hne
        split
        · rename_i hv
          rw [hv, Memory.read, if_neg hne, Memory.read_unlisted fun d hd => by have := hlt d hd; omega]
        · simp [Memory.read]

/-- The read after a write, in one equation. -/
theorem Memory.read_write {m : Memory} (a a' : Nat) (v : Byte) (hm : Memory.wf m) :
    Memory.read (Memory.write m a v) a' = if a' = a then v else Memory.read m a' := by
  split
  · rename_i h
    rw [h, Memory.read_write_self a v hm]
  · rename_i h
    exact Memory.read_write_ne v h

/-- A write keeps the canonical form. -/
theorem Memory.wf_write {m : Memory} (a : Nat) (v : Byte) (hm : Memory.wf m) : Memory.wf (Memory.write m a v) := by
  induction m with
  | nil => by_cases hv : v = Memory.unlisted <;> simp [Memory.write, Memory.wf, hv]
  | cons c rest ih =>
    obtain ⟨hlt, hc0, hrest⟩ := Memory.wf_cons.1 hm
    simp only [Memory.write]
    split
    · rename_i hc
      refine Memory.wf_cons.2 ⟨fun d hd => ?_, hc0, ih hrest⟩
      rcases Memory.mem_write hd with h | ⟨h, _⟩
      · exact hlt d h
      · rw [h]; exact hc
    · split
      · rename_i _ hc
        split
        · exact hrest
        · rename_i hv
          exact Memory.wf_cons.2 ⟨fun d hd => hc ▸ hlt d hd, hv, hrest⟩
      · rename_i hc hne
        split
        · exact hm
        · rename_i hv
          refine Memory.wf_cons.2 ⟨fun d hd => ?_, hv, hm⟩
          rcases List.mem_cons.1 hd with h | h
          · rw [h]; omega
          · have := hlt d h
            change a < d.1
            omega

/-- Erasing a range reads as unlisted inside it and as before outside it. -/
theorem Memory.read_zeroRange (m : Memory) (lo len a : Nat) :
    Memory.read (Memory.zeroRange m lo len) a =
      if lo ≤ a ∧ a < lo + len then Memory.unlisted else Memory.read m a := by
  induction m with
  | nil => simp [Memory.zeroRange, Memory.read]
  | cons c rest ih =>
    simp only [Memory.zeroRange] at ih
    by_cases hin : c.1 < lo ∨ lo + len ≤ c.1
    · simp only [Memory.zeroRange, List.filter_cons, Bool.or_eq_true, decide_eq_true_eq, hin, if_true,
        Memory.read, ih]
      by_cases ha : c.1 = a
      · have : ¬(lo ≤ a ∧ a < lo + len) := by omega
        simp [ha, this]
      · simp [ha]
    · simp only [Memory.zeroRange, List.filter_cons, Bool.or_eq_true, decide_eq_true_eq, hin, if_false,
        Memory.read, ih]
      by_cases ha : c.1 = a
      · have : lo ≤ a ∧ a < lo + len := by omega
        simp [this]
      · simp [ha]

/-- Erasing a range keeps the canonical form. -/
theorem Memory.wf_zeroRange {m : Memory} (lo len : Nat) (hm : Memory.wf m) :
    Memory.wf (Memory.zeroRange m lo len) :=
  ⟨hm.1.filter _, fun c hc => hm.2 c (List.mem_of_mem_filter hc)⟩

/-- A listed cell of a canonical memory is what its address reads as. -/
theorem Memory.read_of_mem {m : Memory} (hm : Memory.wf m) {c : Host.Cell} (hc : c ∈ m) :
    Memory.read m c.1 = c.2 := by
  induction m with
  | nil => simp at hc
  | cons d rest ih =>
    obtain ⟨hlt, _, hrest⟩ := Memory.wf_cons.1 hm
    rcases List.mem_cons.1 hc with h | h
    · simp [Memory.read, h]
    · have hne : d.1 ≠ c.1 := by have := hlt c h; omega
      simp [Memory.read, hne, ih hrest h]

/-- Two canonical memories that read alike everywhere are the same list. -/
theorem Memory.ext_of_read {m m' : Memory} (hm : Memory.wf m) (hm' : Memory.wf m')
    (h : ∀ a, Memory.read m a = Memory.read m' a) : m = m' := by
  have listed : ∀ {n : Memory} {a : Nat}, Memory.read n a ≠ Memory.unlisted → (a, Memory.read n a) ∈ n := by
    intro n a hne
    induction n with
    | nil => exact absurd rfl hne
    | cons c rest ih =>
      by_cases hc : c.1 = a
      · subst hc; simp [Memory.read]
      · simp only [Memory.read, hc, if_false] at hne ⊢
        exact List.mem_cons_of_mem _ (ih hne)
  have sub : ∀ {n n' : Memory}, Memory.wf n → (∀ a, Memory.read n a = Memory.read n' a) → ∀ c ∈ n, c ∈ n' := by
    intro n n' hn hr c hc
    have hread := Memory.read_of_mem hn hc
    have hne : Memory.read n' c.1 ≠ Memory.unlisted := by
      rw [← hr, hread]; exact hn.2 c hc
    have := listed hne
    rwa [← hr, hread] at this
  have nodup : ∀ {n : Memory}, Memory.wf n → n.Nodup := fun hn =>
    hn.1.imp fun {c c'} hlt heq => by rw [heq] at hlt; exact Nat.lt_irrefl _ hlt
  refine List.Perm.eq_of_pairwise (le := fun c c' => c.1 < c'.1) ?_ hm.1 hm'.1
    ((List.perm_ext_iff_of_nodup (nodup hm) (nodup hm')).2 fun c =>
      ⟨sub hm h c, sub hm' (fun a => (h a).symm) c⟩)
  intro c c' _ _ h1 h2
  exact absurd h1 (by omega)

end Sys2Proof.Machine
end

