-- ==== Sys2Proof/Laws/State.lean ====
section
/-! SUPPORT. Each field of the state after each named update: the projections the later proofs rewrite with, so that no
proof unfolds a record update. -/

namespace Sys2Proof.Machine

variable (s : State)

@[simp] theorem State.accept_mem : s.accept.mem = s.mem := rfl
@[simp] theorem State.accept_phase : s.accept.phase = s.phase := rfl
@[simp] theorem State.accept_err : s.accept.err = .ok := rfl
@[simp] theorem State.accept_accErr : s.accept.accErr = s.accErr := rfl
@[simp] theorem State.accept_yieldEn : s.accept.yieldEn = s.yieldEn := rfl
@[simp] theorem State.accept_chal : s.accept.chal = s.chal := rfl
@[simp] theorem State.accept_hlen : s.accept.hlen = s.hlen := rfl
@[simp] theorem State.accept_blk : s.accept.blk = s.blk := rfl
@[simp] theorem State.accept_bres : s.accept.bres = s.bres := rfl
@[simp] theorem State.accept_encStride : s.accept.encStride = s.encStride := rfl
@[simp] theorem State.accept_pending : s.accept.pending = s.pending := rfl
@[simp] theorem State.accept_rdata : s.accept.rdata = s.rdata := rfl

@[simp] theorem State.setHelper_mem (i : Nat) (v : Byte) : (s.setHelper i v).mem = Memory.write s.mem (helperAddr i) v := rfl
@[simp] theorem State.setHelper_phase (i : Nat) (v : Byte) : (s.setHelper i v).phase = s.phase := rfl
@[simp] theorem State.setHelper_err (i : Nat) (v : Byte) : (s.setHelper i v).err = s.err := rfl
@[simp] theorem State.setHelper_accErr (i : Nat) (v : Byte) : (s.setHelper i v).accErr = s.accErr := rfl
@[simp] theorem State.setHelper_yieldEn (i : Nat) (v : Byte) : (s.setHelper i v).yieldEn = s.yieldEn := rfl
@[simp] theorem State.setHelper_chal (i : Nat) (v : Byte) : (s.setHelper i v).chal = s.chal := rfl
@[simp] theorem State.setHelper_hlen (i : Nat) (v : Byte) : (s.setHelper i v).hlen = s.hlen := rfl
@[simp] theorem State.setHelper_blk (i : Nat) (v : Byte) : (s.setHelper i v).blk = s.blk := rfl
@[simp] theorem State.setHelper_bres (i : Nat) (v : Byte) : (s.setHelper i v).bres = s.bres := rfl
@[simp] theorem State.setHelper_encStride (i : Nat) (v : Byte) : (s.setHelper i v).encStride = s.encStride := rfl
@[simp] theorem State.setHelper_pending (i : Nat) (v : Byte) : (s.setHelper i v).pending = s.pending := rfl
@[simp] theorem State.setHelper_rdata (i : Nat) (v : Byte) : (s.setHelper i v).rdata = s.rdata := rfl

@[simp] theorem State.setKey_mem (i : Nat) (v : Byte) : (s.setKey i v).mem = Memory.write s.mem (keyAddr i) v := rfl
@[simp] theorem State.setKey_phase (i : Nat) (v : Byte) : (s.setKey i v).phase = s.phase := rfl
@[simp] theorem State.setKey_err (i : Nat) (v : Byte) : (s.setKey i v).err = s.err := rfl
@[simp] theorem State.setKey_accErr (i : Nat) (v : Byte) : (s.setKey i v).accErr = s.accErr := rfl
@[simp] theorem State.setKey_yieldEn (i : Nat) (v : Byte) : (s.setKey i v).yieldEn = s.yieldEn := rfl
@[simp] theorem State.setKey_chal (i : Nat) (v : Byte) : (s.setKey i v).chal = s.chal := rfl
@[simp] theorem State.setKey_hlen (i : Nat) (v : Byte) : (s.setKey i v).hlen = s.hlen := rfl
@[simp] theorem State.setKey_blk (i : Nat) (v : Byte) : (s.setKey i v).blk = s.blk := rfl
@[simp] theorem State.setKey_bres (i : Nat) (v : Byte) : (s.setKey i v).bres = s.bres := rfl
@[simp] theorem State.setKey_encStride (i : Nat) (v : Byte) : (s.setKey i v).encStride = s.encStride := rfl
@[simp] theorem State.setKey_pending (i : Nat) (v : Byte) : (s.setKey i v).pending = s.pending := rfl
@[simp] theorem State.setKey_rdata (i : Nat) (v : Byte) : (s.setKey i v).rdata = s.rdata := rfl

@[simp] theorem State.setPuf_mem (i : Nat) (v : Byte) : (s.setPuf i v).mem = Memory.write s.mem (pufAddr i) v := rfl
@[simp] theorem State.setPuf_phase (i : Nat) (v : Byte) : (s.setPuf i v).phase = s.phase := rfl
@[simp] theorem State.setPuf_err (i : Nat) (v : Byte) : (s.setPuf i v).err = s.err := rfl
@[simp] theorem State.setPuf_accErr (i : Nat) (v : Byte) : (s.setPuf i v).accErr = s.accErr := rfl
@[simp] theorem State.setPuf_yieldEn (i : Nat) (v : Byte) : (s.setPuf i v).yieldEn = s.yieldEn := rfl
@[simp] theorem State.setPuf_chal (i : Nat) (v : Byte) : (s.setPuf i v).chal = s.chal := rfl
@[simp] theorem State.setPuf_hlen (i : Nat) (v : Byte) : (s.setPuf i v).hlen = s.hlen := rfl
@[simp] theorem State.setPuf_blk (i : Nat) (v : Byte) : (s.setPuf i v).blk = s.blk := rfl
@[simp] theorem State.setPuf_bres (i : Nat) (v : Byte) : (s.setPuf i v).bres = s.bres := rfl
@[simp] theorem State.setPuf_encStride (i : Nat) (v : Byte) : (s.setPuf i v).encStride = s.encStride := rfl
@[simp] theorem State.setPuf_pending (i : Nat) (v : Byte) : (s.setPuf i v).pending = s.pending := rfl
@[simp] theorem State.setPuf_rdata (i : Nat) (v : Byte) : (s.setPuf i v).rdata = s.rdata := rfl

@[simp] theorem State.setBres_mem (b : BlockIdx) (r : BlockResult) : (s.setBres b r).mem = s.mem := rfl
@[simp] theorem State.setBres_phase (b : BlockIdx) (r : BlockResult) : (s.setBres b r).phase = s.phase := rfl
@[simp] theorem State.setBres_err (b : BlockIdx) (r : BlockResult) : (s.setBres b r).err = s.err := rfl
@[simp] theorem State.setBres_accErr (b : BlockIdx) (r : BlockResult) : (s.setBres b r).accErr = s.accErr := rfl
@[simp] theorem State.setBres_yieldEn (b : BlockIdx) (r : BlockResult) : (s.setBres b r).yieldEn = s.yieldEn := rfl
@[simp] theorem State.setBres_chal (b : BlockIdx) (r : BlockResult) : (s.setBres b r).chal = s.chal := rfl
@[simp] theorem State.setBres_hlen (b : BlockIdx) (r : BlockResult) : (s.setBres b r).hlen = s.hlen := rfl
@[simp] theorem State.setBres_blk (b : BlockIdx) (r : BlockResult) : (s.setBres b r).blk = s.blk := rfl
@[simp] theorem State.setBres_bres (b : BlockIdx) (r : BlockResult) : (s.setBres b r).bres = s.bres.set b.val r := rfl
@[simp] theorem State.setBres_encStride (b : BlockIdx) (r : BlockResult) : (s.setBres b r).encStride = s.encStride := rfl
@[simp] theorem State.setBres_pending (b : BlockIdx) (r : BlockResult) : (s.setBres b r).pending = s.pending := rfl
@[simp] theorem State.setBres_rdata (b : BlockIdx) (r : BlockResult) : (s.setBres b r).rdata = s.rdata := rfl

@[simp] theorem State.clearHelper_mem : s.clearHelper.mem = Memory.zeroRange s.mem (helperAddr 0) 16 := rfl
@[simp] theorem State.clearHelper_phase : s.clearHelper.phase = s.phase := rfl
@[simp] theorem State.clearHelper_err : s.clearHelper.err = s.err := rfl
@[simp] theorem State.clearHelper_accErr : s.clearHelper.accErr = s.accErr := rfl
@[simp] theorem State.clearHelper_yieldEn : s.clearHelper.yieldEn = s.yieldEn := rfl
@[simp] theorem State.clearHelper_chal : s.clearHelper.chal = s.chal := rfl
@[simp] theorem State.clearHelper_hlen : s.clearHelper.hlen = s.hlen := rfl
@[simp] theorem State.clearHelper_blk : s.clearHelper.blk = s.blk := rfl
@[simp] theorem State.clearHelper_bres : s.clearHelper.bres = s.bres := rfl
@[simp] theorem State.clearHelper_encStride : s.clearHelper.encStride = s.encStride := rfl
@[simp] theorem State.clearHelper_pending : s.clearHelper.pending = s.pending := rfl
@[simp] theorem State.clearHelper_rdata : s.clearHelper.rdata = s.rdata := rfl

@[simp] theorem State.clearKey_mem : s.clearKey.mem = Memory.zeroRange s.mem (keyAddr 0) 16 := rfl
@[simp] theorem State.clearKey_phase : s.clearKey.phase = s.phase := rfl
@[simp] theorem State.clearKey_err : s.clearKey.err = s.err := rfl
@[simp] theorem State.clearKey_accErr : s.clearKey.accErr = s.accErr := rfl
@[simp] theorem State.clearKey_yieldEn : s.clearKey.yieldEn = s.yieldEn := rfl
@[simp] theorem State.clearKey_chal : s.clearKey.chal = s.chal := rfl
@[simp] theorem State.clearKey_hlen : s.clearKey.hlen = s.hlen := rfl
@[simp] theorem State.clearKey_blk : s.clearKey.blk = s.blk := rfl
@[simp] theorem State.clearKey_bres : s.clearKey.bres = s.bres := rfl
@[simp] theorem State.clearKey_encStride : s.clearKey.encStride = s.encStride := rfl
@[simp] theorem State.clearKey_pending : s.clearKey.pending = s.pending := rfl
@[simp] theorem State.clearKey_rdata : s.clearKey.rdata = s.rdata := rfl

@[simp] theorem State.clearPuf_mem : s.clearPuf.mem = Memory.zeroRange s.mem (pufAddr 0) 256 := rfl
@[simp] theorem State.clearPuf_phase : s.clearPuf.phase = s.phase := rfl
@[simp] theorem State.clearPuf_err : s.clearPuf.err = s.err := rfl
@[simp] theorem State.clearPuf_accErr : s.clearPuf.accErr = s.accErr := rfl
@[simp] theorem State.clearPuf_yieldEn : s.clearPuf.yieldEn = s.yieldEn := rfl
@[simp] theorem State.clearPuf_chal : s.clearPuf.chal = s.chal := rfl
@[simp] theorem State.clearPuf_hlen : s.clearPuf.hlen = s.hlen := rfl
@[simp] theorem State.clearPuf_blk : s.clearPuf.blk = s.blk := rfl
@[simp] theorem State.clearPuf_bres : s.clearPuf.bres = s.bres := rfl
@[simp] theorem State.clearPuf_encStride : s.clearPuf.encStride = s.encStride := rfl
@[simp] theorem State.clearPuf_pending : s.clearPuf.pending = s.pending := rfl
@[simp] theorem State.clearPuf_rdata : s.clearPuf.rdata = s.rdata := rfl

@[simp] theorem State.clearBres_mem : s.clearBres.mem = s.mem := rfl
@[simp] theorem State.clearBres_phase : s.clearBres.phase = s.phase := rfl
@[simp] theorem State.clearBres_err : s.clearBres.err = s.err := rfl
@[simp] theorem State.clearBres_accErr : s.clearBres.accErr = s.accErr := rfl
@[simp] theorem State.clearBres_yieldEn : s.clearBres.yieldEn = s.yieldEn := rfl
@[simp] theorem State.clearBres_chal : s.clearBres.chal = s.chal := rfl
@[simp] theorem State.clearBres_hlen : s.clearBres.hlen = s.hlen := rfl
@[simp] theorem State.clearBres_blk : s.clearBres.blk = s.blk := rfl
@[simp] theorem State.clearBres_bres : s.clearBres.bres = Vector.replicate 8 BlockResult.empty := rfl
@[simp] theorem State.clearBres_encStride : s.clearBres.encStride = s.encStride := rfl
@[simp] theorem State.clearBres_pending : s.clearBres.pending = s.pending := rfl
@[simp] theorem State.clearBres_rdata : s.clearBres.rdata = s.rdata := rfl

@[simp] theorem ignoreWrite_mem : (ignoreWrite s).mem = s.mem := rfl
@[simp] theorem ignoreWrite_phase : (ignoreWrite s).phase = s.phase := rfl
@[simp] theorem ignoreWrite_err : (ignoreWrite s).err = s.err := rfl
@[simp] theorem ignoreWrite_accErr : (ignoreWrite s).accErr = true := rfl
@[simp] theorem ignoreWrite_yieldEn : (ignoreWrite s).yieldEn = s.yieldEn := rfl
@[simp] theorem ignoreWrite_chal : (ignoreWrite s).chal = s.chal := rfl
@[simp] theorem ignoreWrite_hlen : (ignoreWrite s).hlen = s.hlen := rfl
@[simp] theorem ignoreWrite_blk : (ignoreWrite s).blk = s.blk := rfl
@[simp] theorem ignoreWrite_bres : (ignoreWrite s).bres = s.bres := rfl
@[simp] theorem ignoreWrite_encStride : (ignoreWrite s).encStride = s.encStride := rfl
@[simp] theorem ignoreWrite_pending : (ignoreWrite s).pending = s.pending := rfl
@[simp] theorem ignoreWrite_rdata : (ignoreWrite s).rdata = s.rdata := rfl

@[simp] theorem takeAction_mem (rest : List HostAction) : (takeAction s rest).mem = s.mem := rfl
@[simp] theorem takeAction_phase (rest : List HostAction) : (takeAction s rest).phase = s.phase := rfl
@[simp] theorem takeAction_err (rest : List HostAction) : (takeAction s rest).err = s.err := rfl
@[simp] theorem takeAction_accErr (rest : List HostAction) : (takeAction s rest).accErr = s.accErr := rfl
@[simp] theorem takeAction_yieldEn (rest : List HostAction) : (takeAction s rest).yieldEn = s.yieldEn := rfl
@[simp] theorem takeAction_chal (rest : List HostAction) : (takeAction s rest).chal = s.chal := rfl
@[simp] theorem takeAction_hlen (rest : List HostAction) : (takeAction s rest).hlen = s.hlen := rfl
@[simp] theorem takeAction_blk (rest : List HostAction) : (takeAction s rest).blk = s.blk := rfl
@[simp] theorem takeAction_bres (rest : List HostAction) : (takeAction s rest).bres = s.bres := rfl
@[simp] theorem takeAction_encStride (rest : List HostAction) : (takeAction s rest).encStride = s.encStride := rfl
@[simp] theorem takeAction_pending (rest : List HostAction) : (takeAction s rest).pending = rest := rfl
@[simp] theorem takeAction_rdata (rest : List HostAction) : (takeAction s rest).rdata = none := rfl

@[simp] theorem State.withFetchWord_pending (nbits w : Nat) :
    (s.withFetchWord nbits w).pending = .write 0x000#10 (BitVec.ofNat 8 (w % 2 ^ nbits)) :: s.pending := rfl

/-- The queue is all that `withFetchWord` changes. -/
theorem State.withFetchWord_rest (nbits w : Nat) :
    { s.withFetchWord nbits w with pending := s.pending } = s := rfl

/-- What `raise` does (60_exceptions.md R274): the error code and nothing else. -/
theorem raise_spec (e : ErrCode) : raise e s = .next { s with err := e } := rfl

/-- A host-writable location is written while idle and the write is ignored otherwise (20_memory.md R63, R64). -/
theorem whenIdle_spec (t : State) :
    (s.phase = .idle ∧ whenIdle s t = t) ∨ (s.phase ≠ .idle ∧ whenIdle s t = ignoreWrite s) := by
  by_cases h : s.phase = .idle <;> simp [whenIdle, h]

/-- With nothing pending the block does nothing. -/
theorem step_idle (h : s.pending = []) : step s = .next s := by
  simp [step, h]

/-- With an action pending the block carries it to its end. -/
theorem step_action (a : HostAction) (rest : List HostAction) (h : s.pending = a :: rest) :
    step s = transact (takeAction s rest) a := by
  simp [step, h]

end Sys2Proof.Machine
end

