-- ==== Sys2Proof/Laws/Ops.lean ====
section
/-! SUPPORT. One lemma per shared operation that says everything it can do: what the stored bytes read as after it, that
it keeps the canonical form, and which registers it leaves alone. -/

namespace Sys2Proof.Machine

variable {s : State}

/-- Storing a helper pair: the two bytes, and every other address as before (30_encoding.md R95). -/
theorem read_writeHelper (b : BlockIdx) (h : HelperPair) (hm : Memory.wf s.mem) (a : Nat) :
    Memory.read (writeHelper s b h).mem a =
      if a = helperAddr (2 * b.val + 1) then h.h1
      else if a = helperAddr (2 * b.val) then h.h0 else Memory.read s.mem a := by
  rw [writeHelper, State.setHelper_mem, State.setHelper_mem,
    Memory.read_write _ _ _ (Memory.wf_write _ _ hm), Memory.read_write _ _ _ hm]

/-- Storing a key pair: the two bytes, and every other address as before (R95). -/
theorem read_writeKey (b : BlockIdx) (k0 k1 : Byte) (hm : Memory.wf s.mem) (a : Nat) :
    Memory.read (writeKey s b k0 k1).mem a =
      if a = keyAddr (2 * b.val + 1) then k1
      else if a = keyAddr (2 * b.val) then k0 else Memory.read s.mem a := by
  rw [writeKey, State.setKey_mem, State.setKey_mem,
    Memory.read_write _ _ _ (Memory.wf_write _ _ hm), Memory.read_write _ _ _ hm]

theorem wf_writeHelper (b : BlockIdx) (h : HelperPair) (hm : Memory.wf s.mem) : Memory.wf (writeHelper s b h).mem :=
  Memory.wf_write _ _ (Memory.wf_write _ _ hm)

theorem wf_writeKey (b : BlockIdx) (k0 k1 : Byte) (hm : Memory.wf s.mem) : Memory.wf (writeKey s b k0 k1).mem :=
  Memory.wf_write _ _ (Memory.wf_write _ _ hm)

/-- `BRES[b]` after it is set, and the other seven as before (10_state.md R30). -/
theorem bres_setBres (b b' : BlockIdx) (r : BlockResult) :
    (s.setBres b r).bres.get b' = if b' = b then r else s.bres.get b' := by
  rw [State.setBres_bres, Vector.get_eq_getElem, Vector.get_eq_getElem, Vector.getElem_set]
  simp only [Fin.ext_iff, eq_comm]

/-- Every `BRES` after the clearing. -/
@[simp] theorem bres_clearBres (b : BlockIdx) : s.clearBres.bres.get b = BlockResult.empty := by
  simp [Vector.get_eq_getElem]

/-- What every stored byte reads as after `EncBlock` (42_block_encoder.md R166). -/
theorem read_encBlock (b : BlockIdx) (stride : Nat) (hm : Memory.wf s.mem) (a : Nat) :
    Memory.read (encBlock b stride s).mem a =
      if a = keyAddr (2 * b.val + 1) then (readResponse s stride b).r1
      else if a = keyAddr (2 * b.val) then (readResponse s stride b).r0
      else if a = helperAddr (2 * b.val + 1) then (helperOf (readResponse s stride b)).h1
      else if a = helperAddr (2 * b.val) then (helperOf (readResponse s stride b)).h0
      else Memory.read s.mem a := by
  rw [encBlock, State.setBres_mem, read_writeKey _ _ _ (wf_writeHelper _ _ hm), read_writeHelper _ _ hm]

/-- What every stored byte reads as after `DecBlock` (46_block_decoder.md R230). -/
theorem read_decBlock (b : BlockIdx) (stride : Nat) (hm : Memory.wf s.mem) (a : Nat) :
    Memory.read (decBlock b stride s).mem a =
      if a = keyAddr (2 * b.val + 1) then
        keySegment1 (correctWord (receivedWord (readResponse s stride b) (readHelper s b))).word
      else if a = keyAddr (2 * b.val) then
        keySegment0 (correctWord (receivedWord (readResponse s stride b) (readHelper s b))).word
      else Memory.read s.mem a := by
  rw [decBlock, State.setBres_mem, read_writeKey _ _ _ hm]

/-- `BRES` after `EncBlock`: no decode result is held for the sub-block (R166). -/
theorem bres_encBlock (b b' : BlockIdx) (stride : Nat) :
    (encBlock b stride s).bres.get b' = if b' = b then BlockResult.empty else s.bres.get b' := by
  rw [encBlock, bres_setBres]
  rfl

/-- `BRES` after `DecBlock` (R229, R230). -/
theorem bres_decBlock (b b' : BlockIdx) (stride : Nat) :
    (decBlock b stride s).bres.get b' =
      if b' = b then (correctWord (receivedWord (readResponse s stride b) (readHelper s b))).result
      else s.bres.get b' := by
  rw [decBlock, bres_setBres]
  rfl

theorem wf_encBlock (b : BlockIdx) (stride : Nat) (hm : Memory.wf s.mem) : Memory.wf (encBlock b stride s).mem :=
  wf_writeKey _ _ _ (wf_writeHelper _ _ hm)

theorem wf_decBlock (b : BlockIdx) (stride : Nat) (hm : Memory.wf s.mem) : Memory.wf (decBlock b stride s).mem :=
  wf_writeKey _ _ _ hm

/-- `EncBlock` writes stored bytes and `BRES` only (R166). -/
theorem encBlock_rest (b : BlockIdx) (stride : Nat) :
    encBlock b stride s = { s with mem := (encBlock b stride s).mem, bres := (encBlock b stride s).bres } := rfl

/-- `DecBlock` writes stored bytes and `BRES` only (R230). -/
theorem decBlock_rest (b : BlockIdx) (stride : Nat) :
    decBlock b stride s = { s with mem := (decBlock b stride s).mem, bres := (decBlock b stride s).bres } := rfl

/-- The sub-block operation of a run keeps the canonical form. -/
theorem wf_runOp (kind : RunKind) (b : BlockIdx) (hm : Memory.wf s.mem) : Memory.wf (runOp kind b s).mem := by
  cases kind
  · exact wf_encBlock _ _ hm
  · exact wf_decBlock _ _ hm

/-- The sub-block operation of a run writes stored bytes and `BRES` only. -/
theorem runOp_rest (kind : RunKind) (b : BlockIdx) :
    runOp kind b s = { s with mem := (runOp kind b s).mem, bres := (runOp kind b s).bres } := by
  cases kind <;> rfl

/-- One turn of the sequencer loop (47_key_assembler.md R243): the last sub-block ends the run, a yield pauses it, and
otherwise the loop goes on with the next sub-block. -/
theorem runLoop_succ (kind : RunKind) (fuel : Nat) :
    (s.blk = 7 ∧ runLoop kind (fuel + 1) s = { runOp kind s.blk s with phase := .idle, blk := 0 }) ∨
    (s.blk ≠ 7 ∧ s.yieldEn = true ∧
      runLoop kind (fuel + 1) s = { runOp kind s.blk s with blk := s.blk + 1, phase := pausedPhase kind }) ∨
    (s.blk ≠ 7 ∧ s.yieldEn = false ∧
      runLoop kind (fuel + 1) s = runLoop kind fuel { runOp kind s.blk s with blk := s.blk + 1 }) := by
  have hy : (runOp kind s.blk s).yieldEn = s.yieldEn := by rw [runOp_rest]
  by_cases h7 : s.blk = 7
  · exact .inl ⟨h7, by simp [runLoop, h7]⟩
  · cases hyield : s.yieldEn
    · exact .inr (.inr ⟨h7, rfl, by simp [runLoop, h7, hy, hyield]⟩)
    · exact .inr (.inl ⟨h7, rfl, by simp [runLoop, h7, hy, hyield]⟩)

/-- A run changes stored bytes, `BRES`, `PHASE` and `BLK` only (R243). -/
theorem runLoop_rest (kind : RunKind) (fuel : Nat) :
    ∀ s : State, ∃ m r p k, runLoop kind fuel s = { s with mem := m, bres := r, phase := p, blk := k } := by
  induction fuel with
  | zero => exact fun s => ⟨s.mem, s.bres, s.phase, s.blk, rfl⟩
  | succ fuel ih =>
    intro s
    rcases runLoop_succ (s := s) kind fuel with ⟨_, h⟩ | ⟨_, _, h⟩ | ⟨_, _, h⟩
    · exact ⟨_, _, _, _, by rw [h, runOp_rest]⟩
    · exact ⟨_, _, _, _, by rw [h, runOp_rest]⟩
    · obtain ⟨m, r, p, k, hk⟩ := ih { runOp kind s.blk s with blk := s.blk + 1 }
      exact ⟨m, r, p, k, by rw [h, hk, runOp_rest]⟩

/-- A run keeps the canonical form. -/
theorem wf_runLoop (kind : RunKind) (fuel : Nat) :
    ∀ s : State, Memory.wf s.mem → Memory.wf (runLoop kind fuel s).mem := by
  induction fuel with
  | zero => exact fun s hm => hm
  | succ fuel ih =>
    intro s hm
    have hop := wf_runOp (s := s) kind s.blk hm
    rcases runLoop_succ (s := s) kind fuel with ⟨_, h⟩ | ⟨_, _, h⟩ | ⟨_, _, h⟩
    · rw [h]; exact hop
    · rw [h]; exact hop
    · rw [h]; exact ih _ hop

end Sys2Proof.Machine
end

