-- ==== Sys2Proof/Laws/PerInstr.lean ====
section
/-! SUPPORT. The per-instruction family `TableRow`: every command is well formed and its encoding matches the mask and
pattern of its row of spec/opcode_table.json (30_encoding.md R91, R92). -/

namespace Sys2Proof.Laws.TableRow

/-- The "match" of the command's row. -/
def rowMatch : Instr → Byte
  | .encode _ => 0x10#8
  | .decode _ => 0x20#8
  | .enroll => 0x30#8
  | .recon => 0x40#8
  | .cont => 0x50#8
  | .zeroize => 0x60#8

/-- The "mask" of the command's row. -/
def rowMask : Instr → Byte
  | .encode _ => 0xF8#8
  | .decode _ => 0xF8#8
  | .enroll => 0xFF#8
  | .recon => 0xFF#8
  | .cont => 0xFF#8
  | .zeroize => 0xFF#8

/-- The command is well formed and its byte, masked by its row, is the row's pattern. -/
def Statement (i : Instr) : Prop := i.wf = true ∧ Sys2Proof.encode i &&& rowMask i = rowMatch i

theorem encode (b : BlockIdx) : Statement (.encode b) := by revert b; unfold Statement; decide

theorem decode (b : BlockIdx) : Statement (.decode b) := by revert b; unfold Statement; decide

theorem enroll : Statement .enroll := by unfold Statement; decide

theorem recon : Statement .recon := by unfold Statement; decide

theorem cont : Statement .cont := by unfold Statement; decide

theorem zeroize : Statement .zeroize := by unfold Statement; decide

end Sys2Proof.Laws.TableRow
end

