-- ==== Sys2Proof/Laws/Runs.lean ====
section
/-! SUPPORT. What a run of the key assembler does (47_key_assembler.md R243), said once: which bytes and results the
sub-block operations write, that a written sub-block stays written, and where the loop ends. -/

namespace Sys2Proof.Machine

/-- Two states whose reading bytes agree have the same sub-blocks. -/
theorem readResponse_congr {s t : State} (stride : Nat) (b : BlockIdx)
    (h : ∀ a, 0x100 ≤ a → Memory.read t.mem a = Memory.read s.mem a) :
    readResponse t stride b = readResponse s stride b := by
  simp only [readResponse, State.puf]
  rw [h _ (by simp [pufAddr]), h _ (by simp [pufAddr]), h _ (by simp [pufAddr]), h _ (by simp [pufAddr])]

/-- Two states whose helper bytes of sub-block `b` agree have the same helper pair. -/
theorem readHelper_congr {s t : State} (b : BlockIdx)
    (h : ∀ a, isHelperPair b a → Memory.read t.mem a = Memory.read s.mem a) : readHelper t b = readHelper s b := by
  simp only [readHelper, State.helper]
  rw [h _ (.inl rfl), h _ (.inr rfl)]

/-- Sub-block `b` is done in two states alike when what it stands on is alike. -/
theorem doneBlock_congr {s t : State} (kind : RunKind) (b : BlockIdx) (hs : t.encStride = s.encStride)
    (hp : ∀ a, 0x100 ≤ a → Memory.read t.mem a = Memory.read s.mem a)
    (hh : ∀ a, isHelperPair b a → Memory.read t.mem a = Memory.read s.mem a)
    (hk : ∀ a, isKeyPair b a → Memory.read t.mem a = Memory.read s.mem a)
    (hb : t.bres.get b = s.bres.get b) : t.DoneBlock kind b ↔ s.DoneBlock kind b := by
  have k0 : t.key (2 * b.val) = s.key (2 * b.val) := hk _ (.inl rfl)
  have k1 : t.key (2 * b.val + 1) = s.key (2 * b.val + 1) := hk _ (.inr rfl)
  cases kind
  · simp only [State.DoneBlock, State.EncodedBlock, hs, readResponse_congr _ b hp, readHelper_congr b hh, k0, k1, hb]
  · simp only [State.DoneBlock, State.DecodedBlock, readResponse_congr _ b hp, readHelper_congr b hh, k0, k1, hb]

/-- The sub-block operation writes the run's pairs of its sub-block only. -/
theorem read_runOp_ne (kind : RunKind) (b : BlockIdx) {s : State} (hm : Memory.wf s.mem) {a : Nat}
    (h : ¬isRunPair kind b a) : Memory.read (runOp kind b s).mem a = Memory.read s.mem a := by
  simp only [isRunPair, isKeyPair, isHelperPair, not_or, not_and] at h
  cases kind
  · rw [runOp, read_encBlock _ _ hm]
    simp [h]
  · rw [runOp, read_decBlock _ _ hm]
    simp [h]

/-- The sub-block operation writes the result of its sub-block only. -/
theorem bres_runOp_ne (kind : RunKind) {b b' : BlockIdx} {s : State} (h : b' ≠ b) :
    (runOp kind b s).bres.get b' = s.bres.get b' := by
  cases kind
  · rw [runOp, bres_encBlock, if_neg h]
  · rw [runOp, bres_decBlock, if_neg h]

/-- A run pair is no reading byte. -/
theorem not_isRunPair_puf (kind : RunKind) (b : BlockIdx) {a : Nat} (h : 0x100 ≤ a) : ¬isRunPair kind b a := by
  have := b.isLt
  simp only [isRunPair, isKeyPair, isHelperPair, keyAddr, helperAddr, not_or, not_and]
  omega

/-- The pairs of different sub-blocks are disjoint. -/
theorem not_isRunPair_of_ne (kind : RunKind) {b b' : BlockIdx} (h : b' ≠ b) {a : Nat}
    (ha : isKeyPair b' a ∨ isHelperPair b' a) : ¬isRunPair kind b a := by
  have := b.isLt
  have := b'.isLt
  have : b'.val ≠ b.val := fun e => h (Fin.ext e)
  simp only [isRunPair, isKeyPair, isHelperPair, keyAddr, helperAddr, not_or, not_and] at ha ⊢
  omega

/-- After its operation the sub-block is done. -/
theorem doneBlock_runOp (kind : RunKind) (b : BlockIdx) {s : State} (hm : Memory.wf s.mem) :
    (runOp kind b s).DoneBlock kind b := by
  have hp : ∀ a, 0x100 ≤ a → Memory.read (runOp kind b s).mem a = Memory.read s.mem a :=
    fun a ha => read_runOp_ne kind b hm (not_isRunPair_puf kind b ha)
  cases kind
  · have hr := readResponse_congr (strideBytes s.encStride) b hp
    simp only [runOp] at hr
    have hs : (encBlock b (strideBytes s.encStride) s).encStride = s.encStride := rfl
    simp only [State.DoneBlock, State.EncodedBlock, runOp, hs, hr]
    refine ⟨?_, ?_, ?_, ?_⟩
    · simp only [readHelper, State.helper]
      rw [read_encBlock _ _ hm, read_encBlock _ _ hm]
      have := b.isLt
      simp [keyAddr, helperAddr]
      split_ifs <;> first | omega | rfl
    · rw [State.key, read_encBlock _ _ hm]
      simp [keyAddr]
    · rw [State.key, read_encBlock _ _ hm]
      simp [keyAddr]
    · rw [bres_encBlock, if_pos rfl]
  · have hr := readResponse_congr Config.decStride b hp
    have hh : readHelper (runOp .recon b s) b = readHelper s b :=
      readHelper_congr b fun a ha => read_runOp_ne .recon b hm (by
        have := b.isLt
        simp only [isRunPair, isKeyPair, isHelperPair, keyAddr, helperAddr] at ha ⊢
        simp
        omega)
    simp only [State.DoneBlock, State.DecodedBlock, hr, hh]
    refine ⟨?_, ?_, ?_⟩
    · rw [State.key, runOp, read_decBlock _ _ hm]
      simp [keyAddr]
    · rw [State.key, runOp, read_decBlock _ _ hm]
      simp [keyAddr]
    · rw [runOp, bres_decBlock, if_pos rfl]

/-- The operation of one sub-block leaves another sub-block done or not, as it was. -/
theorem doneBlock_runOp_ne (kind : RunKind) {b b' : BlockIdx} (h : b' ≠ b) {s : State} (hm : Memory.wf s.mem) :
    (runOp kind b s).DoneBlock kind b' ↔ s.DoneBlock kind b' :=
  doneBlock_congr kind b' (by rw [runOp_rest]) (fun _ ha => read_runOp_ne kind b hm (not_isRunPair_puf kind b ha))
    (fun _ ha => read_runOp_ne kind b hm (not_isRunPair_of_ne kind h (.inr ha)))
    (fun _ ha => read_runOp_ne kind b hm (not_isRunPair_of_ne kind h (.inl ha))) (bres_runOp_ne kind h)

/-- `DoneBlock` does not look at the sequencer. -/
theorem doneBlock_sequencer (kind : RunKind) (s : State) (p : Phase) (k b : BlockIdx) :
    State.DoneBlock kind { s with phase := p, blk := k } b ↔ s.DoneBlock kind b := by
  cases kind <;> exact Iff.rfl

/-- Nor does it look at `BLK` alone. -/
theorem doneBlock_blk (kind : RunKind) (s : State) (k b : BlockIdx) :
    State.DoneBlock kind { s with blk := k } b ↔ s.DoneBlock kind b := by
  cases kind <;> exact Iff.rfl

/-- Where a run without yields ends: idle, every sub-block from `BLK` on done, everything else as before. -/
theorem runLoop_complete (kind : RunKind) (fuel : Nat) :
    ∀ s : State, Memory.wf s.mem → s.yieldEn = false → 8 ≤ s.blk.val + fuel →
      (runLoop kind fuel s).phase = .idle ∧ (runLoop kind fuel s).blk = 0 ∧
      (∀ b : BlockIdx, s.blk ≤ b → (runLoop kind fuel s).DoneBlock kind b) ∧
      (∀ b : BlockIdx, b < s.blk → (runLoop kind fuel s).bres.get b = s.bres.get b) ∧
      ∀ a, (∀ b : BlockIdx, s.blk ≤ b → ¬isRunPair kind b a) →
        Memory.read (runLoop kind fuel s).mem a = Memory.read s.mem a := by
  induction fuel with
  | zero => intro s _ _ hf; have := s.blk.isLt; omega
  | succ fuel ih =>
    intro s hm hy hf
    have hb := s.blk.isLt
    rcases runLoop_succ (s := s) kind fuel with ⟨h7, h⟩ | ⟨_, hyt, _⟩ | ⟨h7, _, h⟩
    · rw [h]
      refine ⟨rfl, rfl, fun b hle => ?_, fun b hlt => bres_runOp_ne kind (ne_of_lt hlt), fun a ha =>
        read_runOp_ne kind _ hm (ha _ (le_refl _))⟩
      have : b = s.blk := by rw [h7] at hle ⊢; exact le_antisymm (Fin.le_last b) hle
      rw [doneBlock_sequencer, this]
      exact doneBlock_runOp kind _ hm
    · rw [hy] at hyt; cases hyt
    · have h7' : s.blk.val ≠ 7 := fun e => h7 (Fin.ext e)
      have hv : (s.blk + 1).val = s.blk.val + 1 := by
        rw [Fin.val_add]; simp; omega
      obtain ⟨hp, hk, hdone, hbres, hread⟩ := ih { runOp kind s.blk s with blk := s.blk + 1 } (wf_runOp kind _ hm)
        (by rw [runOp_rest]; exact hy) (by change 8 ≤ (s.blk + 1).val + fuel; omega)
      change (∀ b : BlockIdx, s.blk + 1 ≤ b → _) at hdone
      change (∀ b : BlockIdx, b < s.blk + 1 → _ = (runOp kind s.blk s).bres.get b) at hbres
      change (∀ a, (∀ b : BlockIdx, s.blk + 1 ≤ b → _) → _ = Memory.read (runOp kind s.blk s).mem a) at hread
      have next_le : ∀ {b : BlockIdx}, s.blk ≤ b → b ≠ s.blk → s.blk + 1 ≤ b := by
        intro b hle hne
        have : b.val ≠ s.blk.val := fun e => hne (Fin.ext e)
        rw [Fin.le_def] at hle ⊢
        omega
      have lt_next : ∀ {b : BlockIdx}, b ≤ s.blk → b < s.blk + 1 := by
        intro b hle
        rw [Fin.le_def] at hle
        rw [Fin.lt_def]
        omega
      rw [h]
      refine ⟨hp, hk, fun b hle => ?_, fun b hlt => ?_, fun a ha => ?_⟩
      · by_cases hbe : b = s.blk
        · subst hbe
          refine (doneBlock_congr kind _ ?_ ?_ ?_ ?_ ?_).2 (doneBlock_runOp kind s.blk hm)
          · obtain ⟨m, r, p, k, hk'⟩ := runLoop_rest kind fuel { runOp kind s.blk s with blk := s.blk + 1 }
            rw [hk']
          · exact fun a ha => hread a fun b _ => not_isRunPair_puf kind b ha
          · exact fun a ha => hread a fun b hb' => not_isRunPair_of_ne kind
              (fun e => by rw [← e, Fin.le_def] at hb'; omega) (.inr ha)
          · exact fun a ha => hread a fun b hb' => not_isRunPair_of_ne kind
              (fun e => by rw [← e, Fin.le_def] at hb'; omega) (.inl ha)
          · exact hbres _ (lt_next (le_refl _))
        · exact hdone b (next_le hle hbe)
      · rw [hbres b (lt_next (le_of_lt hlt)), bres_runOp_ne kind (ne_of_lt hlt)]
      · rw [hread a fun b hle => ha b (by rw [Fin.le_def] at hle ⊢; omega), read_runOp_ne kind _ hm (ha _ (le_refl _))]

/-- One sub-block of a run with yields: sub-block `BLK` is done, the run is paused at the next or complete after the
last, and everything else is as before. -/
theorem runLoop_yield (kind : RunKind) (fuel : Nat) (s : State) (hm : Memory.wf s.mem) (hy : s.yieldEn = true) :
    (s.blk = 7 → (runLoop kind (fuel + 1) s).phase = .idle ∧ (runLoop kind (fuel + 1) s).blk = 0) ∧
    (s.blk ≠ 7 → (runLoop kind (fuel + 1) s).phase = pausedPhase kind ∧
      (runLoop kind (fuel + 1) s).blk = s.blk + 1) ∧
    (runLoop kind (fuel + 1) s).DoneBlock kind s.blk ∧
    (∀ b, b ≠ s.blk → (runLoop kind (fuel + 1) s).bres.get b = s.bres.get b) ∧
    ∀ a, ¬isRunPair kind s.blk a → Memory.read (runLoop kind (fuel + 1) s).mem a = Memory.read s.mem a := by
  rcases runLoop_succ (s := s) kind fuel with ⟨h7, h⟩ | ⟨h7, _, h⟩ | ⟨_, hyf, _⟩
  · rw [h]
    exact ⟨fun _ => ⟨rfl, rfl⟩, fun hn => absurd h7 hn,
      (doneBlock_sequencer kind _ _ _ _).2 (doneBlock_runOp kind _ hm), fun b hb => bres_runOp_ne kind hb,
      fun a ha => read_runOp_ne kind _ hm ha⟩
  · rw [h]
    exact ⟨fun hn => absurd hn h7, fun _ => ⟨rfl, rfl⟩,
      (doneBlock_sequencer kind _ _ _ _).2 (doneBlock_runOp kind _ hm), fun b hb => bres_runOp_ne kind hb,
      fun a ha => read_runOp_ne kind _ hm ha⟩
  · rw [hy] at hyf; cases hyf

end Sys2Proof.Machine
end

