-- ==== Sys2Proof/Laws/Port.lean ====
section
/-! SUPPORT. The address map region by region (20_memory.md R65), and what each action of the host does, said once. -/

namespace Sys2Proof.Machine

set_option maxRecDepth 10000

/-- Only address 0 is `CMD`. -/
theorem locOf_eq_cmd_iff : ∀ a : Addr, locOf a = .cmd ↔ a = 0x000#10 := by decide

theorem locOf_cmd : locOf 0x000#10 = .cmd := by decide

theorem locOf_bres : ∀ b : BlockIdx, locOf (BitVec.ofNat 10 (0x008 + b.val)) = .bres b := by decide

theorem locOf_helper : ∀ i : Fin 16, locOf (BitVec.ofNat 10 (0x010 + i.val)) = .helper i := by decide

theorem locOf_key : ∀ i : Fin 16, locOf (BitVec.ofNat 10 (0x020 + i.val)) = .key i := by decide

theorem locOf_alphaTo : ∀ i : Fin 32, locOf (BitVec.ofNat 10 (0x040 + i.val)) = .alphaTo i := by decide

theorem locOf_indexOf : ∀ i : Fin 32, locOf (BitVec.ofNat 10 (0x060 + i.val)) = .indexOf i := by decide

theorem locOf_gpoly : ∀ i : Fin 16, locOf (BitVec.ofNat 10 (0x080 + i.val)) = .gpoly i := by decide

theorem locOf_puf : ∀ i : Fin 256, locOf (BitVec.ofNat 10 (0x100 + i.val)) = .puf i := by decide

/-- The three reserved regions. -/
theorem locOf_reserved : ∀ a : Addr,
    (0x030 ≤ a.toNat ∧ a.toNat < 0x040) ∨ (0x090 ≤ a.toNat ∧ a.toNat < 0x100) ∨ 0x200 ≤ a.toNat →
    locOf a = .reserved := by decide

/-- Whether a location takes host writes while idle, by its name. -/
def Loc.hostWritable : Loc → Bool
  | .ctrl => true
  | .chal => true
  | .hlen => true
  | .helper _ => true
  | .puf _ => true
  | _ => false

/-- The writable addresses are those of the writable locations. -/
theorem isHostWritable_iff (a : Addr) : isHostWritable a ↔ (locOf a).hostWritable = true := by
  have h : ∀ a : Addr, ((0x002 ≤ a.toNat ∧ a.toNat ≤ 0x004) ∨ (0x010 ≤ a.toNat ∧ a.toNat < 0x020) ∨
      (0x100 ≤ a.toNat ∧ a.toNat < 0x200)) ↔ (locOf a).hostWritable = true := by decide
  exact h a

/-- The addresses are `CMD`, the writable ones, and the read-only or reserved ones. -/
theorem isReadOnlyOrReserved_iff (a : Addr) :
    isReadOnlyOrReserved a ↔ a ≠ 0x000#10 ∧ ¬(locOf a).hostWritable = true := by
  have h : ∀ a : Addr, (a.toNat = 0x001 ∨ (0x005 ≤ a.toNat ∧ a.toNat < 0x010) ∨
      (0x020 ≤ a.toNat ∧ a.toNat < 0x100) ∨ 0x200 ≤ a.toNat) ↔
      a ≠ 0x000#10 ∧ ¬(locOf a).hostWritable = true := by decide
  exact h a

/-- A write to a location that takes none is ignored (20_memory.md R64). -/
theorem writeWindow_of_not_writable {s : State} {a : Addr} (v : Byte) (h0 : a ≠ 0x000#10)
    (h : ¬(locOf a).hostWritable = true) : writeWindow s a v = ignoreWrite s := by
  have hc : locOf a ≠ .cmd := fun e => h0 ((locOf_eq_cmd_iff a).1 e)
  unfold writeWindow
  cases hl : locOf a <;> simp_all [Loc.hostWritable]

/-- A write while a run is paused is ignored, wherever it goes (R64). -/
theorem writeWindow_of_paused {s : State} {a : Addr} (v : Byte) (h0 : a ≠ 0x000#10) (h : s.phase ≠ .idle) :
    writeWindow s a v = ignoreWrite s := by
  have hc : locOf a ≠ .cmd := fun e => h0 ((locOf_eq_cmd_iff a).1 e)
  unfold writeWindow
  cases hl : locOf a <;> simp_all [whenIdle]

/-- A read returns the mapped byte through `rdata` (R62). -/
theorem step_read {s : State} {a : Addr} {rest : List HostAction} (h : s.pending = .read a :: rest) :
    step s = .next { s with pending := rest, rdata := some (readWindow s a) } := by
  rw [step_action _ _ _ h]
  rfl

/-- A reset (70_reset_and_hazards.md R300). -/
theorem step_reset {s : State} {rest : List HostAction} (h : s.pending = .reset :: rest) :
    step s = .next (resetBlock (takeAction s rest)) := by
  rw [step_action _ _ _ h, transact]

/-- A write to `CMD` issues the command (R63 (a)). -/
theorem step_command {s : State} {c : Byte} {rest : List HostAction} (h : s.pending = .write 0x000#10 c :: rest) :
    step s = issueCommand (takeAction s rest) c := by
  rw [step_action _ _ _ h, transact, if_pos locOf_cmd]

/-- A write elsewhere (R63 (b), (c)). -/
theorem step_write {s : State} {a : Addr} {v : Byte} {rest : List HostAction} (h : s.pending = .write a v :: rest)
    (h0 : a ≠ 0x000#10) : step s = .next (writeWindow (takeAction s rest) a v) := by
  rw [step_action _ _ _ h, transact, if_neg fun e => h0 ((locOf_eq_cmd_iff a).1 e)]

end Sys2Proof.Machine
end

