-- ==== Sys2Proof/Tests/Slice0.lean ====
section
/-! SUPPORT. Tests of the model against the vectors of spec/95_test_vectors.md (the section is named at each group),
the well-formedness smoke tests, and for every statement with hypotheses a witness that meets them. -/

open Sys2Proof Sys2Proof.Machine

namespace Sys2Proof.Tests

set_option maxRecDepth 20000

/-! ### Helpers -/

/-- The next state of an outcome, if there is one. -/
def nextOf (o : Host.Outcome State Fault Refusal) : Option State :=
  match o with
  | .next t => some t
  | .fault _ => none
  | .refused _ => none

theorem eq_next_of_nextOf {o : Host.Outcome State Fault Refusal} {t : State} (h : nextOf o = some t) : o = .next t := by
  cases o with
  | next u => simpa [nextOf] using h
  | fault f => simp [nextOf] at h
  | refused r => simp [nextOf] at h

/-- The property of the next state, false if there is none. -/
def after (o : Host.Outcome State Fault Refusal) (p : State → Bool) : Bool :=
  match nextOf o with
  | some t => p t
  | none => false

theorem exists_of_after {o : Host.Outcome State Fault Refusal} {p : State → Bool} (h : after o p = true) :
    ∃ t, o = .next t ∧ p t = true := by
  cases o with
  | next u => exact ⟨u, rfl, h⟩
  | fault f => simp [after, nextOf] at h
  | refused r => simp [after, nextOf] at h

/-- The reset state with one action of the host pending. -/
def withAction (a : HostAction) : State := { State.reset with pending := [a] }

/-- The reset state with the stored bytes `m`. -/
def withMem (m : Memory) : State := { State.reset with mem := m }

/-- An enrollment of the zero reading paused before sub-block `b`; all its outputs so far are zero (vector E1). -/
def pausedEnrollAt (b : BlockIdx) : State := { State.reset with phase := .pausedEnroll, blk := b, yieldEn := true }

/-- A reconstruction of the zero reading paused before sub-block 1; sub-block 0 was clean (vector V21). -/
def pausedReconAt1 : State :=
  { State.reset with
    phase := .pausedRecon, blk := 1, yieldEn := true, hlen := 16#8
    bres := (Vector.replicate 8 BlockResult.empty).set 0 .clean }

/-- The sub-block of vector E6. -/
def readingE6 : SubBlock := ⟨0x12, 0x34, 0x56, 0x78⟩

/-- Helper pair `9E 5E` and the given reading in sub-block 0 (section 6). -/
def decoding (r0 r1 r2 r3 : Byte) : State :=
  withMem [(0x010, 0x9E), (0x011, 0x5E), (0x100, r0), (0x101, r1), (0x102, r2), (0x103, r3)]

/-- The outcome of decoding sub-block 0: `BRES[0]` and the key pair. -/
def decoded (s : State) : Option (Byte × Byte × Byte) :=
  (nextOf (exec (.decode 0) s)).map fun t => (bresByte (t.bres.get 0), t.key 0, t.key 1)

/-! ### Well-formedness: each check refuses an ill-formed term (R67, R101, R102) -/

theorem test_wf_wr_address : (Statement.wr 0x400 0).wf = false := by decide
theorem test_wf_wr_value : (Statement.wr 0x100 0x100).wf = false := by decide
theorem test_wf_rd_address : (Statement.rd 0x400).wf = false := by decide
theorem test_wf_encode_digit : (Statement.encode 8).wf = false := by decide
theorem test_wf_decode_digit : (Statement.decode 8).wf = false := by decide
theorem test_wf_ldblk_digit : (Pseudo.ldblk 8 0 0 0 0).wf = false := by decide
theorem test_wf_ldblk_byte : (Pseudo.ldblk 0 0 0 0 0x100).wf = false := by decide
theorem test_wf_ldpuf_length : (Pseudo.ldpuf [0]).wf = false := by decide
theorem test_wf_ldpuf_byte : (Pseudo.ldpuf (List.replicate 256 0x100)).wf = false := by decide
theorem test_wf_ldhelp_length : (Pseudo.ldhelp (List.replicate 15 0)).wf = false := by decide
theorem test_wf_ldhelp_byte : (Pseudo.ldhelp (List.replicate 16 0x100)).wf = false := by decide
theorem test_wf_ldhb_digit : (Pseudo.ldhb 8 0 0).wf = false := by decide
theorem test_wf_ldhb_byte : (Pseudo.ldhb 0 0x100 0).wf = false := by decide
theorem test_wf_accepts : (Statement.wr 0x3FF 0xFF).wf = true ∧ (Pseudo.ldhb 7 0xFF 0xFF).wf = true := by decide

/-! ### Command bytes, written out from the table of R91 -/

theorem test_decode_encode : decode 0b00010101#8 = .ok (.encode 5) := by decide
theorem test_decode_decode : decode 0b00100010#8 = .ok (.decode 2) := by decide
theorem test_decode_enroll : decode 0b00110000#8 = .ok .enroll := by decide
theorem test_decode_recon : decode 0b01000000#8 = .ok .recon := by decide
theorem test_decode_cont : decode 0b01010000#8 = .ok .cont := by decide
theorem test_decode_zeroize : decode 0b01100000#8 = .ok .zeroize := by decide

/-- Section 7: bytes that raise `IllegalCommand`. -/
theorem test_decode_illegal : ∀ c ∈ [0x00#8, 0x07#8, 0x18#8, 0x31#8, 0x48#8, 0x5F#8, 0x61#8, 0x70#8, 0xFF#8],
    decode c = .error .illegalCommand := by decide

theorem test_decodeTableWord : decodeTableWord 8 0x17 = some (.encode 7) ∧ decodeTableWord 8 0x18 = none := by decide

/-! ### Tables and field arithmetic (sections 2.1 to 2.3) -/

theorem test_gfMul : gfMul 7 19 = 22 ∧ gfMul 18 2 = 1 ∧ gfMul 31 31 = 18 := by decide
theorem test_gfDiv : gfDiv 5 20 = 9 ∧ gfDiv 1 2 = 18 ∧ gfDiv 31 31 = 1 := by decide
theorem test_gfLog : gfLog 0 = none ∧ gfLog 31 = some 15 ∧ gfExp (some 30) = 18 := by decide
theorem test_gfBuild_small :
    gfBuild ⟨3, by decide, #v[true, true, false, true]⟩ =
      .ok ⟨7, [1, 2, 4, 3, 6, 7, 5, 1], [none, some 0, some 1, some 3, some 2, some 6, some 4, some 5]⟩ := by decide
theorem test_gfBuild_not_primitive :
    gfBuild ⟨4, by decide, #v[true, true, true, true, true]⟩ = .error .notPrimitive := by decide
theorem test_genSynth_small :
    genSynth ⟨7, [1, 2, 4, 3, 6, 7, 5, 1], [none, some 0, some 1, some 3, some 2, some 6, some 4, some 5]⟩
      ⟨7, 1, by decide, by decide, by decide⟩ = .ok ⟨[1, 1, 0, 1], 3, 4⟩ := by decide
theorem test_genSynth_infeasible :
    genSynth ⟨31, [], []⟩ ⟨14, 3, by decide, by decide, by decide⟩ = .error .infeasibleCodeParameters := by decide

/-! ### Encoder (section 3), syndromes (section 4), locator and search (section 5) -/

/-- E6, E8, E10 and E12. -/
theorem test_helperOf :
    helperOf readingE6 = ⟨0x9E, 0x5E⟩ ∧ helperOf ⟨0xA5, 0x5A, 0xC3, 0x3C⟩ = ⟨0xC3, 0x12⟩ ∧
    helperOf ⟨0x00, 0x00, 0xFF, 0xFF⟩ = ⟨0xFF, 0xFE⟩ ∧ helperOf ⟨0xDE, 0xAD, 0xBE, 0xEF⟩ = ⟨0xCC, 0xF0⟩ := by decide

/-- Errors at 5, 17, 29. -/
theorem test_syndromes : syndromes (errorWord [5, 17, 29]) = #v[31, 18, 10, 9, 14, 14] := by decide

/-- Trace E: errors at 14, 15, 16. -/
theorem test_locator : berlekampMassey #v[25, 6, 9, 20, 18, 11] = ⟨3, #v[1, 25, 26, 29, 0, 0, 0]⟩ := by decide

/-- Trace F: four errors, degree 3, no root. -/
theorem test_locator_four_errors : berlekampMassey #v[15, 31, 25, 18, 10, 6] = ⟨3, #v[1, 15, 11, 11, 0, 0, 0]⟩ := by
  decide

/-- Trace D: errors at 0 and 30. -/
theorem test_chien : chienSearch ⟨2, #v[1, 19, 18, 0, 0, 0, 0]⟩ = [30, 0] := by decide

/-! ### The commands (sections 3, 6, 7, 8) -/

/-- Section 3: `LDBLK 3, 12 34 56 78 ; ENCODE 3`. -/
theorem test_encode :
    after (exec (.encode 3) (withMem [(0x160, 0x12), (0x161, 0x34), (0x162, 0x56), (0x163, 0x78)])) (fun t =>
      t.mem == [(0x016, 0x9E), (0x017, 0x5E), (0x026, 0x12), (0x027, 0x34),
        (0x160, 0x12), (0x161, 0x34), (0x162, 0x56), (0x163, 0x78)]) = true := by decide

/-- V9, three errors, and V15, a miscorrection. -/
theorem test_decode_corrected : decoded (decoding 0x32 0x36 0x52 0x78) = some (0x83, 0x12, 0x34) ∧
    decoded (decoding 0x12 0x34 0xB2 0x78) = some (0x83, 0x0A, 0x34) := by decide

/-- V13, degree 4, and V14, no root. -/
theorem test_decode_uncorrectable : decoded (decoding 0x1A 0x34 0x9E 0x78) = some (0xC0, 0x1A, 0x34) ∧
    decoded (decoding 0x12 0x34 0xA6 0x78) = some (0xC0, 0x12, 0x34) := by decide

/-- Program P3, its first command on sub-blocks 0 and 1 of the reading: the run pauses before sub-block 1. -/
theorem test_enroll_yields :
    after (exec .enroll { withMem [(0x100, 0x5B), (0x101, 0x78), (0x102, 0x95), (0x103, 0xB2)] with yieldEn := true })
      (fun t => statusByte t == 0x01 && t.blk == 1 && t.helper 0 == 0xD3 && t.helper 1 == 0x7E && t.key 0 == 0x5B &&
        t.key 1 == 0x78 && t.helper 2 == 0) = true := by decide

/-- Section 7: `WR HLEN, 17 ; RECON`. -/
theorem test_recon_length : after (exec .recon { State.reset with hlen := 17#8 }) (fun t => statusByte t == 0x18) =
    true := by decide

/-- Section 7: `WR HLEN, 16 ; RECON` after reset. -/
theorem test_recon_zero : after (exec .recon { State.reset with hlen := 16#8 })
    (fun t => statusByte t == 0 && toterrByte t == 0 && resultByte t == 0x01 && t.mem == []) = true := by decide

/-- Program P3: the last `CONT` and the one after it. -/
theorem test_cont :
    after (exec .cont (pausedEnrollAt 7)) (fun t => t.blk == 0 && statusByte t == 0x00) = true ∧
    after (exec .cont State.reset) (fun t => statusByte t == 0x10) = true := by decide

/-- Program P1: `ZEROIZE` keeps the helper data; section 7: it clears `ACCERR`. -/
theorem test_zeroize :
    after (exec .zeroize { withMem [(0x010, 0x9E), (0x020, 0x12), (0x100, 0x32)] with accErr := true })
      (fun t => t.mem == [(0x010, 0x9E)] && statusByte t == 0x00) = true := by decide

/-- Program P3: `ZEROIZE` is refused while paused. -/
theorem test_zeroize_paused : after (exec .zeroize (pausedEnrollAt 1)) (fun t => statusByte t == 0x11) = true := by decide

/-! ### The port (section 7) and host programs -/

/-- `WR STATUS, 0xFF` is ignored; `WR CTRL, 0xFF` keeps bit 0. -/
theorem test_write : after (step (withAction (.write 0x001#10 0xFF#8))) (fun t => statusByte t == 0x40) = true ∧
    after (step (withAction (.write 0x002#10 0xFF#8))) (fun t => ctrlByte t == 0x01) = true := by decide

/-- Section 2.3: host reads of the ROM. -/
theorem test_read_rom :
    readWindow State.reset 0x05E#10 = 0x12#8 ∧ readWindow State.reset 0x060#10 = 0x3F#8 ∧
    readWindow State.reset 0x07F#10 = 0x0F#8 ∧ readWindow State.reset 0x084#10 = 0x00#8 ∧
    readWindow State.reset 0x08F#10 = 0x01#8 := by decide

/-- `withFetchWord` on the reset state: the next step runs `RECON`, which fails for want of a length. -/
theorem test_withFetchWord : after (step (State.reset.withFetchWord 8 0x40)) (fun t => statusByte t == 0x18) = true := by
  decide

/-- Section 6: the expansion of `LDHB 0, 9E 5E`. -/
theorem test_expand : expandPseudo (.ldhb 0 0x9E 0x5E) = [.wr 0x010 0x9E, .wr 0x011 0x5E] := by decide

/-! ### Witnesses: states and operands that meet the hypotheses of each statement -/

/-- IllegalBytesRaiseIllegalCommand: the ends of every illegal range, as pending writes. -/
theorem witness_illegal_bytes :
    ∀ c ∈ [0x00#8, 0x0F#8, 0x18#8, 0x1F#8, 0x28#8, 0x2F#8, 0x31#8, 0x3F#8, 0x41#8, 0x4F#8, 0x51#8, 0x5F#8, 0x61#8,
        0x6F#8, 0x70#8, 0xFF#8],
      (withAction (.write 0x000#10 c)).pending = .write 0x000#10 c :: [] ∧ decode c = .error .illegalCommand := by
  decide

/-- StepRunsTheDecodedCommand, WriteDoesOneOfThreeThings (the command clause), EveryCommandWriteReportsItsOutcome
(accepted): a pending command. -/
theorem witness_command_pending :
    (withAction (.write 0x000#10 0x13#8)).pending = .write 0x000#10 0x13#8 :: [] ∧ decode 0x13#8 = .ok (.encode 3) ∧
    Memory.wf (withAction (.write 0x000#10 0x13#8)).mem ∧ writeOutcome 0x13#8 State.reset = .ok := by decide

/-- EveryCommandWriteReportsItsOutcome: each of the three errors. -/
theorem witness_command_errors :
    writeOutcome 0x18#8 State.reset = .illegalCommand ∧ writeOutcome 0x50#8 State.reset = .illegalState ∧
    writeOutcome 0x40#8 State.reset = .malformedHelperData ∧
    writeOutcome 0x40#8 (pausedEnrollAt 1) = .illegalState := by decide

/-- ResetRestoresEveryRegister: nothing pending, and a pending reset. -/
theorem witness_reset : State.reset.pending = [] ∧ (withAction .reset).pending = .reset :: [] := by decide

/-- EveryAddressReadsZeroAfterReset: the addresses around the two ROM ranges that read nonzero. -/
theorem witness_zero_addresses :
    ∀ a ∈ [0x000#10, 0x03F#10, 0x090#10, 0x3FF#10], ¬(0x040 ≤ a.toNat ∧ a.toNat < 0x090) := by decide

/-- ReadReturnsTheMappedByteAndChangesNothing: a pending read, and the ends of the reserved ranges. -/
theorem witness_read :
    (withAction (.read 0x010#10)).pending = .read 0x010#10 :: [] ∧
    ∀ a ∈ [0x030#10, 0x03F#10, 0x090#10, 0x0FF#10, 0x200#10, 0x3FF#10],
      (0x030 ≤ a.toNat ∧ a.toNat < 0x040) ∨ (0x090 ≤ a.toNat ∧ a.toNat < 0x100) ∨ 0x200 ≤ a.toNat := by decide

/-- WriteDoesOneOfThreeThings: the ends of the writable ranges in the idle phase. -/
theorem witness_writable :
    (∀ a ∈ [0x002#10, 0x004#10, 0x010#10, 0x01F#10, 0x100#10, 0x1FF#10], isHostWritable a ∧
      (withAction (.write a 0xFF#8)).pending = .write a 0xFF#8 :: []) ∧
    State.reset.phase = .idle ∧ Memory.wf State.reset.mem := by
  unfold isHostWritable; decide

/-- WriteDoesOneOfThreeThings and IgnoredWriteSetsOnlyAccErr: the ends of the read-only and reserved ranges, and
writable addresses while paused. -/
theorem witness_ignored :
    (∀ a ∈ [0x001#10, 0x005#10, 0x00F#10, 0x020#10, 0x0FF#10, 0x200#10, 0x3FF#10],
      isReadOnlyOrReserved a ∧ a ≠ 0x000#10 ∧ ¬isHostWritable a) ∧
    (∀ a ∈ [0x002#10, 0x004#10, 0x010#10, 0x01F#10, 0x100#10, 0x1FF#10],
      isHostWritable a ∧ (pausedEnrollAt 1).phase ≠ .idle) := by
  unfold isHostWritable isReadOnlyOrReserved; decide

/-- AccErrClearedOnlyByZeroizeOrReset: both events clear it. -/
theorem witness_accErr :
    (∃ t, step { withAction (.write 0x000#10 0x60#8) with accErr := true } = .next t ∧ t.accErr = false) ∧
    ∃ t, step { withAction .reset with accErr := true } = .next t ∧ t.accErr = false :=
  ⟨⟨_, rfl, rfl⟩, ⟨_, rfl, rfl⟩⟩

/-- SequencerWrittenOnlyByRunsAndReset: a yielding `ENROLL`, a `CONT` and a reset write it. -/
theorem witness_sequencer :
    (∃ t, step { withAction (.write 0x000#10 0x30#8) with yieldEn := true } = .next t ∧
      decide (t.phase = .pausedEnroll) = true) ∧
    (∃ t, step { pausedEnrollAt 6 with pending := [.write 0x000#10 0x50#8] } = .next t ∧ decide (t.blk = 7) = true) ∧
    ∃ t, step { pausedEnrollAt 6 with pending := [.reset] } = .next t ∧ decide (t.blk = 0) = true :=
  ⟨exists_of_after (by decide), exists_of_after (by decide), exists_of_after (by decide)⟩

/-- BuffersChangeOnlyByTheirWriters: `PUFBUF` by a write and by `ZEROIZE`, `HELPER` by a write and by `ENCODE`, `KEY` by
`DECODE`, at the first or last element. -/
theorem witness_buffers :
    after (step (withAction (.write 0x1FF#10 0xAA#8))) (fun t => decide (t.puf 255 ≠ State.reset.puf 255)) = true ∧
    after (step { withMem [(0x100, 0xAA)] with pending := [.write 0x000#10 0x60#8] })
      (fun t => decide (t.puf 0 ≠ 0xAA#8)) = true ∧
    after (step (withAction (.write 0x01F#10 0xAA#8))) (fun t => decide (t.helper 15 ≠ 0)) = true ∧
    after (step { withMem [(0x1E0, 0x12)] with pending := [.write 0x000#10 0x17#8] })
      (fun t => decide (t.helper 14 ≠ 0)) = true ∧
    after (step { withMem [(0x020, 0xAA)] with pending := [.write 0x000#10 0x20#8] })
      (fun t => decide (t.key 0 ≠ 0xAA#8)) = true := by decide

/-- The invariant holds of the paused states (InvariantKeptByEveryStep, PausedRunEndsOnlyByLastContOrReset). -/
theorem witness_invariant_paused : (pausedEnrollAt 7).Inv ∧ pausedReconAt1.Inv :=
  ⟨⟨by decide, by decide, by decide, by decide, by decide, by decide, by decide⟩,
    ⟨by decide, by decide, by decide, by decide, by decide, by decide, by decide⟩⟩

/-- PausedOutputsKeptByEveryStep: both kinds of paused run. -/
theorem witness_paused_outputs : (pausedEnrollAt 7).PausedOutputs ∧ pausedReconAt1.PausedOutputs := by
  refine ⟨⟨?_, ?_, ?_, ?_⟩, ⟨?_, ?_, ?_, ?_⟩⟩ <;>
    first
    | (intro h; exact absurd h (by decide))
    | (unfold State.EncodedBlock; decide)
    | (unfold State.DecodedBlock; decide)
    | (unfold State.ClearedBlock; decide)

/-- PausedOutputsKeptByEveryStep, InvariantKeptByEveryStep, PausedRunEndsOnlyByLastContOrReset and
InputsFrozenWhilePaused: steps from paused states, one that ends the run and one that goes on. -/
theorem witness_paused_steps :
    (∃ t, step { pausedEnrollAt 7 with pending := [.write 0x000#10 0x50#8] } = .next t ∧
      decide (t.phase = .idle) = true) ∧
    (∃ t, step { pausedReconAt1 with pending := [.write 0x000#10 0x50#8] } = .next t ∧ decide (t.blk = 2) = true) ∧
    (∃ t, step { pausedReconAt1 with pending := [.reset] } = .next t ∧ decide (t.phase = .idle) = true) ∧
    ¬∃ rest, ({ pausedReconAt1 with pending := [.write 0x000#10 0x50#8] } : State).pending = .reset :: rest :=
  ⟨exists_of_after (by decide), exists_of_after (by decide), exists_of_after (by decide),
    fun ⟨_, h⟩ => by simp at h⟩

/-- The command statements (Encode, Decode, Enroll, Recon, Cont, Zeroize, Idempotent, Yielding, KeyIsTheConcatenation,
DecodingTheEncodedReading, ReconstructionFromTheEnrolledReading): idle and paused states, with a right and a wrong
length, with yields and without, at the first and the last sub-block. -/
theorem witness_command_states :
    Memory.wf State.reset.mem ∧ State.reset.phase = .idle ∧ State.reset.encStride = .stride32 ∧
    State.reset.yieldEn = false ∧ State.reset.hlen ≠ 16#8 ∧
    ({ State.reset with yieldEn := true, hlen := 16#8 } : State).phase = .idle ∧
    ({ State.reset with yieldEn := true, hlen := 16#8 } : State).yieldEn = true ∧
    ({ State.reset with yieldEn := true, hlen := 16#8 } : State).hlen = 16#8 ∧
    (pausedEnrollAt 1).phase = .pausedEnroll ∧ (pausedEnrollAt 1).blk ≠ 7 ∧ (pausedEnrollAt 7).blk = 7 ∧
    pausedReconAt1.phase = .pausedRecon ∧ pausedReconAt1.yieldEn = true ∧
    ({ pausedReconAt1 with yieldEn := false } : State).phase ≠ .idle := by decide

/-- KeyIsTheConcatenationOfTheSubBlocks, ReconDecodesEverySubBlock: a complete `RECON` of the zero buffers, in which
every sub-block is clean as it is alone (vector V21). -/
theorem witness_recon_runs : ∃ t, exec .recon { State.reset with hlen := 16#8 } = .next t ∧
    decide (t.bres.get 7 = .clean) = true := exists_of_after (by decide)

/-- UpToThreeBitErrorsAreCorrected: no flipped bit (V0), three (V9), and the discarded bit alone (V18). -/
theorem witness_errors :
    readHelper (decoding 0x32 0x36 0x52 0x78) 0 = helperOf readingE6 ∧ Memory.wf (decoding 0x32 0x36 0x52 0x78).mem ∧
    weight 31 (unpackResponse readingE6 ^^^ unpackResponse readingE6) = 0 ∧
    weight 31 (unpackResponse readingE6 ^^^ unpackResponse ⟨0x32, 0x36, 0x52, 0x78⟩) = 3 ∧
    weight 31 (unpackResponse readingE6 ^^^ unpackResponse ⟨0x12, 0x34, 0x56, 0x79⟩) = 0 := by decide

/-- CorrectionLandsOnACodewordAtItsCount: each of the three classes is reached. -/
theorem witness_classes :
    (correctWord 0#31).result.cls = .clean ∧ (correctWord (errorWord [30])).result = .corrected 0 ∧
    (correctWord (errorWord [0, 1, 2, 3])).result.cls = .uncorrectable := by decide

/-- UncorrectableIsAnOutcomeAndNoError: both causes, degree 4 (V13) and no root (V14). -/
theorem witness_uncorrectable :
    let syn := fun s : State => syndromes (receivedWord (readResponse s 32 0) (readHelper s 0))
    (Memory.wf (decoding 0x1A 0x34 0x9E 0x78).mem ∧ (decoding 0x1A 0x34 0x9E 0x78).phase = .idle ∧
      synError (syn (decoding 0x1A 0x34 0x9E 0x78)) = true ∧
      3 < (berlekampMassey (syn (decoding 0x1A 0x34 0x9E 0x78))).degree) ∧
    Memory.wf (decoding 0x12 0x34 0xA6 0x78).mem ∧ (decoding 0x12 0x34 0xA6 0x78).phase = .idle ∧
    synError (syn (decoding 0x12 0x34 0xA6 0x78)) = true ∧
    (chienSearch (berlekampMassey (syn (decoding 0x12 0x34 0xA6 0x78)))).length ≠
      (berlekampMassey (syn (decoding 0x12 0x34 0xA6 0x78))).degree := by decide

/-- FlagsAndChallengeSteerNothing: a command that answers a next state, and a memory that differs in `KEY` alone, at both
ends of its range. -/
theorem witness_flags :
    (∃ t, exec (.encode 0) (withMem [(0x100, 0x12)]) = .next t ∧ decide (t.key 0 = 0x12#8) = true) ∧
    Memory.wf [(0x020, 0x01#8), (0x02F, 0xFF#8), (0x100, 0x12#8)] ∧ Memory.wf (withMem [(0x100, 0x12)]).mem ∧
    ∀ a, ¬(0x020 ≤ a ∧ a < 0x030) → Memory.read [(0x020, 0x01#8), (0x02F, 0xFF#8), (0x100, 0x12#8)] a =
      Memory.read (withMem [(0x100, 0x12)]).mem a := by
  refine ⟨exists_of_after (by decide), by decide, by decide, fun a ha => ?_⟩
  have h0 : ¬0x020 = a := by omega
  have h1 : ¬0x02F = a := by omega
  simp [Memory.read, withMem, h0, h1]

/-- UnusedReadingBitsReachNoOutput: a state and a memory that differ in an unused byte and in a discarded bit. -/
theorem witness_unused_reading :
    let m : Memory := [(0x103, 0x01), (0x104, 0xFF)]
    Memory.wf m ∧ State.reset.encStride = .stride32 ∧ (∀ c ∈ m, ¬c.1 < 0x100) ∧
    isUsedReadingByte 3 = true ∧ isUsedReadingByte 4 = false ∧
    Memory.read m (pufAddr 3) &&& 0xFE#8 = State.reset.puf 3 &&& 0xFE#8 ∧
    Memory.read m (pufAddr 0) = State.reset.puf 0 := by decide

/-- ZeroizeLeavesNoTraceOfTheSecret: two memories that differ in a key byte and a reading byte. -/
theorem witness_secret :
    let m : Memory := [(0x020, 0x5B), (0x1FF, 0x01)]
    Memory.wf m ∧ (∀ c ∈ m, isStorage c.1 = true) ∧ (∀ i, i < 16 → Memory.read m (helperAddr i) = State.reset.helper i) :=
  by decide

/-- SyndromesAreLinear, HelperBitsAreParityXorMask, ReceivedWordIsHelperXorMaskThenInformation: both ends of the index
ranges, with the value the rule gives there (section 4; E6). -/
theorem witness_indices :
    synd (syndromes (BitVec.twoPow 31 0)) 1 = 1 ∧ synd (syndromes (BitVec.twoPow 31 30)) 6 = 25 ∧
    (unpack8 (helperOf readingE6).h0).getLsbD 0 = true ∧ (unpack8 (helperOf readingE6).h1).getLsbD 6 = true ∧
    (receivedWord readingE6 ⟨0x9E, 0x5E⟩).getLsbD 14 = true ∧ (receivedWord readingE6 ⟨0x9E, 0x5E⟩).getLsbD 15 = false := by
  decide

/-- SelectRowAnswersTheBestCandidate: a candidate row besides row 0, which the search prefers at equal `ul`. -/
theorem witness_candidate :
    (startRow :: [⟨onePoly, 1, 7, -1⟩])[1]? = some (⟨onePoly, 1, 7, -1⟩ : LocatorRow) ∧
    (selectRow [⟨onePoly, 1, 7, -1⟩]).q = 1 := by decide

/-- LocatorHasConstantTermOneAndItsDegree: syndromes that are not all zero, with degree 1. -/
theorem witness_syndromes : synError #v[1, 1, 1, 1, 1, 1] = true ∧ (berlekampMassey #v[1, 1, 1, 1, 1, 1]).degree = 1 := by
  decide

/-- LocatorOfUpToThreeErrors: one and three positions, both ends of the word among them. -/
theorem witness_positions :
    ∀ ps ∈ [[0], [30], [0, 15, 30]], ps.Nodup ∧ (∀ p ∈ ps, p < 31) ∧ 1 ≤ ps.length ∧ ps.length ≤ 3 := by decide

/-- EveryBuiltFieldHasInverseTables: a field that is built, of the least order `m = 1`. -/
theorem witness_field : gfBuild ⟨1, by decide, #v[true, true]⟩ = .ok ⟨1, [1, 1], [none, some 0]⟩ := by decide

/-- SynthesisFailsExactlyWhenRedundancyExceedsLength: the ROM field is built, and operands on both sides of the edge. -/
theorem witness_synthesis :
    gfBuild primOperands = .ok ⟨31, alphaToRom.toList.map BitVec.toNat, indexOfRom.toList.map (Option.map Fin.val)⟩ ∧
    (∃ o : SynthOperands 31, o.t = 3 ∧ o.length = 14) ∧ ∃ o : SynthOperands 31, o.t = 3 ∧ o.length = 15 :=
  ⟨by decide, ⟨⟨14, 3, by decide, by decide, by decide⟩, rfl, rfl⟩, ⟨⟨15, 3, by decide, by decide, by decide⟩, rfl, rfl⟩⟩

/-- FieldTablesAreInverse, FieldMultiplicationThroughTheTables, FieldDivisionUndoesMultiplication: nonzero elements and
a zero operand. -/
theorem witness_elements :
    (7 : PolyForm) ≠ 0 ∧ indexOf 7 = some 11 ∧ indexOf 19 = some 17 ∧ gfMul 0 9 = 0 ∧ gfDiv 0 7 = 0 := by decide

/-- ResultReadsTheOverallClass: each of the four clauses. -/
theorem witness_result :
    (∃ b, (({ State.reset with bres := (Vector.replicate 8 .clean).set 7 .uncorrectable } : State).bres.get
      b).cls = .uncorrectable) ∧
    ((∀ b, (State.reset.bres.get b).cls ≠ .uncorrectable) ∧ ∃ b, (State.reset.bres.get b).cls = .none) ∧
    (∃ r : Vector BlockResult 8, (∀ b : Fin 8, (r.get b).cls ≠ .uncorrectable ∧ (r.get b).cls ≠ .none) ∧
      ∃ b : Fin 8, (r.get b).cls = .corrected) ∧
    ∃ r : Vector BlockResult 8, ∀ b : Fin 8, (r.get b).cls = .clean :=
  ⟨by decide, by decide,
    ⟨(Vector.replicate 8 .clean).set 0 (.corrected 2), by decide, by decide⟩,
    ⟨Vector.replicate 8 .clean, by decide⟩⟩

/-- PseudoInstructionsExpandToTransactions: operands at the ends of their ranges, and an ill-formed statement. -/
theorem witness_pseudo :
    (Pseudo.ldblk 7 0xFF 0 0xFF 0).wf = true ∧ (Pseudo.ldpuf (List.replicate 256 0xFF)).wf = true ∧
    (Pseudo.ldhelp (List.replicate 16 0xFF)).wf = true ∧ (Pseudo.ldhb 7 0xFF 0).wf = true ∧
    isWindowAddr 0x3FF = true ∧ isByteValue 0xFF = true ∧ (Statement.encode 8).wf = false := by decide

end Sys2Proof.Tests
end

section
/-! The 10_state.md statements. First what a command and a step can do, said once as an inversion: every later proof
about `exec` or `step` is a case split on `CommandEffect` or `StepEffect`. -/

namespace Sys2Proof.Machine

/-- What a command leaves: the state of a refused command with its code in `ERR`, or the effect of its row of
60_exceptions.md R272 in the states that accept it. -/
inductive CommandEffect (s : State) : Instr → State → Prop where
  | refused (i : Instr) (h : acceptance i s ≠ .ok) : CommandEffect s i { s with err := acceptance i s }
  | encode (b : BlockIdx) (hidle : s.phase = .idle) :
      CommandEffect s (.encode b) (runOp .enroll b s.accept)
  | decode (b : BlockIdx) (hidle : s.phase = .idle) :
      CommandEffect s (.decode b) (runOp .recon b s.accept)
  | enroll (hidle : s.phase = .idle) :
      CommandEffect s .enroll (runBlocks .enroll { s.accept.clearKey.clearHelper.clearBres with blk := 0 })
  | recon (hidle : s.phase = .idle) (hlen : s.hlen = 16#8) :
      CommandEffect s .recon (runBlocks .recon { s.accept.clearKey.clearBres with blk := 0 })
  | cont (kind : RunKind) (hpaused : s.phase = pausedPhase kind) :
      CommandEffect s .cont (runBlocks kind s.accept)
  | zeroize (hidle : s.phase = .idle) :
      CommandEffect s .zeroize { s.accept with accErr := false }.clearKey.clearPuf.clearBres

/-- A refused command reports its code and changes nothing else (R274). -/
theorem exec_of_refused {i : Instr} {s : State} (h : acceptance i s ≠ .ok) :
    exec i s = .next { s with err := acceptance i s } := by
  by_cases hp : s.phase = .idle
  · cases i with
    | recon =>
      have hl : s.hlen ≠ 16#8 := fun hl => h (by simp [acceptance, hp, hl])
      simp [exec, execRecon, raise, acceptance, hp, hl]
    | cont => simp [exec, execCont, raise, acceptance, hp]
    | encode | decode | enroll | zeroize => exact absurd (if_pos hp) h
  · cases i with
    | cont => exact absurd (if_neg hp) h
    | encode | decode | enroll | recon | zeroize =>
      simp [exec, execEncode, execDecode, execEnroll, execRecon, execZeroize, raise, acceptance, hp]

/-- A command answers each of its effects. -/
theorem exec_of_commandEffect {i : Instr} {s t : State} (h : CommandEffect s i t) : exec i s = .next t := by
  cases h with
  | refused _ h => exact exec_of_refused h
  | encode b hidle => exact if_neg (not_not.2 hidle)
  | decode b hidle => exact if_neg (not_not.2 hidle)
  | enroll hidle => exact if_neg (not_not.2 hidle)
  | recon hidle hlen => exact (if_neg (not_not.2 hidle)).trans (if_neg (not_not.2 hlen))
  | cont kind hpaused => cases kind <;> simp only [exec, execCont, hpaused, pausedPhase]
  | zeroize hidle => exact if_neg (not_not.2 hidle)

/-- Every phase but `IDLE` is the paused phase of a kind of run. -/
theorem exists_pausedPhase {p : Phase} (h : p ≠ .idle) : ∃ kind, p = pausedPhase kind := by
  cases p with
  | idle => exact absurd rfl h
  | pausedEnroll => exact ⟨.enroll, rfl⟩
  | pausedRecon => exact ⟨.recon, rfl⟩

/-- Every command but `CONT` is accepted while idle only (R272). -/
theorem idle_of_acceptance {i : Instr} {s : State} (h : acceptance i s = .ok) (hi : i ≠ .cont) : s.phase = .idle := by
  by_contra hp
  cases i <;> simp [acceptance, hp] at h hi

/-- Every command has an effect in every state (R272; 70_reset_and_hazards.md R303). -/
theorem exists_commandEffect (i : Instr) (s : State) : ∃ t, CommandEffect s i t := by
  by_cases h : acceptance i s = .ok
  · cases i with
    | encode b => exact ⟨_, .encode b (idle_of_acceptance h nofun)⟩
    | decode b => exact ⟨_, .decode b (idle_of_acceptance h nofun)⟩
    | enroll => exact ⟨_, .enroll (idle_of_acceptance h nofun)⟩
    | recon =>
      have hp := idle_of_acceptance h nofun
      exact ⟨_, .recon hp (by_contra fun hl => by simp [acceptance, hp, hl] at h)⟩
    | cont =>
      obtain ⟨kind, hk⟩ := exists_pausedPhase (p := s.phase) fun hp => by simp [acceptance, hp] at h
      exact ⟨_, .cont kind hk⟩
    | zeroize => exact ⟨_, .zeroize (idle_of_acceptance h nofun)⟩
  · exact ⟨_, .refused i h⟩

/-- The next state of a command is one of its effects. -/
theorem commandEffect_of_exec {i : Instr} {s t : State} (h : exec i s = .next t) : CommandEffect s i t := by
  obtain ⟨t', he⟩ := exists_commandEffect i s
  rw [exec_of_commandEffect he, Host.Outcome.next.injEq] at h
  exact h ▸ he

/-- What a step leaves, by the host's next action (20_memory.md R61 to R64; 30_encoding.md R93; 70_reset_and_hazards.md
R300). -/
inductive StepEffect (s : State) : State → Prop where
  | nothing (h : s.pending = []) : StepEffect s s
  | read (a : Addr) (rest : List HostAction) (h : s.pending = .read a :: rest) :
      StepEffect s { s with pending := rest, rdata := some (readWindow s a) }
  | reset (rest : List HostAction) (h : s.pending = .reset :: rest) :
      StepEffect s (resetBlock (takeAction s rest))
  | command (c : Byte) (rest : List HostAction) (i : Instr) (t : State) (h : s.pending = .write 0x000#10 c :: rest)
      (hc : decode c = .ok i) (ht : CommandEffect (takeAction s rest) i t) : StepEffect s t
  | illegal (c : Byte) (rest : List HostAction) (h : s.pending = .write 0x000#10 c :: rest)
      (hc : decode c = .error .illegalCommand) : StepEffect s { takeAction s rest with err := .illegalCommand }
  | write (a : Addr) (v : Byte) (rest : List HostAction) (h : s.pending = .write a v :: rest) (ha : a ≠ 0x000#10) :
      StepEffect s (writeWindow (takeAction s rest) a v)

/-- A legal byte issues its command (30_encoding.md R92). -/
theorem issueCommand_of_decode {c : Byte} {i : Instr} (s : State) (h : decode c = .ok i) :
    issueCommand s c = exec i s := by
  simp only [issueCommand, h]

/-- An illegal byte raises `IllegalCommand` (R93). -/
theorem issueCommand_of_illegal {c : Byte} (s : State) (h : decode c = .error .illegalCommand) :
    issueCommand s c = .next { s with err := .illegalCommand } := by
  simp only [issueCommand, h, raise_spec]

/-- Every step answers a next state, and it is one of the effects of the host's next action. -/
theorem step_stepEffect (s : State) : ∃ t, step s = .next t ∧ StepEffect s t := by
  cases h : s.pending with
  | nil => exact ⟨s, step_idle s h, .nothing h⟩
  | cons action rest =>
    cases action with
    | read a => exact ⟨_, step_read h, .read a rest h⟩
    | reset => exact ⟨_, step_reset h, .reset rest h⟩
    | write a v =>
      by_cases ha : a = 0x000#10
      · subst ha
        cases hc : decode v with
        | ok i =>
          obtain ⟨t, ht⟩ := exists_commandEffect i (takeAction s rest)
          exact ⟨t, by rw [step_command h, issueCommand_of_decode _ hc, exec_of_commandEffect ht],
            .command v rest i t h hc ht⟩
        | error e =>
          cases e
          exact ⟨_, by rw [step_command h, issueCommand_of_illegal _ hc], .illegal v rest h hc⟩
      · exact ⟨_, step_write h ha, .write a v rest h ha⟩

/-- The next state of a step is one of the effects of the host's next action. -/
theorem stepEffect_of_step {s t : State} (h : step s = .next t) : StepEffect s t := by
  obtain ⟨t', ht', he⟩ := step_stepEffect s
  rw [h, Host.Outcome.next.injEq] at ht'
  exact ht' ▸ he

/-! ### A write to the window -/

/-- The window address of the stored byte that a location names, if it names one (20_memory.md R65). -/
def Loc.byteAddr : Loc → Option Nat
  | .helper i => some (helperAddr i.val)
  | .key i => some (keyAddr i.val)
  | .puf i => some (pufAddr i.val)
  | _ => none

set_option maxRecDepth 10000 in
/-- An address names a stored byte exactly when it is one of `HELPER`, `KEY` and `PUFBUF`, and then its own (R65). -/
theorem byteAddr_locOf : ∀ a : Addr, (locOf a).byteAddr = if isStorage a.toNat then some a.toNat else none := by
  decide

/-- The address of a location that names a stored byte. -/
theorem toNat_of_byteAddr {a : Addr} {n : Nat} (h : (locOf a).byteAddr = some n) :
    n = a.toNat ∧ isStorage a.toNat = true := by
  rw [byteAddr_locOf, Option.ite_none_right_eq_some, Option.some.injEq] at h
  exact ⟨h.2.symm, h.1⟩

/-- While idle a host-writable location takes its new value (R63 (b)). -/
theorem whenIdle_of_idle {s t : State} (h : s.phase = .idle) : whenIdle s t = t := if_pos h

/-- What a host write to an address other than `CMD` leaves (R63 (b), (c), R64). -/
inductive WriteEffect (s : State) (a : Addr) (v : Byte) : State → Prop where
  | ignored (h : ¬(isHostWritable a ∧ s.phase = .idle)) : WriteEffect s a v (ignoreWrite s)
  | ctrl (hidle : s.phase = .idle) (ha : locOf a = .ctrl) : WriteEffect s a v { s with yieldEn := v.getLsbD 0 }
  | chal (hidle : s.phase = .idle) (ha : locOf a = .chal) : WriteEffect s a v { s with chal := v }
  | hlen (hidle : s.phase = .idle) (ha : locOf a = .hlen) : WriteEffect s a v { s with hlen := v }
  | byte (hidle : s.phase = .idle) (hw : isHostWritable a) (hs : isStorage a.toNat = true) :
      WriteEffect s a v { s with mem := Memory.write s.mem a.toNat v }

/-- A host write elsewhere than to `CMD` has one of its effects. -/
theorem writeWindow_writeEffect {s : State} {a : Addr} (v : Byte) (ha : a ≠ 0x000#10) :
    WriteEffect s a v (writeWindow s a v) := by
  by_cases hidle : s.phase = .idle
  · by_cases hw : (locOf a).hostWritable = true
    · have hwa := (isHostWritable_iff a).2 hw
      have stored : ∀ n, (locOf a).byteAddr = some n → WriteEffect s a v { s with mem := Memory.write s.mem n v } := by
        intro n hn
        obtain ⟨rfl, hs⟩ := toNat_of_byteAddr hn
        exact .byte hidle hwa hs
      simp only [writeWindow, whenIdle_of_idle hidle]
      cases hl : locOf a
      case ctrl => exact .ctrl hidle hl
      case chal => exact .chal hidle hl
      case hlen => exact .hlen hidle hl
      case helper i => exact stored _ (by rw [hl]; rfl)
      case puf i => exact stored _ (by rw [hl]; rfl)
      all_goals exact absurd hw (by simp [hl, Loc.hostWritable])
    · rw [writeWindow_of_not_writable v ha hw]
      exact .ignored fun h => hw ((isHostWritable_iff a).1 h.1)
  · rw [writeWindow_of_paused v ha hidle]
    exact .ignored fun h => hidle h.2

/-! ### The invariant -/

/-- The stored bytes are canonical and lie inside the three buffers: the invariant's clauses about memory. -/
def Memory.Stored (m : Memory) : Prop := Memory.wf m ∧ ∀ c ∈ m, isStorage c.1 = true

theorem Memory.stored_write {m : Memory} {a : Nat} (v : Byte) (hm : m.Stored) (ha : isStorage a = true) :
    (Memory.write m a v).Stored := by
  refine ⟨Memory.wf_write _ _ hm.1, fun c hc => ?_⟩
  rcases Memory.mem_write hc with h | ⟨rfl, _⟩
  · exact hm.2 c h
  · exact ha

theorem Memory.stored_zeroRange {m : Memory} (lo len : Nat) (hm : m.Stored) : (Memory.zeroRange m lo len).Stored :=
  ⟨Memory.wf_zeroRange _ _ hm.1, fun c hc => hm.2 c (List.mem_of_mem_filter hc)⟩

/-- The storage addresses as the two ranges of the map (20_memory.md R65). -/
theorem isStorage_iff (a : Nat) : isStorage a = true ↔ (0x010 ≤ a ∧ a < 0x030) ∨ (0x100 ≤ a ∧ a < 0x200) := by
  simp [isStorage]

/-- Every `HELPER` byte has a storage address (20_memory.md R65). -/
theorem isStorage_helperAddr {i : Nat} (h : i < 16) : isStorage (helperAddr i) = true := by
  rw [isStorage_iff, helperAddr]
  omega

/-- Every `KEY` byte has a storage address (R65). -/
theorem isStorage_keyAddr {i : Nat} (h : i < 16) : isStorage (keyAddr i) = true := by
  rw [isStorage_iff, keyAddr]
  omega

theorem stored_writeHelper {s : State} (b : BlockIdx) (h : HelperPair) (hm : s.mem.Stored) :
    (writeHelper s b h).mem.Stored :=
  Memory.stored_write _ (Memory.stored_write _ hm (isStorage_helperAddr (by omega))) (isStorage_helperAddr (by omega))

theorem stored_writeKey {s : State} (b : BlockIdx) (k0 k1 : Byte) (hm : s.mem.Stored) :
    (writeKey s b k0 k1).mem.Stored :=
  Memory.stored_write _ (Memory.stored_write _ hm (isStorage_keyAddr (by omega))) (isStorage_keyAddr (by omega))

/-- The sub-block operation of a run writes inside the buffers. -/
theorem stored_runOp {s : State} (kind : RunKind) (b : BlockIdx) (hm : s.mem.Stored) :
    (runOp kind b s).mem.Stored := by
  cases kind
  · exact stored_writeKey _ _ _ (stored_writeHelper _ _ hm)
  · exact stored_writeKey _ _ _ hm

/-- A run writes inside the buffers. -/
theorem stored_runLoop (kind : RunKind) (fuel : Nat) :
    ∀ s : State, s.mem.Stored → (runLoop kind fuel s).mem.Stored := by
  induction fuel with
  | zero => exact fun s hm => hm
  | succ fuel ih =>
    intro s hm
    have hop := stored_runOp kind s.blk hm
    rcases runLoop_succ (s := s) kind fuel with ⟨_, h⟩ | ⟨_, _, h⟩ | ⟨_, _, h⟩
    · rw [h]; exact hop
    · rw [h]; exact hop
    · rw [h]; exact ih _ hop

/-- The invariant's clauses about the sequencer: `BLK` is 0 exactly while idle, and a paused run has yields on and, in a
reconstruction, the length 16 (10_state.md R28; 47_key_assembler.md R242, R244, R245). -/
def SequencerOk (s : State) : Prop :=
  (s.phase = .idle ∧ s.blk = 0) ∨
    ∃ kind, s.phase = pausedPhase kind ∧ s.blk ≠ 0 ∧ s.yieldEn = true ∧ (kind = .recon → s.hlen = 16#8)

theorem pausedPhase_ne_idle (kind : RunKind) : pausedPhase kind ≠ .idle := by cases kind <;> decide

theorem pausedPhase_eq_pausedRecon_iff (kind : RunKind) : pausedPhase kind = .pausedRecon ↔ kind = .recon := by
  cases kind <;> decide

/-- The invariant is its clauses about memory and about the sequencer; the `BRES` clause holds of every state. -/
theorem inv_iff (s : State) : s.Inv ↔ s.mem.Stored ∧ SequencerOk s := by
  constructor
  · rintro ⟨hwf, hloc, hidle, hpaused, hyield, hlen, -⟩
    refine ⟨⟨hwf, hloc⟩, ?_⟩
    by_cases h : s.phase = .idle
    · exact .inl ⟨h, hidle h⟩
    · obtain ⟨kind, hk⟩ := exists_pausedPhase h
      exact .inr ⟨kind, hk, hpaused h, hyield h, fun e => hlen (by rw [hk, e]; rfl)⟩
  · rintro ⟨⟨hwf, hloc⟩, ⟨hp, hb⟩ | ⟨kind, hp, hb, hy, hl⟩⟩
    · exact ⟨hwf, hloc, fun _ => hb, fun h => absurd hp h, fun h => absurd hp h,
        fun h => absurd (h.symm.trans hp) (by decide), fun _ => bresByte_mem_bresValues _⟩
    · exact ⟨hwf, hloc, fun h => absurd (hp ▸ h) (pausedPhase_ne_idle kind), fun _ => hb, fun _ => hy,
        fun h => hl ((pausedPhase_eq_pausedRecon_iff kind).1 (hp ▸ h)), fun _ => bresByte_mem_bresValues _⟩

/-- A run from any `BLK` ends idle at sub-block 0 or pauses with yields on (47_key_assembler.md R243). -/
theorem sequencerOk_runBlocks (kind : RunKind) {s : State} (hm : Memory.wf s.mem)
    (hlen : kind = .recon → s.hlen = 16#8) : SequencerOk (runBlocks kind s) := by
  obtain ⟨m, r, p, k, hrest⟩ := runLoop_rest kind 8 s
  unfold runBlocks
  cases hy : s.yieldEn with
  | false =>
    obtain ⟨hp, hb, -⟩ := runLoop_complete kind 8 s hm hy (by omega)
    exact .inl ⟨hp, hb⟩
  | true =>
    obtain ⟨hlast, hnext, -⟩ := runLoop_yield kind 7 s hm hy
    by_cases h7 : s.blk = 7
    · exact .inl (hlast h7)
    · obtain ⟨hp, hb⟩ := hnext h7
      have hne : s.blk + 1 ≠ 0 := by revert h7; generalize s.blk = b; revert b; decide
      exact .inr ⟨kind, hp, by rwa [hb], by rw [hrest]; exact hy, by rw [hrest]; exact hlen⟩

/-- A run started from stored bytes, and with the right length for a reconstruction, ends in the invariant. -/
theorem inv_runBlocks (kind : RunKind) {s : State} (hm : s.mem.Stored) (hlen : kind = .recon → s.hlen = 16#8) :
    (runBlocks kind s).Inv :=
  (inv_iff _).2 ⟨stored_runLoop kind 8 s hm, sequencerOk_runBlocks kind hm.1 hlen⟩

/-- Every command keeps the invariant. -/
theorem inv_commandEffect {s t : State} {i : Instr} (hs : s.Inv) (h : CommandEffect s i t) : t.Inv := by
  obtain ⟨hm, hq⟩ := (inv_iff s).1 hs
  have key {m : Memory} (hm : m.Stored) := Memory.stored_zeroRange (keyAddr 0) 16 hm
  cases h with
  | refused => exact (inv_iff _).2 ⟨hm, hq⟩
  | encode b => exact (inv_iff _).2 ⟨stored_runOp .enroll b (s := s.accept) hm, hq⟩
  | decode b => exact (inv_iff _).2 ⟨stored_runOp .recon b (s := s.accept) hm, hq⟩
  | enroll => exact inv_runBlocks .enroll (Memory.stored_zeroRange _ _ (key hm)) nofun
  | recon _ hlen => exact inv_runBlocks .recon (key hm) fun _ => hlen
  | cont kind hpaused =>
    exact inv_runBlocks kind hm fun e => hs.lengthOk (by rw [hpaused, e]; rfl)
  | zeroize => exact (inv_iff _).2 ⟨Memory.stored_zeroRange _ _ (key hm), hq⟩

/-- Every host write to the window keeps the invariant. -/
theorem inv_writeEffect {s t : State} {a : Addr} {v : Byte} (hs : s.Inv) (h : WriteEffect s a v t) : t.Inv := by
  obtain ⟨hm, hq⟩ := (inv_iff s).1 hs
  cases h with
  | ignored => exact (inv_iff _).2 ⟨hm, hq⟩
  | ctrl hidle => exact (inv_iff _).2 ⟨hm, .inl ⟨hidle, hs.idleBlk hidle⟩⟩
  | chal => exact (inv_iff _).2 ⟨hm, hq⟩
  | hlen hidle => exact (inv_iff _).2 ⟨hm, .inl ⟨hidle, hs.idleBlk hidle⟩⟩
  | byte _ _ ha => exact (inv_iff _).2 ⟨Memory.stored_write v hm ha, hq⟩

/-- The state after a reset meets the invariant, whatever stands before it. -/
theorem inv_resetBlock (s : State) : (resetBlock s).Inv :=
  (inv_iff _).2 ⟨⟨Memory.wf_nil, nofun⟩, .inl ⟨rfl, rfl⟩⟩

/-- Settles O17, by the effects of a step: commands and host writes keep the invariant, and a reset establishes it. -/
theorem invariantKeptByEveryStep : Obligations.InvariantKeptByEveryStep := by
  unfold Obligations.InvariantKeptByEveryStep
  intro s t hs h
  have taken (rest : List HostAction) : (takeAction s rest).Inv := (inv_iff _).2 ((inv_iff s).1 hs)
  cases stepEffect_of_step h with
  | nothing => exact hs
  | read => exact (inv_iff _).2 ((inv_iff s).1 hs)
  | reset rest => exact inv_resetBlock _
  | command _ rest i _ _ _ ht => exact inv_commandEffect (taken rest) ht
  | illegal _ rest => exact (inv_iff _).2 ((inv_iff s).1 hs)
  | write a v rest _ ha => exact inv_writeEffect (taken rest) (writeWindow_writeEffect v ha)

end Sys2Proof.Machine
end

section
/-! What the sub-block operation of a run depends on, and one turn of the run's loop as three equations. -/

namespace Sys2Proof.Machine

/-! ### The three buffers by address -/

/-- The window addresses of `HELPER` (20_memory.md R65). -/
def isHelperByte (a : Nat) : Prop := 0x010 ≤ a ∧ a < 0x020

/-- The window addresses of `KEY` (R65). -/
def isKeyByte (a : Nat) : Prop := 0x020 ≤ a ∧ a < 0x030

/-- The window addresses of `PUFBUF` (R65). -/
def isPufByte (a : Nat) : Prop := 0x100 ≤ a ∧ a < 0x200

theorem isKeyByte_of_isKeyPair {b : BlockIdx} {a : Nat} (h : isKeyPair b a) : isKeyByte a := by
  have := b.isLt
  simp only [isKeyPair, keyAddr] at h
  exact ⟨by omega, by omega⟩

theorem isHelperByte_of_isHelperPair {b : BlockIdx} {a : Nat} (h : isHelperPair b a) : isHelperByte a := by
  have := b.isLt
  simp only [isHelperPair, helperAddr] at h
  exact ⟨by omega, by omega⟩

/-! ### What the sub-block operation depends on -/

/-- Store the outputs of the sub-block operation of a run: the key pair and the result, and the helper pair in an
enrollment (47_key_assembler.md R240). -/
def storeOutputs (kind : RunKind) (b : BlockIdx) (h : HelperPair) (k0 k1 : Byte) (r : BlockResult) (s : State) : State :=
  match kind with
  | .enroll => (writeKey (writeHelper s b h) b k0 k1).setBres b r
  | .recon => (writeKey s b k0 k1).setBres b r

/-- What the sub-block operation stores is fixed by the stride and the bytes outside `KEY` (10_state.md R23). -/
theorem runOp_eq_storeOutputs (kind : RunKind) (b : BlockIdx) (s : State) : ∃ h k0 k1 r, ∀ s' : State,
    s'.encStride = s.encStride → (∀ a, ¬isKeyByte a → Memory.read s'.mem a = Memory.read s.mem a) →
    runOp kind b s' = storeOutputs kind b h k0 k1 r s' := by
  have reading {s' : State} (stride : Nat) (hm : ∀ a, ¬isKeyByte a → Memory.read s'.mem a = Memory.read s.mem a) :
      readResponse s' stride b = readResponse s stride b :=
    readResponse_congr stride b fun a ha => hm a fun hk => absurd hk.2 (by omega)
  cases kind with
  | enroll =>
    let x := readResponse s (strideBytes s.encStride) b
    refine ⟨helperOf x, x.r0, x.r1, .empty, fun s' hs hm => ?_⟩
    simp only [runOp, encBlock, storeOutputs, hs, reading _ hm, x]
  | recon =>
    let c := correctWord (receivedWord (readResponse s Config.decStride b) (readHelper s b))
    refine ⟨⟨0, 0⟩, keySegment0 c.word, keySegment1 c.word, c.result, fun s' _ hm => ?_⟩
    have hh : readHelper s' b = readHelper s b := readHelper_congr b fun a ha => hm a fun hk =>
      absurd hk.1 (by have := (isHelperByte_of_isHelperPair ha).2; omega)
    simp only [runOp, decBlock, storeOutputs, reading _ hm, hh, c]

/-! ### Three equations for one turn of the loop (47_key_assembler.md R243) -/

theorem runLoop_of_last (kind : RunKind) (fuel : Nat) {s : State} (h7 : s.blk = 7) :
    runLoop kind (fuel + 1) s = { runOp kind s.blk s with phase := .idle, blk := 0 } := by
  rcases runLoop_succ (s := s) kind fuel with ⟨-, h⟩ | ⟨hn, -⟩ | ⟨hn, -⟩
  · exact h
  · exact absurd h7 hn
  · exact absurd h7 hn

theorem runLoop_of_yield (kind : RunKind) (fuel : Nat) {s : State} (h7 : s.blk ≠ 7) (hy : s.yieldEn = true) :
    runLoop kind (fuel + 1) s = { runOp kind s.blk s with blk := s.blk + 1, phase := pausedPhase kind } := by
  rcases runLoop_succ (s := s) kind fuel with ⟨he, -⟩ | ⟨-, -, h⟩ | ⟨-, hn, -⟩
  · exact absurd he h7
  · exact h
  · exact absurd (hy.symm.trans hn) (by decide)

theorem runLoop_of_no_yield (kind : RunKind) (fuel : Nat) {s : State} (h7 : s.blk ≠ 7) (hy : s.yieldEn = false) :
    runLoop kind (fuel + 1) s = runLoop kind fuel { runOp kind s.blk s with blk := s.blk + 1 } := by
  rcases runLoop_succ (s := s) kind fuel with ⟨he, -⟩ | ⟨-, hn, -⟩ | ⟨-, -, h⟩
  · exact absurd he h7
  · exact absurd (hy.symm.trans hn) (by decide)
  · exact h

end Sys2Proof.Machine
end

section
/-! Which registers and bytes a step can write, and who writes them. -/

namespace Sys2Proof.Machine

/-! ### The sequencer -/

/-- The sub-block operation leaves `PHASE` and `BLK` alone. -/
theorem keepsSequencer_runOp (kind : RunKind) (b : BlockIdx) (s : State) : KeepsSequencer s (runOp kind b s) := by
  rw [runOp_rest]
  exact ⟨rfl, rfl⟩

/-- `ENROLL`, `RECON` and `CONT` drive the sequencer; every other command leaves `PHASE` and `BLK` alone (10_state.md
R28). -/
theorem commandEffect_sequencer {s t : State} {i : Instr} (h : CommandEffect s i t) :
    KeepsSequencer s t ∨ i = .enroll ∨ i = .recon ∨ i = .cont := by
  cases h with
  | refused => exact .inl ⟨rfl, rfl⟩
  | encode b => exact .inl (keepsSequencer_runOp .enroll b s.accept)
  | decode b => exact .inl (keepsSequencer_runOp .recon b s.accept)
  | enroll => exact .inr (.inl rfl)
  | recon => exact .inr (.inr (.inl rfl))
  | cont => exact .inr (.inr (.inr rfl))
  | zeroize => exact .inl ⟨rfl, rfl⟩

/-- A host write to the window leaves `PHASE` and `BLK` alone. -/
theorem keepsSequencer_writeEffect {s t : State} {a : Addr} {v : Byte} (h : WriteEffect s a v t) :
    KeepsSequencer s t := by
  cases h <;> exact ⟨rfl, rfl⟩

/-- Settles O12: every other effect of a step keeps `PHASE` and `BLK`. -/
theorem sequencerWrittenOnlyByRunsAndReset : Obligations.SequencerWrittenOnlyByRunsAndReset := by
  unfold Obligations.SequencerWrittenOnlyByRunsAndReset
  intro s t h hchanged
  cases stepEffect_of_step h with
  | nothing => exact absurd ⟨rfl, rfl⟩ hchanged
  | read => exact absurd ⟨rfl, rfl⟩ hchanged
  | reset rest hp => exact .inl ⟨rest, hp⟩
  | command c rest i _ hp hc ht =>
    refine .inr ⟨c, rest, hp, ?_⟩
    rcases commandEffect_sequencer ht with hk | hi
    · exact absurd hk hchanged
    · simpa only [hc, Except.ok.injEq] using hi
  | illegal => exact absurd ⟨rfl, rfl⟩ hchanged
  | write a v rest _ ha => exact absurd (keepsSequencer_writeEffect (writeWindow_writeEffect v ha)) hchanged

/-! ### The stored bytes

The frames here hold of every memory, canonical or not: a byte that is not written reads as before. -/

/-- A frame with fewer touched bytes is a stronger frame. -/
theorem KeepsBytesBut.mono {p q : Nat → Prop} {s t : State} (h : KeepsBytesBut p s t) (hpq : ∀ a, p a → q a) :
    KeepsBytesBut q s t :=
  fun a ha => h a fun hp => ha (hpq a hp)

theorem KeepsBytesBut.trans {p : Nat → Prop} {s t u : State} (h : KeepsBytesBut p s t) (h' : KeepsBytesBut p t u) :
    KeepsBytesBut p s u :=
  fun a ha => (h' a ha).trans (h a ha)

theorem keepsBytesBut_writeHelper (s : State) (b : BlockIdx) (h : HelperPair) :
    KeepsBytesBut (isHelperPair b) s (writeHelper s b h) := by
  intro a ha
  rw [isHelperPair, not_or] at ha
  rw [writeHelper, State.setHelper_mem, State.setHelper_mem, Memory.read_write_ne _ ha.2, Memory.read_write_ne _ ha.1]

theorem keepsBytesBut_writeKey (s : State) (b : BlockIdx) (k0 k1 : Byte) :
    KeepsBytesBut (isKeyPair b) s (writeKey s b k0 k1) := by
  intro a ha
  rw [isKeyPair, not_or] at ha
  rw [writeKey, State.setKey_mem, State.setKey_mem, Memory.read_write_ne _ ha.2, Memory.read_write_ne _ ha.1]

/-- The sub-block operation of a run writes the run's pairs of its sub-block only (47_key_assembler.md R240). -/
theorem keepsBytesBut_runOp (kind : RunKind) (b : BlockIdx) (s : State) :
    KeepsBytesBut (isRunPair kind b) s (runOp kind b s) := by
  obtain ⟨h, k0, k1, r, hop⟩ := runOp_eq_storeOutputs kind b s
  rw [hop s rfl fun _ _ => rfl]
  cases kind with
  | enroll =>
    exact ((keepsBytesBut_writeHelper s b h).mono fun _ ha => .inr ⟨rfl, ha⟩).trans
      ((keepsBytesBut_writeKey _ b k0 k1).mono fun _ ha => .inl ha)
  | recon => exact (keepsBytesBut_writeKey s b k0 k1).mono fun _ ha => .inl ha

/-- The bytes that a run of this kind writes: those of `KEY`, and those of `HELPER` in an enrollment (R240). -/
def isRunByte (kind : RunKind) (a : Nat) : Prop := isKeyByte a ∨ (kind = .enroll ∧ isHelperByte a)

theorem isRunByte_of_isRunPair {kind : RunKind} {b : BlockIdx} {a : Nat} (h : isRunPair kind b a) :
    isRunByte kind a :=
  h.imp isKeyByte_of_isKeyPair (And.imp_right isHelperByte_of_isHelperPair)

theorem keepsBytesBut_runLoop (kind : RunKind) (fuel : Nat) :
    ∀ s : State, KeepsBytesBut (isRunByte kind) s (runLoop kind fuel s) := by
  induction fuel with
  | zero => exact fun _ _ _ => rfl
  | succ fuel ih =>
    intro s
    have hop : KeepsBytesBut (isRunByte kind) s (runOp kind s.blk s) :=
      (keepsBytesBut_runOp kind s.blk s).mono fun _ => isRunByte_of_isRunPair
    rcases runLoop_succ (s := s) kind fuel with ⟨_, h⟩ | ⟨_, _, h⟩ | ⟨_, _, h⟩
    · rw [h]; exact hop
    · rw [h]; exact hop
    · rw [h]; exact hop.trans (ih _)

theorem keepsBytesBut_runBlocks (kind : RunKind) (s : State) :
    KeepsBytesBut (isRunByte kind) s (runBlocks kind s) :=
  keepsBytesBut_runLoop kind 8 s

theorem keepsBytesBut_clearHelper (s : State) : KeepsBytesBut isHelperByte s s.clearHelper := by
  intro a ha
  exact (Memory.read_zeroRange _ _ _ _).trans (if_neg ha)

theorem keepsBytesBut_clearKey (s : State) : KeepsBytesBut isKeyByte s s.clearKey := by
  intro a ha
  exact (Memory.read_zeroRange _ _ _ _).trans (if_neg ha)

theorem keepsBytesBut_clearPuf (s : State) : KeepsBytesBut isPufByte s s.clearPuf := by
  intro a ha
  exact (Memory.read_zeroRange _ _ _ _).trans (if_neg ha)

/-- The stored bytes that a command can write from `s` (10_state.md R21 to R23). -/
def commandBytes (s : State) : Instr → Nat → Prop
  | .encode b => isRunPair .enroll b
  | .decode b => isRunPair .recon b
  | .enroll => isRunByte .enroll
  | .recon => isRunByte .recon
  | .cont => fun a => ∃ kind, s.phase = pausedPhase kind ∧ isRunByte kind a
  | .zeroize => fun a => isKeyByte a ∨ isPufByte a

/-- A command writes no other byte. -/
theorem keepsBytesBut_commandEffect {s t : State} {i : Instr} (h : CommandEffect s i t) :
    KeepsBytesBut (commandBytes s i) s t := by
  cases h with
  | refused => exact fun _ _ => rfl
  | encode b => exact keepsBytesBut_runOp .enroll b s.accept
  | decode b => exact keepsBytesBut_runOp .recon b s.accept
  | enroll =>
    have hclear : KeepsBytesBut (isRunByte .enroll) s s.clearKey.clearHelper :=
      ((keepsBytesBut_clearKey s).mono fun _ ha => .inl ha).trans
        ((keepsBytesBut_clearHelper _).mono fun _ ha => .inr ⟨rfl, ha⟩)
    exact hclear.trans (keepsBytesBut_runBlocks .enroll { s.accept.clearKey.clearHelper.clearBres with blk := 0 })
  | recon =>
    have hclear : KeepsBytesBut (isRunByte .recon) s s.clearKey :=
      (keepsBytesBut_clearKey s).mono fun _ ha => .inl ha
    exact hclear.trans (keepsBytesBut_runBlocks .recon { s.accept.clearKey.clearBres with blk := 0 })
  | cont kind hpaused => exact (keepsBytesBut_runBlocks kind s.accept).mono fun _ ha => ⟨kind, hpaused, ha⟩
  | zeroize =>
    exact ((keepsBytesBut_clearKey s).mono fun _ ha => .inl ha).trans
      ((keepsBytesBut_clearPuf s.clearKey).mono fun _ ha => .inr ha)

/-- `commandBytes` does not look at the port. -/
theorem commandBytes_takeAction (s : State) (rest : List HostAction) (i : Instr) :
    commandBytes (takeAction s rest) i = commandBytes s i := by
  cases i <;> rfl

/-- The stored bytes that the host may write are those of `HELPER` and `PUFBUF` (20_memory.md R63, R65). -/
theorem isHelperByte_or_isPufByte {a : Addr} (hw : isHostWritable a) (hs : isStorage a.toNat = true) :
    isHelperByte a.toNat ∨ isPufByte a.toNat := by
  rw [isStorage_iff] at hs
  simp only [isHostWritable, isHelperByte, isPufByte] at hw ⊢
  omega

/-- What can change a stored byte in a step that is no reset: an idle host write to its own address, or a command that
writes it. -/
theorem byte_changed_cases {s t : State} {a : Nat} (h : step s = .next t) (hr : ¬∃ rest, s.pending = .reset :: rest)
    (hchanged : Memory.read t.mem a ≠ Memory.read s.mem a) :
    (∃ v rest, s.pending = .write (BitVec.ofNat 10 a) v :: rest ∧ s.phase = .idle ∧
      (isHelperByte a ∨ isPufByte a)) ∨
    ∃ c rest i, s.pending = .write 0x000#10 c :: rest ∧ decode c = .ok i ∧ commandBytes s i a := by
  cases stepEffect_of_step h with
  | nothing => exact absurd rfl hchanged
  | read => exact absurd rfl hchanged
  | reset rest hp => exact absurd ⟨rest, hp⟩ hr
  | command c rest i _ hp hc ht =>
    refine .inr ⟨c, rest, i, hp, hc, ?_⟩
    rw [← commandBytes_takeAction s rest]
    exact by_contra fun hn => hchanged (keepsBytesBut_commandEffect ht a hn)
  | illegal => exact absurd rfl hchanged
  | write w v rest hp hw0 =>
    generalize hu : writeWindow (takeAction s rest) w v = u at hchanged
    cases hu ▸ writeWindow_writeEffect (s := takeAction s rest) v hw0 with
    | ignored => exact absurd rfl hchanged
    | ctrl => exact absurd rfl hchanged
    | chal => exact absurd rfl hchanged
    | hlen => exact absurd rfl hchanged
    | byte hidle hw hs =>
      have ha : a = w.toNat := by_contra fun hn => hchanged (Memory.read_write_ne v hn)
      subst ha
      exact .inl ⟨v, rest, by simpa using hp, hidle, isHelperByte_or_isPufByte hw hs⟩

/-! ### Which command writes which buffer -/

/-- Only `ZEROIZE` writes a `PUFBUF` byte (10_state.md R21). -/
theorem eq_zeroize_of_commandBytes_puf {s : State} {i : Instr} {a : Nat} (ha : isPufByte a)
    (h : commandBytes s i a) : i = .zeroize := by
  have hrun (kind : RunKind) : ¬isRunByte kind a := by
    simp only [isRunByte, isKeyByte, isHelperByte, isPufByte] at ha ⊢
    omega
  cases i with
  | encode b => exact absurd (isRunByte_of_isRunPair h) (hrun _)
  | decode b => exact absurd (isRunByte_of_isRunPair h) (hrun _)
  | enroll => exact absurd h (hrun _)
  | recon => exact absurd h (hrun _)
  | cont =>
    obtain ⟨kind, -, hb⟩ := h
    exact absurd hb (hrun kind)
  | zeroize => rfl

/-- A helper address is no `KEY` byte and no `PUFBUF` byte. -/
theorem not_isKeyByte_helperAddr {i : Nat} (hi : i < 16) : ¬isKeyByte (helperAddr i) := by
  simp only [isKeyByte, helperAddr]; omega

theorem not_isPufByte_helperAddr {i : Nat} (hi : i < 16) : ¬isPufByte (helperAddr i) := by
  simp only [isPufByte, helperAddr]; omega

/-- A run writes a `HELPER` byte in an enrollment only. -/
theorem eq_enroll_of_isRunByte_helper {kind : RunKind} {j : Nat} (hj : j < 16)
    (h : isRunByte kind (helperAddr j)) : kind = .enroll :=
  h.elim (fun hk => absurd hk (not_isKeyByte_helperAddr hj)) And.left

/-- The commands that write `HELPER[j]` (R22). -/
theorem commandBytes_helper_cases {s : State} {i : Instr} {j : Nat} (hj : j < 16)
    (h : commandBytes s i (helperAddr j)) :
    (∃ b : BlockIdx, i = .encode b ∧ j / 2 = b.val) ∨ i = .enroll ∨ (i = .cont ∧ s.phase = .pausedEnroll) := by
  cases i with
  | encode b =>
    rcases h with hk | ⟨-, hh⟩
    · exact absurd (isKeyByte_of_isKeyPair hk) (not_isKeyByte_helperAddr hj)
    · refine .inl ⟨b, rfl, ?_⟩
      simp only [isHelperPair, helperAddr] at hh
      omega
  | decode b => cases eq_enroll_of_isRunByte_helper hj (isRunByte_of_isRunPair h)
  | enroll => exact .inr (.inl rfl)
  | recon => cases eq_enroll_of_isRunByte_helper hj h
  | cont =>
    obtain ⟨kind, hphase, hb⟩ := h
    exact .inr (.inr ⟨rfl, by rw [hphase, eq_enroll_of_isRunByte_helper hj hb]; rfl⟩)
  | zeroize => exact absurd h (not_or.2 ⟨not_isKeyByte_helperAddr hj, not_isPufByte_helperAddr hj⟩)

/-- `KEY[j]` is written for its own sub-block only: in a run pair of sub-block `b` it is one of the key pair. -/
theorem div_two_of_isRunPair_key {kind : RunKind} {b : BlockIdx} {j : Nat} (h : isRunPair kind b (keyAddr j)) :
    j / 2 = b.val := by
  have := b.isLt
  simp only [isRunPair, isKeyPair, isHelperPair, keyAddr, helperAddr] at h
  omega

/-- The commands that write `KEY[j]` (R23). -/
theorem commandBytes_key_cases {s : State} {i : Instr} {j : Nat} (h : commandBytes s i (keyAddr j)) :
    (∃ b : BlockIdx, (i = .encode b ∨ i = .decode b) ∧ j / 2 = b.val) ∨
      i = .enroll ∨ i = .recon ∨ i = .cont ∨ i = .zeroize := by
  cases i with
  | encode b => exact .inl ⟨b, .inl rfl, div_two_of_isRunPair_key h⟩
  | decode b => exact .inl ⟨b, .inr rfl, div_two_of_isRunPair_key h⟩
  | enroll => simp
  | recon => simp
  | cont => simp
  | zeroize => simp

/-- Settles O13, by what can change a stored byte and which commands write which buffer. -/
theorem buffersChangeOnlyByTheirWriters : Obligations.BuffersChangeOnlyByTheirWriters := by
  unfold Obligations.BuffersChangeOnlyByTheirWriters
  intro s t h hr
  refine ⟨fun a ha hne => ?_, fun j hj hne => ?_, fun j hj hne => ?_⟩
  · have hpuf : isPufByte (pufAddr a) := ⟨by simp [pufAddr], by simp [pufAddr]; omega⟩
    rcases byte_changed_cases h hr hne with ⟨v, rest, hp, hidle, -⟩ | ⟨c, rest, i, hp, hc, hb⟩
    · exact .inl ⟨v, rest, hp, hidle⟩
    · exact .inr ⟨c, rest, hp, by rw [hc, eq_zeroize_of_commandBytes_puf hpuf hb]⟩
  · rcases byte_changed_cases h hr hne with ⟨v, rest, hp, hidle, -⟩ | ⟨c, rest, i, hp, hc, hb⟩
    · exact .inl ⟨v, rest, hp, hidle⟩
    · exact .inr ⟨c, rest, hp, by simpa only [hc, Except.ok.injEq] using commandBytes_helper_cases hj hb⟩
  · rcases byte_changed_cases h hr hne with ⟨-, -, -, -, hhost⟩ | ⟨c, rest, i, hp, hc, hb⟩
    · simp only [isHelperByte, isPufByte, keyAddr] at hhost
      omega
    · exact ⟨c, rest, hp, by simpa only [hc, Except.ok.injEq] using commandBytes_key_cases hb⟩

end Sys2Proof.Machine
end

section
/-! What steers no command (10_state.md R23, R27, R37), as a simulation: a relation that the steps of a command respect
is respected by the command. -/

namespace Sys2Proof.Machine

/-- The sub-block operation leads from related states to related states, when related states agree outside `KEY` and
storing the same outputs in both keeps them related. -/
theorem runOp_related {R : State → State → Prop}
    (hsame : ∀ s s', R s s' → s'.encStride = s.encStride ∧
      ∀ a, ¬isKeyByte a → Memory.read s'.mem a = Memory.read s.mem a)
    (hstore : ∀ kind b h k0 k1 r s s', R s s' → R (storeOutputs kind b h k0 k1 r s) (storeOutputs kind b h k0 k1 r s'))
    (kind : RunKind) (b : BlockIdx) {s s' : State} (hs : R s s') : R (runOp kind b s) (runOp kind b s') := by
  obtain ⟨h, k0, k1, r, hop⟩ := runOp_eq_storeOutputs kind b s
  obtain ⟨hstride, hm⟩ := hsame s s' hs
  rw [hop s rfl fun _ _ => rfl, hop s' hstride hm]
  exact hstore kind b h k0 k1 r s s' hs

/-- The changes that a command makes besides its sub-block operations. -/
inductive Update where
  | setErr (e : ErrCode)
  | setPhase (p : Phase)
  | setBlk (k : BlockIdx)
  | clearAccErr
  | clearHelper
  | clearKey
  | clearPuf
  | clearBres

/-- The state after an update. -/
def Update.apply : Update → State → State
  | .setErr e, s => { s with err := e }
  | .setPhase p, s => { s with phase := p }
  | .setBlk k, s => { s with blk := k }
  | .clearAccErr, s => { s with accErr := false }
  | .clearHelper, s => s.clearHelper
  | .clearKey, s => s.clearKey
  | .clearPuf, s => s.clearPuf
  | .clearBres, s => s.clearBres

/-- The relation `R` between states is respected by everything a command is made of: related states agree on what a
command decides by, and each of its operations leads from related states to related states. -/
structure CommandRespects (R : State → State → Prop) : Prop where
  control {s s' : State} : R s s' → s'.phase = s.phase ∧ s'.yieldEn = s.yieldEn ∧ s'.hlen = s.hlen ∧ s'.blk = s.blk
  update (u : Update) {s s' : State} : R s s' → R (u.apply s) (u.apply s')
  runOp (kind : RunKind) (b : BlockIdx) {s s' : State} : R s s' → R (runOp kind b s) (runOp kind b s')

section
variable {R : State → State → Prop} (hR : CommandRespects R)
include hR

theorem CommandRespects.runLoop (kind : RunKind) (fuel : Nat) :
    ∀ {s s' : State}, R s s' → R (runLoop kind fuel s) (runLoop kind fuel s') := by
  induction fuel with
  | zero => exact fun h => h
  | succ fuel ih =>
    intro s s' h
    obtain ⟨-, hy, -, hb⟩ := hR.control h
    have hnext (k : BlockIdx) := hR.update (.setBlk k) (hR.runOp kind s.blk h)
    rcases runLoop_succ (s := s) kind fuel with ⟨h7, e⟩ | ⟨h7, hyield, e⟩ | ⟨h7, hyield, e⟩
    · rw [e, runLoop_of_last kind fuel (hb.trans h7), hb]
      exact hR.update (.setPhase .idle) (hnext 0)
    · rw [e, runLoop_of_yield kind fuel (hb.trans_ne h7) (hy.trans hyield), hb]
      exact hR.update (.setPhase (pausedPhase kind)) (hnext (s.blk + 1))
    · rw [e, runLoop_of_no_yield kind fuel (hb.trans_ne h7) (hy.trans hyield), hb]
      exact ih (hnext (s.blk + 1))

theorem CommandRespects.runBlocks (kind : RunKind) {s s' : State} (h : R s s') :
    R (runBlocks kind s) (runBlocks kind s') :=
  hR.runLoop kind 8 h

theorem CommandRespects.acceptance (i : Instr) {s s' : State} (h : R s s') : acceptance i s' = acceptance i s := by
  obtain ⟨hphase, -, hlen, -⟩ := hR.control h
  cases i <;> simp only [Machine.acceptance, hphase, hlen]

/-- From related states a command has related effects. -/
theorem CommandRespects.commandEffect {i : Instr} {s s' t : State} (h : R s s') (ht : CommandEffect s i t) :
    ∃ t', CommandEffect s' i t' ∧ R t t' := by
  obtain ⟨hphase, -, hlen', -⟩ := hR.control h
  have haccept : R s.accept s'.accept := hR.update (.setErr .ok) h
  have hkey : R s.accept.clearKey s'.accept.clearKey := hR.update .clearKey haccept
  cases ht with
  | refused i hi =>
    rw [← hR.acceptance i h] at hi ⊢
    exact ⟨_, .refused i hi, hR.update (.setErr _) h⟩
  | encode b hidle => exact ⟨_, .encode b (hphase.trans hidle), hR.runOp .enroll b haccept⟩
  | decode b hidle => exact ⟨_, .decode b (hphase.trans hidle), hR.runOp .recon b haccept⟩
  | enroll hidle =>
    have hclear := hR.update .clearBres (hR.update .clearHelper hkey)
    exact ⟨_, .enroll (hphase.trans hidle), hR.runBlocks .enroll (hR.update (.setBlk 0) hclear)⟩
  | recon hidle hlen =>
    have hclear := hR.update .clearBres hkey
    exact ⟨_, .recon (hphase.trans hidle) (hlen'.trans hlen), hR.runBlocks .recon (hR.update (.setBlk 0) hclear)⟩
  | cont kind hpaused => exact ⟨_, .cont kind (hphase.trans hpaused), hR.runBlocks kind haccept⟩
  | zeroize hidle =>
    have hclear := hR.update .clearKey (hR.update .clearAccErr haccept)
    exact ⟨_, .zeroize (hphase.trans hidle), hR.update .clearBres (hR.update .clearPuf hclear)⟩

/-- From related states a command ends in related states. -/
theorem CommandRespects.exec {i : Instr} {s s' t : State} (h : R s s') (hx : exec i s = .next t) :
    ∃ t', Machine.exec i s' = .next t' ∧ R t t' := by
  obtain ⟨t', ht', hr⟩ := hR.commandEffect h (commandEffect_of_exec hx)
  exact ⟨t', exec_of_commandEffect ht', hr⟩

end

/-- The states differ in `CHAL` alone, which is `v` in the second. -/
def ChalIs (v : Byte) (s s' : State) : Prop := s' = { s with chal := v }

/-- The states differ in `ACCERR` at most. -/
def SameButAccErr (s s' : State) : Prop := ∃ a, s' = { s with accErr := a }

/-- The states differ in `BRES` at most. -/
def SameButBres (s s' : State) : Prop := ∃ r, s' = { s with bres := r }

/-- The states have canonical memories and differ in `KEY` at most. -/
def SameButKey (s s' : State) : Prop :=
  ∃ m, s' = { s with mem := m } ∧ Memory.wf s.mem ∧ Memory.wf m ∧
    ∀ a, ¬isKeyByte a → Memory.read m a = Memory.read s.mem a

theorem commandRespects_chalIs (v : Byte) : CommandRespects (ChalIs v) where
  control := by rintro s _ rfl; exact ⟨rfl, rfl, rfl, rfl⟩
  update := by rintro u s _ rfl; cases u <;> rfl
  runOp := runOp_related (by rintro s _ rfl; exact ⟨rfl, fun _ _ => rfl⟩)
    (by rintro kind b h k0 k1 r s _ rfl; cases kind <;> rfl)

theorem commandRespects_sameButAccErr : CommandRespects SameButAccErr where
  control := by rintro s _ ⟨a, rfl⟩; exact ⟨rfl, rfl, rfl, rfl⟩
  update := by rintro u s _ ⟨a, rfl⟩; cases u <;> exact ⟨_, rfl⟩
  runOp := runOp_related (by rintro s _ ⟨a, rfl⟩; exact ⟨rfl, fun _ _ => rfl⟩)
    (by rintro kind b h k0 k1 r s _ ⟨a, rfl⟩; cases kind <;> exact ⟨a, rfl⟩)

theorem commandRespects_sameButBres : CommandRespects SameButBres where
  control := by rintro s _ ⟨v, rfl⟩; exact ⟨rfl, rfl, rfl, rfl⟩
  update := by rintro u s _ ⟨v, rfl⟩; cases u <;> exact ⟨_, rfl⟩
  runOp := runOp_related (by rintro s _ ⟨v, rfl⟩; exact ⟨rfl, fun _ _ => rfl⟩)
    (by rintro kind b h k0 k1 r s _ ⟨v, rfl⟩; cases kind <;> exact ⟨v.set b.val r, rfl⟩)

/-- Erasing the same range keeps two memories alike outside `KEY`. -/
theorem SameButKey.zeroRange {s s' : State} (lo len : Nat) (h : SameButKey s s') :
    SameButKey { s with mem := Memory.zeroRange s.mem lo len } { s' with mem := Memory.zeroRange s'.mem lo len } := by
  obtain ⟨m, rfl, hs, hm, hread⟩ := h
  refine ⟨_, rfl, Memory.wf_zeroRange _ _ hs, Memory.wf_zeroRange _ _ hm, fun a ha => ?_⟩
  simp only [Memory.read_zeroRange, hread a ha]

/-- Storing the same byte keeps two memories alike outside `KEY`. -/
theorem SameButKey.write {s s' : State} (a : Nat) (v : Byte) (h : SameButKey s s') :
    SameButKey { s with mem := Memory.write s.mem a v } { s' with mem := Memory.write s'.mem a v } := by
  obtain ⟨m, rfl, hs, hm, hread⟩ := h
  refine ⟨_, rfl, Memory.wf_write _ _ hs, Memory.wf_write _ _ hm, fun a' ha => ?_⟩
  rw [Memory.read_write _ _ _ hm, Memory.read_write _ _ _ hs, hread a' ha]

theorem SameButKey.storeOutputs {s s' : State} (kind : RunKind) (b : BlockIdx) (h : HelperPair) (k0 k1 : Byte)
    (r : BlockResult) (hs : SameButKey s s') :
    SameButKey (storeOutputs kind b h k0 k1 r s) (storeOutputs kind b h k0 k1 r s') := by
  have hbres {s s' : State} (hs : SameButKey s s') : SameButKey (s.setBres b r) (s'.setBres b r) := by
    obtain ⟨m, rfl, hm⟩ := hs
    exact ⟨m, rfl, hm⟩
  cases kind with
  | enroll => exact hbres ((((hs.write _ _).write _ _).write _ _).write _ _)
  | recon => exact hbres ((hs.write _ _).write _ _)

theorem commandRespects_sameButKey : CommandRespects SameButKey where
  control := by rintro s _ ⟨m, rfl, -⟩; exact ⟨rfl, rfl, rfl, rfl⟩
  update := by
    intro u s s' hs
    cases u with
    | clearHelper | clearKey | clearPuf => exact hs.zeroRange _ _
    | setErr | setPhase | setBlk | clearAccErr | clearBres =>
      obtain ⟨m, rfl, hm⟩ := hs
      exact ⟨m, rfl, hm⟩
  runOp := runOp_related (by rintro s _ ⟨m, rfl, -, -, hread⟩; exact ⟨rfl, hread⟩)
    fun kind b h k0 k1 r _ _ hs => hs.storeOutputs kind b h k0 k1 r

/-- The value of `ERR` before a command reaches nothing (10_state.md R37): the command writes it first. -/
theorem exec_setErr (i : Instr) (s : State) (e : ErrCode) : exec i { s with err := e } = exec i s := by
  cases i <;> rfl

/-- Settles O35: `CHAL`, `ACCERR`, `BRES` and `KEY` each by a relation that commands respect. -/
theorem flagsAndChallengeSteerNothing : Obligations.FlagsAndChallengeSteerNothing := by
  unfold Obligations.FlagsAndChallengeSteerNothing
  intro i s t h
  refine ⟨fun v => ?_, fun e => (exec_setErr i s e).trans h, fun a => ?_, fun r => ?_, fun m hs hm hread => ?_⟩
  · obtain ⟨_, hx, rfl⟩ := (commandRespects_chalIs v).exec rfl h
    exact hx
  · obtain ⟨_, hx, a', rfl⟩ := commandRespects_sameButAccErr.exec ⟨a, rfl⟩ h
    exact ⟨a', hx⟩
  · obtain ⟨_, hx, r', rfl⟩ := commandRespects_sameButBres.exec ⟨r, rfl⟩ h
    exact ⟨r', hx⟩
  · obtain ⟨_, hx, m', rfl, -, -, hread'⟩ := commandRespects_sameButKey.exec ⟨m, rfl, hs, hm, hread⟩ h
    exact ⟨m', hx, hread'⟩

end Sys2Proof.Machine
end

section
/-! What the registers read as (10_state.md R25, R30 to R32), in every state and after reset. -/

namespace Sys2Proof.Machine

/-! ### The two computed views -/

theorem readWindow_toterr (s : State) : readWindow s 0x006#10 = toterrByte s := rfl

theorem readWindow_result (s : State) : readWindow s 0x007#10 = resultByte s := rfl

theorem readWindow_status (s : State) : readWindow s 0x001#10 = statusByte s := rfl

theorem readWindow_bres (s : State) (b : BlockIdx) :
    readWindow s (BitVec.ofNat 10 (0x008 + b.val)) = bresByte (s.bres.get b) := by
  rw [readWindow, locOf_bres]

/-- The entries of `BRES` in order (R30). -/
theorem toList_bres (s : State) : s.bres.toList = List.ofFn fun b : Fin 8 => s.bres.get b := by
  apply List.ext_getElem
  · simp
  · intro i h1 h2
    rw [List.getElem_ofFn, Vector.getElem_toList]
    rfl

/-- The total is the sum of the eight counts (R31). -/
theorem totalErrors_eq_sum (s : State) : totalErrors s = ∑ b : Fin 8, (s.bres.get b).count.toNat := by
  rw [totalErrors, toList_bres, List.map_ofFn, List.sum_ofFn]
  rfl

/-- A count is at most 3 (R30), so that the total is at most 24 (R31). -/
theorem totalErrors_le (s : State) : totalErrors s ≤ 24 := by
  have hcount (b : Fin 8) : (s.bres.get b).count.toNat ≤ 3 := Nat.le_of_lt_succ (s.bres.get b).count.isLt
  calc totalErrors s = ∑ b : Fin 8, (s.bres.get b).count.toNat := totalErrors_eq_sum s
    _ ≤ ∑ _b : Fin 8, 3 := Finset.sum_le_sum fun b _ => hcount b
    _ = 24 := rfl

/-- `TOTERR` holds the total, which fits a byte. -/
theorem toNat_toterrByte (s : State) : (toterrByte s).toNat = totalErrors s := by
  rw [toterrByte, BitVec.toNat_ofNat, Nat.mod_eq_of_lt]
  have := totalErrors_le s
  omega

/-- Settles O57, by the total as a sum of eight counts of at most 3. -/
theorem toterrReadsTheSumOfCounts : Obligations.ToterrReadsTheSumOfCounts := by
  unfold Obligations.ToterrReadsTheSumOfCounts
  intro s
  rw [readWindow_toterr, toNat_toterrByte]
  exact ⟨totalErrors_eq_sum s, totalErrors_le s⟩

/-- Some sub-block has the class `c` (R32). -/
theorem anyClass_iff (s : State) (c : BlockClass) : anyClass s c = true ↔ ∃ b : Fin 8, (s.bres.get b).cls = c := by
  simp only [anyClass, toList_bres, List.any_eq_true, decide_eq_true_eq, List.mem_ofFn', Set.exists_range_iff]

theorem not_anyClass {s : State} {c : BlockClass} (h : ∀ b : Fin 8, (s.bres.get b).cls ≠ c) :
    ¬anyClass s c = true :=
  fun hany => ((anyClass_iff s c).1 hany).elim h

/-- Settles O58, by the first class that some sub-block has. -/
theorem resultReadsTheOverallClass : Obligations.ResultReadsTheOverallClass := by
  unfold Obligations.ResultReadsTheOverallClass
  intro s
  simp only [readWindow_result, resultByte, overallClass]
  refine ⟨fun hu => ?_, fun hu hn => ?_, fun hnot hc => ?_, fun hclean => ?_⟩
  · rw [if_pos ((anyClass_iff s _).2 hu)]
    rfl
  · rw [if_neg (not_anyClass hu), if_pos ((anyClass_iff s _).2 hn)]
    rfl
  · rw [if_neg (not_anyClass fun b => (hnot b).1), if_neg (not_anyClass fun b => (hnot b).2),
      if_pos ((anyClass_iff s _).2 hc)]
    rfl
  · have other {c : BlockClass} (hc : BlockClass.clean ≠ c) : ¬anyClass s c = true :=
      not_anyClass fun b hb => hc ((hclean b).symm.trans hb)
    rw [if_neg (other (by decide)), if_neg (other (by decide)), if_neg (other (by decide))]
    rfl

/-! ### The layouts -/

/-- The fields of a byte packed as `STATUS` is (R25). -/
theorem statusLayout : ∀ (x : Bool) (e : BitVec 3) (p : BitVec 2),
    let v : Byte := 0#1 ++ BitVec.ofBool x ++ e ++ 0#1 ++ p
    v.extractLsb' 0 2 = p ∧ v.getLsbD 2 = false ∧ v.extractLsb' 3 3 = e ∧ v.getLsbD 6 = x ∧ v.getLsbD 7 = false := by
  decide

/-- The fields of a byte packed as `BRES` is (R30). -/
theorem bresLayout : ∀ c n : BitVec 2,
    let v : Byte := c ++ 0#4 ++ n
    v.extractLsb' 6 2 = c ∧ v.extractLsb' 2 4 = 0#4 ∧ v.extractLsb' 0 2 = n := by
  decide

/-- Settles O59, by the two layouts and the six values of `BRES`. -/
theorem statusFieldsStandWhereTheTableSays : Obligations.StatusFieldsStandWhereTheTableSays := by
  unfold Obligations.StatusFieldsStandWhereTheTableSays
  intro s
  simp only [readWindow_status, readWindow_bres]
  obtain ⟨hphase, h2, herr, hacc, h7⟩ := statusLayout s.accErr (errBits s.err) (phaseCode s.phase)
  refine ⟨hphase.trans ?_, h2, herr.trans ?_, hacc, h7, fun b => ?_⟩
  · cases s.phase <;> rfl
  · cases s.err <;> rfl
  · obtain ⟨hcls, hzero, hcount⟩ := bresLayout (classCode (s.bres.get b).cls) (s.bres.get b).count
    refine ⟨hcls.trans ?_, hzero, hcount, bresByte_mem_bresValues _⟩
    cases (s.bres.get b).cls <;> rfl

/-! ### The reset state -/

/-- Whether a location is an entry of a ROM table (R33). -/
def Loc.isRom : Loc → Bool
  | .alphaTo _ => true
  | .indexOf _ => true
  | .gpoly _ => true
  | _ => false

set_option maxRecDepth 10000 in
/-- The ROM tables stand at `0x040..0x08F` (20_memory.md R65). -/
theorem isRom_locOf : ∀ a : Addr, (locOf a).isRom = true → 0x040 ≤ a.toNat ∧ a.toNat < 0x090 := by decide

/-- A location outside the ROM tables reads `0x00` after reset (10_state.md R38). -/
theorem readWindow_reset {a : Addr} (h : (locOf a).isRom = false) : readWindow State.reset a = 0x00#8 := by
  rw [readWindow]
  cases hl : locOf a with
  | alphaTo => rw [hl] at h; cases h
  | indexOf => rw [hl] at h; cases h
  | gpoly => rw [hl] at h; cases h
  | bres b => simp [State.reset, Vector.get_eq_getElem]; rfl
  | _ => rfl

/-- Settles O7: an address outside `0x040..0x08F` names no ROM entry. -/
theorem everyAddressReadsZeroAfterReset : Obligations.EveryAddressReadsZeroAfterReset := by
  unfold Obligations.EveryAddressReadsZeroAfterReset
  intro a ha
  exact readWindow_reset (Bool.eq_false_iff.2 fun hrom => ha (isRom_locOf a hrom))

/-- A state that is not paused has no outputs of a paused run to hold. -/
theorem pausedOutputs_of_idle {s : State} (h : s.phase = .idle) : s.PausedOutputs where
  enrollDone hp := absurd (h.symm.trans hp) (by decide)
  enrollPending hp := absurd (h.symm.trans hp) (by decide)
  reconDone hp := absurd (h.symm.trans hp) (by decide)
  reconPending hp := absurd (h.symm.trans hp) (by decide)

/-- Settles O16: the reset state is what a reset leaves of itself, and it is idle. -/
theorem invariantHoldsAtReset : Obligations.InvariantHoldsAtReset := by
  unfold Obligations.InvariantHoldsAtReset
  exact ⟨inv_resetBlock State.reset, pausedOutputs_of_idle rfl⟩

/-! ### The issue of a command -/

/-- Every command's byte decodes to the command (30_encoding.md R91, R92). -/
theorem decode_encode (i : Instr) : decode (encode i) = .ok i := by
  cases i with
  | encode b => revert b; decide
  | decode b => revert b; decide
  | enroll | recon | cont | zeroize => decide

/-- A write to `CMD` of a byte that decodes to `i` runs `i` (10_state.md R24). -/
theorem step_of_decode {s : State} {c : Byte} {rest : List HostAction} {i : Instr}
    (h : s.pending = .write 0x000#10 c :: rest) (hc : decode c = .ok i) : step s = exec i (takeAction s rest) := by
  rw [step_command h, issueCommand_of_decode _ hc]

/-- Settles O5; `withFetchWord` queues the write of the command's byte. -/
theorem stepRunsTheDecodedCommand : Obligations.StepRunsTheDecodedCommand := by
  unfold Obligations.StepRunsTheDecodedCommand
  refine ⟨fun s c rest i h hc => step_of_decode h hc, fun s i => ?_⟩
  have hword : BitVec.ofNat 8 ((encode i).toNat % 2 ^ 8) = encode i := by
    rw [Nat.mod_eq_of_lt (encode i).isLt, BitVec.ofNat_toNat, BitVec.setWidth_eq]
  have hpending := State.withFetchWord_pending s 8 (encode i).toNat
  rw [hword] at hpending
  exact step_of_decode hpending (decode_encode i)

end Sys2Proof.Machine
end

section
/-! The 20_memory.md statements: what a read returns, what a write does, and that the single sub-block commands are
idempotent. -/

namespace Sys2Proof.Machine

/-! ### Reads of the map (20_memory.md R62, R65) -/

/-- A ROM bit reads as its byte (10_state.md R33). -/
theorem ofBool_zeroExtended (x : Bool) : 0#7 ++ BitVec.ofBool x = if x then 0x01#8 else 0x00#8 := by
  cases x <;> rfl

/-- A reserved location reads `0x00`. -/
theorem readWindow_of_reserved {s : State} {a : Addr} (h : locOf a = .reserved) : readWindow s a = 0x00#8 := by
  rw [readWindow, h]

/-- Settles O8, by the map region by region. -/
theorem readReturnsTheMappedByteAndChangesNothing : Obligations.ReadReturnsTheMappedByteAndChangesNothing := by
  unfold Obligations.ReadReturnsTheMappedByteAndChangesNothing
  refine ⟨fun s a rest h => step_read h, fun s => ⟨rfl, readWindow_status s, rfl, rfl, rfl, rfl, readWindow_toterr s,
    readWindow_result s, readWindow_bres s, fun i => ?_, fun i => ?_, fun i => ?_, fun i => ?_, fun i => ?_, fun i => ?_,
    fun a ha => readWindow_of_reserved (locOf_reserved a ha)⟩⟩
  · rw [readWindow, locOf_helper]
  · rw [readWindow, locOf_key]
  · rw [readWindow, locOf_alphaTo]
  · rw [readWindow, locOf_indexOf]
  · rw [readWindow, locOf_gpoly]
    exact ofBool_zeroExtended _
  · rw [readWindow, locOf_puf]

/-! ### Ignored writes (R64) -/

/-- A write elsewhere than to `CMD` sets `ACCERR` and changes nothing else, unless the location is writable and the block
idle. -/
theorem step_ignored_write {s : State} {a : Addr} {v : Byte} {rest : List HostAction}
    (h : s.pending = .write a v :: rest) (h0 : a ≠ 0x000#10) (hn : ¬(isHostWritable a ∧ s.phase = .idle)) :
    step s = .next { takeAction s rest with accErr := true } := by
  have hignored : writeWindow (takeAction s rest) a v = ignoreWrite (takeAction s rest) := by
    by_cases hw : isHostWritable a
    · exact writeWindow_of_paused v h0 fun hidle => hn ⟨hw, hidle⟩
    · exact writeWindow_of_not_writable v h0 fun hl => hw ((isHostWritable_iff a).2 hl)
  rw [step_write h h0, hignored]
  rfl

theorem ne_cmd_of_isHostWritable {a : Addr} (h : isHostWritable a) : a ≠ 0x000#10 := by
  rintro rfl
  exact absurd ((isHostWritable_iff _).1 h) (by decide)

/-- Settles O10: each of its writes goes elsewhere than to `CMD`, and is to no writable location or to a paused block. -/
theorem ignoredWriteSetsOnlyAccErr : Obligations.IgnoredWriteSetsOnlyAccErr := by
  unfold Obligations.IgnoredWriteSetsOnlyAccErr
  rintro s a v rest h (hro | ⟨hw, hpaused⟩)
  · obtain ⟨h0, hl⟩ := (isReadOnlyOrReserved_iff a).1 hro
    exact step_ignored_write h h0 fun hw => hl ((isHostWritable_iff a).1 hw.1)
  · exact step_ignored_write h (ne_cmd_of_isHostWritable hw) fun hidle => hpaused hidle.2

/-! ### Writes that are taken (R63 (b)) -/

/-- The address of `CTRL` (R65). -/
theorem eq_of_locOf_ctrl {a : Addr} (h : locOf a = .ctrl) : a = 0x002#10 := by
  revert a; decide

/-- The address of `CHAL` (R65). -/
theorem eq_of_locOf_chal {a : Addr} (h : locOf a = .chal) : a = 0x003#10 := by
  revert a; decide

/-- The address of `HLEN` (R65). -/
theorem eq_of_locOf_hlen {a : Addr} (h : locOf a = .hlen) : a = 0x004#10 := by
  revert a; decide

/-- `CTRL` keeps bit 0 of a byte written to it (10_state.md R26). -/
theorem ctrlByte_of_getLsbD : ∀ v : Byte, 0#7 ++ BitVec.ofBool (v.getLsbD 0) = v &&& 0x01#8 := by decide

/-- A location of a buffer reads its stored byte. -/
theorem readWindow_of_byteAddr (s : State) {a : Addr} {n : Nat} (h : (locOf a).byteAddr = some n) :
    readWindow s a = Memory.read s.mem n := by
  rw [readWindow]
  cases hl : locOf a with
  | helper | key | puf =>
    rw [hl] at h
    cases h
    rfl
  | _ =>
    rw [hl] at h
    cases h

/-- The window reads alike in two states that differ in what the host may write, at every address whose own register or
stored byte is alike. -/
theorem readWindow_congr {s : State} {a : Addr} {m : Memory} {y : Bool} {c n : Byte}
    (hmem : ∀ k, (locOf a).byteAddr = some k → Memory.read m k = Memory.read s.mem k)
    (hctrl : locOf a = .ctrl → y = s.yieldEn) (hchal : locOf a = .chal → c = s.chal)
    (hhlen : locOf a = .hlen → n = s.hlen) :
    readWindow { s with mem := m, yieldEn := y, chal := c, hlen := n } a = readWindow s a := by
  simp only [readWindow]
  cases hl : locOf a with
  | ctrl => rw [ctrlByte, hctrl hl]; rfl
  | chal => exact hchal hl
  | hlen => exact hhlen hl
  | helper | key | puf => exact hmem _ (by rw [hl]; rfl)
  | _ => rfl

/-- While idle a writable location takes the byte (bit 0 of it at `CTRL`), and every other address reads as before. -/
theorem readWindow_writeEffect {s t : State} {a : Addr} {v : Byte} (hm : Memory.wf s.mem) (hw : isHostWritable a)
    (hidle : s.phase = .idle) (h : WriteEffect s a v t) :
    readWindow t a = (if a = 0x002#10 then v &&& 0x01#8 else v) ∧
      ∀ a', a' ≠ a → readWindow t a' = readWindow s a' := by
  cases h with
  | ignored hn => exact absurd ⟨hw, hidle⟩ hn
  | ctrl _ ha =>
    obtain rfl := eq_of_locOf_ctrl ha
    exact ⟨ctrlByte_of_getLsbD v, fun a' hne => readWindow_congr (fun _ _ => rfl)
      (fun h => absurd (eq_of_locOf_ctrl h) hne) (fun _ => rfl) (fun _ => rfl)⟩
  | chal _ ha =>
    obtain rfl := eq_of_locOf_chal ha
    exact ⟨rfl, fun a' hne => readWindow_congr (fun _ _ => rfl) (fun _ => rfl)
      (fun h => absurd (eq_of_locOf_chal h) hne) (fun _ => rfl)⟩
  | hlen _ ha =>
    obtain rfl := eq_of_locOf_hlen ha
    exact ⟨rfl, fun a' hne => readWindow_congr (fun _ _ => rfl) (fun _ => rfl) (fun _ => rfl)
      (fun h => absurd (eq_of_locOf_hlen h) hne)⟩
  | byte _ _ hs =>
    constructor
    · have h2 : a ≠ 0x002#10 := by rintro rfl; exact absurd hs (by decide)
      rw [readWindow_of_byteAddr _ ((byteAddr_locOf a).trans (if_pos hs)), if_neg h2]
      exact Memory.read_write_self _ _ hm
    · refine fun a' hne => readWindow_congr (fun k hk => ?_) (fun _ => rfl) (fun _ => rfl) (fun _ => rfl)
      obtain ⟨rfl, -⟩ := toNat_of_byteAddr hk
      exact Memory.read_write_ne v fun he => hne (BitVec.eq_of_toNat_eq he)

/-- A host write leaves the parameter and the port alone. -/
theorem keepsPort_writeEffect {s t : State} {a : Addr} {v : Byte} (h : WriteEffect s a v t) :
    t.encStride = s.encStride ∧ t.pending = s.pending ∧ t.rdata = s.rdata := by
  cases h <;> exact ⟨rfl, rfl, rfl⟩

/-- The window does not show the port. -/
theorem readWindow_takeAction (s : State) (rest : List HostAction) (a : Addr) :
    readWindow (takeAction s rest) a = readWindow s a := rfl

/-- Settles O9: the command by its byte, the write that is taken by its effect on the window, and the ignored write. -/
theorem writeDoesOneOfThreeThings : Obligations.WriteDoesOneOfThreeThings := by
  unfold Obligations.WriteDoesOneOfThreeThings
  intro s a v rest hm h
  refine ⟨?_, fun hw hidle => ?_, fun h0 hn => step_ignored_write h h0 hn⟩
  · rintro rfl
    exact ⟨fun i hi => step_of_decode h hi, fun hc => by rw [step_command h, issueCommand_of_illegal _ hc]⟩
  · have h0 := ne_cmd_of_isHostWritable hw
    have heffect := writeWindow_writeEffect (s := takeAction s rest) v h0
    obtain ⟨hself, hother⟩ := readWindow_writeEffect (s := takeAction s rest) hm hw hidle heffect
    exact ⟨_, step_write h h0, hself, hother, keepsPort_writeEffect heffect⟩

/-! ### Idempotency (20_memory.md R68) -/

/-- Writing back the byte that an address reads changes nothing. -/
theorem Memory.write_read {m : Memory} (a : Nat) (hm : Memory.wf m) : Memory.write m a (Memory.read m a) = m :=
  Memory.ext_of_read (Memory.wf_write _ _ hm) hm fun a' => by
    rw [Memory.read_write _ _ _ hm, ite_eq_right_iff]
    exact fun he => by rw [he]

theorem setHelper_helper {s : State} (i : Nat) (hm : Memory.wf s.mem) : s.setHelper i (s.helper i) = s := by
  rw [State.setHelper, State.helper, Memory.write_read _ hm]

theorem setKey_key {s : State} (i : Nat) (hm : Memory.wf s.mem) : s.setKey i (s.key i) = s := by
  rw [State.setKey, State.key, Memory.write_read _ hm]

/-- Writing back a sub-block's helper pair changes nothing. -/
theorem writeHelper_readHelper {s : State} (b : BlockIdx) (hm : Memory.wf s.mem) :
    writeHelper s b (readHelper s b) = s := by
  rw [writeHelper, readHelper, setHelper_helper _ hm, setHelper_helper _ hm]

/-- Writing back a sub-block's key pair changes nothing. -/
theorem writeKey_key {s : State} (b : BlockIdx) (hm : Memory.wf s.mem) :
    writeKey s b (s.key (2 * b.val)) (s.key (2 * b.val + 1)) = s := by
  rw [writeKey, setKey_key _ hm, setKey_key _ hm]

/-- Setting a result to what it is changes nothing. -/
theorem setBres_get (s : State) (b : BlockIdx) : s.setBres b (s.bres.get b) = s := by
  rw [State.setBres, Vector.get_eq_getElem, Vector.set_getElem_self]

/-- The sub-block operation changes nothing where the sub-block is done. -/
theorem runOp_of_doneBlock {kind : RunKind} {b : BlockIdx} {s : State} (hm : Memory.wf s.mem)
    (h : s.DoneBlock kind b) : runOp kind b s = s := by
  cases kind with
  | enroll =>
    obtain ⟨hh, hk0, hk1, hr⟩ := h
    rw [runOp, encBlock, ← hh, writeHelper_readHelper b hm, ← hk0, ← hk1, writeKey_key b hm, ← hr, setBres_get]
  | recon =>
    obtain ⟨hk0, hk1, hr⟩ := h
    rw [runOp, decBlock, ← hk0, ← hk1, writeKey_key b hm, ← hr, setBres_get]

/-- Accepting the command again changes nothing after the sub-block operation. -/
theorem accept_runOp_accept (kind : RunKind) (b : BlockIdx) (s : State) :
    (runOp kind b s.accept).accept = runOp kind b s.accept := by
  rw [runOp_rest]
  rfl

/-- The sub-block operation of a command, issued twice, is the operation issued once. -/
theorem runOp_accept_idem (kind : RunKind) (b : BlockIdx) {s : State} (hm : Memory.wf s.mem) :
    runOp kind b (runOp kind b s.accept).accept = runOp kind b s.accept := by
  rw [accept_runOp_accept]
  exact runOp_of_doneBlock (wf_runOp kind b hm) (doneBlock_runOp kind b hm)

/-- Settles O27: the first command leaves the block idle and its sub-block done, where its operation changes nothing. -/
theorem singleBlockCommandsAreIdempotent : Obligations.SingleBlockCommandsAreIdempotent := by
  unfold Obligations.SingleBlockCommandsAreIdempotent
  intro s b hm hidle
  have hidle' (kind : RunKind) : (runOp kind b s.accept).phase = .idle :=
    (keepsSequencer_runOp kind b s.accept).1.trans hidle
  refine ⟨⟨_, exec_of_commandEffect (.encode b hidle), ?_⟩, ⟨_, exec_of_commandEffect (.decode b hidle), ?_⟩⟩
  · have h := exec_of_commandEffect (.encode b (hidle' .enroll))
    rwa [runOp_accept_idem .enroll b hm] at h
  · have h := exec_of_commandEffect (.decode b (hidle' .recon))
    rwa [runOp_accept_idem .recon b hm] at h

end Sys2Proof.Machine
end

section
/-! The 30_encoding.md statements: the command byte and its twenty legal values, and what the lines of a host program
stand for. -/

namespace Sys2Proof.Machine

/-! ### The command byte (R90 to R92) -/

/-- The field `B` is the low three bits of the byte (R90). -/
theorem val_fieldB (c : Byte) : (fieldB c).val = (c &&& 0x07#8).toNat :=
  Nat.mod_eq_of_lt (Nat.lt_of_le_of_lt Nat.and_le_right (by decide))

/-- A byte is its upper five bits plus its low three. -/
theorem and_add_and_low (c : Byte) : (c &&& 0xF8#8) + BitVec.ofNat 8 (c &&& 0x07#8).toNat = c := by
  revert c; decide

/-- The masks of R92 part a byte into the pattern of its row and the field `B`. -/
theorem add_ofNat_eq_iff {p c : Byte} (hp : p &&& 0x07#8 = 0x00#8) (b : BlockIdx) :
    p + BitVec.ofNat 8 b.val = c ↔ c &&& 0xF8#8 = p ∧ b.val = (c &&& 0x07#8).toNat := by
  constructor
  · rintro rfl
    revert p b; decide
  · rintro ⟨rfl, hb⟩
    rw [hb, and_add_and_low]

theorem encode_encode_eq_iff (b : BlockIdx) (c : Byte) :
    encode (.encode b) = c ↔ c &&& 0xF8#8 = 0x10#8 ∧ b.val = (c &&& 0x07#8).toNat :=
  add_ofNat_eq_iff (by decide) b

theorem encode_decode_eq_iff (b : BlockIdx) (c : Byte) :
    encode (.decode b) = c ↔ c &&& 0xF8#8 = 0x20#8 ∧ b.val = (c &&& 0x07#8).toNat :=
  add_ofNat_eq_iff (by decide) b

/-- A byte that decodes to a command is the command's byte: no bit of it is dropped. -/
theorem encode_of_decode {c : Byte} {i : Instr} (h : decode c = .ok i) : encode i = c := by
  unfold decode at h
  split_ifs at h with hencode hdecode henroll hrecon hcont hzeroize <;> cases h
  · exact (encode_encode_eq_iff _ c).2 ⟨hencode, val_fieldB c⟩
  · exact (encode_decode_eq_iff _ c).2 ⟨hdecode, val_fieldB c⟩
  · exact henroll.symm
  · exact hrecon.symm
  · exact hcont.symm
  · exact hzeroize.symm

theorem decode_eq_ok_iff (c : Byte) (i : Instr) : decode c = .ok i ↔ encode i = c :=
  ⟨encode_of_decode, fun h => h ▸ decode_encode i⟩

/-- Settles O2: `decode_encode` one way, `encode_of_decode` the other. -/
theorem encodingAndDecodingAreInverse : Obligations.EncodingAndDecodingAreInverse := decode_eq_ok_iff

/-- Settles O1: a byte decodes to a command when it is the command's byte, which R92's masks tell. -/
theorem maskAndMatchDecodeEachCommand : Obligations.MaskAndMatchDecodeEachCommand := by
  unfold Obligations.MaskAndMatchDecodeEachCommand
  intro c
  simp only [decode_eq_ok_iff]
  exact ⟨fun b => encode_encode_eq_iff b c, fun b => encode_decode_eq_iff b c, eq_comm, eq_comm, eq_comm, eq_comm⟩

/-- Settles O4: each word is the byte of its command. -/
theorem wordsOfTheTableDecode : Obligations.WordsOfTheTableDecode :=
  ⟨decode_encode (.encode 3), decode_encode (.decode 7), decode_encode .enroll, decode_encode .recon,
    decode_encode .cont, decode_encode .zeroize⟩

/-! ### The illegal bytes (R93) -/

/-- The decoder's last arm: a byte is illegal when it matches no pattern of R92. -/
theorem decode_eq_illegalCommand_iff (c : Byte) : decode c = .error .illegalCommand ↔
    c &&& 0xF8#8 ≠ 0x10#8 ∧ c &&& 0xF8#8 ≠ 0x20#8 ∧ c ≠ 0x30#8 ∧ c ≠ 0x40#8 ∧ c ≠ 0x50#8 ∧ c ≠ 0x60#8 := by
  unfold decode
  split_ifs <;> simp [*]

/-- Masking out the field `B` rounds a byte down to a multiple of eight, so that eight bytes in a row share it. -/
theorem toNat_and_high (c : Byte) : (c &&& 0xF8#8).toNat = 8 * (c.toNat / 8) := by
  revert c; decide

/-- The illegal bytes by their ranges. -/
theorem decode_eq_illegalCommand_iff_toNat (c : Byte) : decode c = .error .illegalCommand ↔
    c.toNat < 0x10 ∨ 0x70 ≤ c.toNat ∨ (0x18 ≤ c.toNat ∧ c.toNat < 0x20) ∨ (0x28 ≤ c.toNat ∧ c.toNat < 0x30) ∨
    (0x31 ≤ c.toNat ∧ c.toNat < 0x40) ∨ (0x41 ≤ c.toNat ∧ c.toNat < 0x50) ∨ (0x51 ≤ c.toNat ∧ c.toNat < 0x60) ∨
    (0x61 ≤ c.toNat ∧ c.toNat < 0x70) := by
  rw [decode_eq_illegalCommand_iff]
  simp only [BitVec.toNat_eq, Ne, toNat_and_high, BitVec.toNat_ofNat]
  omega

/-- An illegal byte written to `CMD` leaves its code in `ERR`, in every state. -/
theorem step_of_illegal {s : State} {c : Byte} {rest : List HostAction} (h : s.pending = .write 0x000#10 c :: rest)
    (hc : decode c = .error .illegalCommand) : step s = .next { takeAction s rest with err := .illegalCommand } := by
  rw [step_command h, issueCommand_of_illegal _ hc]

set_option maxRecDepth 10000 in
/-- The illegal bytes are 236. -/
theorem countP_illegal :
    (List.range 256).countP (fun n => decide (decode (BitVec.ofNat 8 n) = .error .illegalCommand)) = 236 := by
  decide

/-- Settles O3: the decoder's last arm by its ranges, their count, and the raise of `IllegalCommand`. -/
theorem illegalBytesRaiseIllegalCommand : Obligations.IllegalBytesRaiseIllegalCommand :=
  ⟨decode_eq_illegalCommand_iff_toNat, countP_illegal, fun _ _ _ => step_of_illegal⟩

/-! ### Host programs (R101, R102) -/

/-- `ENCODE b` stands for the write of `0x10 + b` to `CMD`. -/
theorem statementAction_encode {b : Nat} (hb : b < 8) :
    statementAction (.encode b) = some (.write 0x000#10 (BitVec.ofNat 8 (0x10 + b))) := by
  simp [statementAction, Statement.wf, isBlockDigit, commandWrite, encode, hb, Nat.mod_eq_of_lt hb, BitVec.ofNat_add]

/-- `DECODE b` stands for the write of `0x20 + b` to `CMD`. -/
theorem statementAction_decode {b : Nat} (hb : b < 8) :
    statementAction (.decode b) = some (.write 0x000#10 (BitVec.ofNat 8 (0x20 + b))) := by
  simp [statementAction, Statement.wf, isBlockDigit, commandWrite, encode, hb, Nat.mod_eq_of_lt hb, BitVec.ofNat_add]

/-- A run of reads stands for the reads in index order. -/
theorem mapM_readRun_ofFn (base count : Nat) (hb : base + count ≤ 0x400) :
    (readRun base count).mapM statementAction =
      some (List.ofFn fun i : Fin count => .read (BitVec.ofNat 10 (base + i.val))) := by
  rw [mapM_readRun base count hb]
  congr 1
  apply List.ext_getElem <;> simp

/-- The transactions of two lists of statements, one after the other. -/
theorem mapM_statementAction_append {p q : List Statement} {acts acts' : List HostAction}
    (hp : p.mapM statementAction = some acts) (hq : q.mapM statementAction = some acts') :
    (p ++ q).mapM statementAction = some (acts ++ acts') := by
  simp [List.mapM_append, hp, hq]

/-- `LDBLK b` stands for the writes of the four bytes at the sub-block's stride. -/
theorem mapM_expandPseudo_ldblk {b r0 r1 r2 r3 : Nat} (hb : b < 8) (h0 : r0 < 0x100) (h1 : r1 < 0x100)
    (h2 : r2 < 0x100) (h3 : r3 < 0x100) :
    (expandPseudo (.ldblk b r0 r1 r2 r3)).mapM statementAction = some
      [.write (BitVec.ofNat 10 (0x100 + 32 * b)) (BitVec.ofNat 8 r0),
       .write (BitVec.ofNat 10 (0x100 + 32 * b + 1)) (BitVec.ofNat 8 r1),
       .write (BitVec.ofNat 10 (0x100 + 32 * b + 2)) (BitVec.ofNat 8 r2),
       .write (BitVec.ofNat 10 (0x100 + 32 * b + 3)) (BitVec.ofNat 8 r3)] :=
  mapM_writeRun (0x100 + 32 * b) [r0, r1, r2, r3] (by simp; omega) (by simp [h0, h1, h2, h3])

/-- `LDHB b` stands for the writes of the sub-block's helper pair. -/
theorem mapM_expandPseudo_ldhb {b h0 h1 : Nat} (hb : b < 8) (hh0 : h0 < 0x100) (hh1 : h1 < 0x100) :
    (expandPseudo (.ldhb b h0 h1)).mapM statementAction = some
      [.write (BitVec.ofNat 10 (0x010 + 2 * b)) (BitVec.ofNat 8 h0),
       .write (BitVec.ofNat 10 (0x010 + 2 * b + 1)) (BitVec.ofNat 8 h1)] :=
  mapM_writeRun (0x010 + 2 * b) [h0, h1] (by simp; omega) (by simp [hh0, hh1])

/-- Settles O60: the rows of R101 and R102 in order, the pseudo-instructions as runs of writes and of reads. -/
theorem pseudoInstructionsExpandToTransactions : Obligations.PseudoInstructionsExpandToTransactions := by
  unfold Obligations.PseudoInstructionsExpandToTransactions
  refine ⟨fun _ => statementAction_of_not_wf, fun _ _ => statementAction_wr, fun _ => statementAction_rd,
    fun _ hb => ⟨statementAction_encode hb, statementAction_decode hb⟩, rfl, rfl, rfl, rfl,
    fun _ _ _ _ _ => mapM_expandPseudo_ldblk, fun f => ?ldpuf, fun h => ?ldhelp,
    fun _ _ _ => mapM_expandPseudo_ldhb, ?rdkey, ?rdhelp, ?rdres⟩
  case ldpuf => exact mapM_writeRun_ofFn 0x100 f (by decide)
  case ldhelp => exact mapM_statementAction_append (mapM_writeRun_ofFn 0x010 h (by decide)) rfl
  case rdkey => exact mapM_readRun_ofFn 0x020 16 (by decide)
  case rdhelp => exact mapM_readRun_ofFn 0x010 16 (by decide)
  case rdres => exact mapM_statementAction_append (mapM_readRun_ofFn 0x008 8 (by decide)) rfl

end Sys2Proof.Machine
end

section
/-! The 40_gf_tables.md statements: what `GFBuild` builds, for every order and for the ROM, and the arithmetic through
the ROM tables. -/

namespace Sys2Proof.Machine

/-! ### The powers of α (R121) -/

/-- The bits `p[0..k−1]` as a number have no bit at or above `k`. -/
theorem sum_bits_lt (b : Nat → Bool) (k : Nat) :
    ((List.range k).map fun j => if b j then 2 ^ j else 0).sum < 2 ^ k := by
  induction k with
  | zero => simp
  | succ k ih =>
    rw [List.sum_range_succ, pow_succ]
    split_ifs <;> omega

theorem fieldTaps_lt (o : FieldOperands) : fieldTaps o < 2 ^ o.m := sum_bits_lt _ o.m

/-- Multiplying by α stays within `m` bits. -/
theorem timesAlpha_lt {m taps : Nat} (htaps : taps < 2 ^ m) (a : Nat) : timesAlpha m taps a < 2 ^ m := by
  have hshifted : (a <<< 1) &&& (2 ^ m - 1) < 2 ^ m :=
    Nat.and_lt_two_pow _ (Nat.sub_one_lt (Nat.two_pow_pos m).ne')
  unfold timesAlpha
  split_ifs
  · exact Nat.xor_lt_two_pow hshifted htaps
  · exact hshifted

/-- α^i, the element that entry `i` of `alpha_to` holds (R121). -/
def fieldPower (o : FieldOperands) (i : Nat) : Nat := (timesAlpha o.m (fieldTaps o))^[i] 1

theorem fieldPower_lt (o : FieldOperands) (i : Nat) : fieldPower o i < 2 ^ o.m := by
  cases i with
  | zero => exact Nat.one_lt_two_pow (Nat.one_le_iff_ne_zero.1 o.m_pos)
  | succ i =>
    rw [fieldPower, Function.iterate_succ_apply']
    exact timesAlpha_lt (fieldTaps_lt o) _

theorem getElem?_fieldPowers (o : FieldOperands) {i : Nat} (hi : i < 2 ^ o.m) :
    (fieldPowers o)[i]? = some (fieldPower o i) :=
  List.getElem?_iterate _ _ _ _ (by omega)

theorem take_fieldPowers (o : FieldOperands) :
    (fieldPowers o).take (2 ^ o.m - 1) = (List.range (2 ^ o.m - 1)).map (fieldPower o) := by
  rw [fieldPowers, List.take_iterate, min_eq_left (Nat.le_succ _), ← List.range_map_iterate]
  rfl

/-! ### The primitivity test and the logarithms (R121, R122) -/

/-- R122's test: the leading coefficient is 1, and the powers of α below `n` are not 0 and pairwise different. -/
theorem isPrimitive_iff (o : FieldOperands) : isPrimitive o = true ↔ o.p[o.m] = true ∧
    (∀ i < 2 ^ o.m - 1, fieldPower o i ≠ 0) ∧ Set.InjOn (fieldPower o) (Set.Iio (2 ^ o.m - 1)) := by
  simp only [isPrimitive, take_fieldPowers, List.nodup_map_iff_inj_on List.nodup_range, Set.InjOn]
  simp [and_assoc]

/-- The success branch of `GFBuild` and its result. -/
theorem gfBuild_eq_ok_iff (o : FieldOperands) (f : FieldTables) : gfBuild o = .ok f ↔
    isPrimitive o = true ∧ f = ⟨2 ^ o.m - 1, fieldPowers o, fieldLogs (2 ^ o.m - 1) (fieldPowers o)⟩ := by
  unfold gfBuild
  split_ifs with h <;> simp [h, eq_comm]

/-- Writing entries of a table one after another keeps its length. -/
theorem length_foldl_set {α : Type} (addr : Nat → Nat) (val : Nat → α) (is : List Nat) (t : List α) :
    (is.foldl (fun t i => t.set (addr i) (val i)) t).length = t.length := by
  induction is generalizing t with
  | nil => rfl
  | cons i is ih => simp [ih]

/-- An entry that none of the writes names keeps its value. -/
theorem getElem?_foldl_set_of_forall_ne {α : Type} {addr : Nat → Nat} (val : Nat → α) {is : List Nat} {x : Nat}
    (h : ∀ i ∈ is, addr i ≠ x) (t : List α) :
    (is.foldl (fun t i => t.set (addr i) (val i)) t)[x]? = t[x]? := by
  induction is generalizing t with
  | nil => rfl
  | cons i is ih =>
    obtain ⟨hi, his⟩ := List.forall_mem_cons.1 h
    rw [List.foldl_cons, ih his, List.getElem?_set_ne hi]

/-- An entry that exactly one of the writes names takes its value. -/
theorem getElem?_foldl_set_of_injOn {α : Type} {addr : Nat → Nat} (val : Nat → α) {is : List Nat} {i : Nat}
    (hmem : i ∈ is) (hinj : ∀ j ∈ is, addr j = addr i → j = i) {t : List α} (hlt : addr i < t.length) :
    (is.foldl (fun t i => t.set (addr i) (val i)) t)[addr i]? = some (val i) := by
  induction is generalizing t with
  | nil => cases hmem
  | cons k is ih =>
    rw [List.foldl_cons]
    by_cases hi : i ∈ is
    · exact ih hi (fun j hj => hinj j (List.mem_cons_of_mem k hj)) (by rwa [List.length_set])
    · obtain rfl : i = k := (List.mem_cons.1 hmem).resolve_right hi
      rw [getElem?_foldl_set_of_forall_ne val fun j hj he => hi (hinj j (List.mem_cons_of_mem i hj) he ▸ hj),
        List.getElem?_set_self hlt]

theorem length_fieldLogs (n : Nat) (alphaTo : List Nat) : (fieldLogs n alphaTo).length = n + 1 :=
  (length_foldl_set _ _ _ _).trans List.length_replicate

theorem getD_fieldPowers (o : FieldOperands) {i : Nat} (hi : i < 2 ^ o.m) :
    (fieldPowers o).getD i 0 = fieldPower o i := by
  rw [List.getD_eq_getElem?_getD, getElem?_fieldPowers o hi, Option.getD_some]

section
variable {o : FieldOperands} (h : isPrimitive o = true)
include h

/-- The logarithm of zero stays the sentinel, since no power of α is zero. -/
theorem getElem?_fieldLogs_zero : (fieldLogs (2 ^ o.m - 1) (fieldPowers o))[0]? = some none := by
  obtain ⟨-, hne, -⟩ := (isPrimitive_iff o).1 h
  refine (getElem?_foldl_set_of_forall_ne _ (fun i hi => ?_) _).trans (by simp)
  have hi := List.mem_range.1 hi
  rw [getD_fieldPowers o (by omega)]
  exact hne i hi

/-- The logarithm of α^i is `i`, since no other power below `n` is α^i. -/
theorem getElem?_fieldLogs_fieldPower {i : Nat} (hi : i < 2 ^ o.m - 1) :
    (fieldLogs (2 ^ o.m - 1) (fieldPowers o))[fieldPower o i]? = some (some i) := by
  obtain ⟨-, -, hinj⟩ := (isPrimitive_iff o).1 h
  have haddr {j : Nat} (hj : j < 2 ^ o.m - 1) := getD_fieldPowers o (i := j) (by omega)
  rw [← haddr hi]
  refine getElem?_foldl_set_of_injOn some (List.mem_range.2 hi) (fun j hj he => ?_) ?_
  · have hj := List.mem_range.1 hj
    rw [haddr hj, haddr hi] at he
    exact hinj hj hi he
  · have := fieldPower_lt o i
    rw [haddr hi, List.length_replicate]
    omega

/-- Every nonzero element is a power of α: the `n` powers are different and lie among the `n` nonzero elements. -/
theorem exists_fieldPower_eq {x : Nat} (hpos : 0 < x) (hle : x ≤ 2 ^ o.m - 1) :
    ∃ i < 2 ^ o.m - 1, fieldPower o i = x := by
  obtain ⟨-, hne, hinj⟩ := (isPrimitive_iff o).1 h
  have hmaps : Set.MapsTo (fieldPower o) (Finset.range (2 ^ o.m - 1)) (Finset.Icc 1 (2 ^ o.m - 1)) := by
    intro i hi
    have hi := Finset.mem_range.1 hi
    have := hne i hi
    have := fieldPower_lt o i
    simp only [Finset.coe_Icc, Set.mem_Icc]
    omega
  have hsurj := Finset.surjOn_of_injOn_of_card_le (fieldPower o) hmaps (by simpa using hinj) (by simp)
  simpa using hsurj (by simpa using ⟨hpos, hle⟩)

end

/-- Settles O50: the tables hold the powers of α and their exponents, and the powers below `n` are exactly the nonzero
elements. -/
theorem everyBuiltFieldHasInverseTables : Obligations.EveryBuiltFieldHasInverseTables := by
  unfold Obligations.EveryBuiltFieldHasInverseTables
  intro o f hf
  obtain ⟨h, rfl⟩ := (gfBuild_eq_ok_iff o f).1 hf
  have hpair {i : Nat} (hi : i < 2 ^ o.m - 1) := And.intro
    (getElem?_fieldPowers o (i := i) (by omega)) (getElem?_fieldLogs_fieldPower h hi)
  refine ⟨rfl, List.length_iterate _ _ _, length_fieldLogs _ _, getElem?_fieldLogs_zero h,
    fun i hi => ⟨_, hpair hi⟩, fun x hpos hle => ?_⟩
  obtain ⟨i, hi, rfl⟩ := exists_fieldPower_eq h hpos hle
  exact ⟨i, hi, (hpair hi).symm⟩

/-! ### The ROM field (R120 to R124) -/

/-- Of the 32 polynomials of degree 5, R122's test accepts exactly six. -/
theorem isPrimitive_of_leading :
    ∀ p0 p1 p2 p3 p4 : Bool, isPrimitive ⟨5, by decide, #v[p0, p1, p2, p3, p4, true]⟩ =
      [[true, false, true, false, false], [true, false, false, true, false], [true, true, true, true, false],
        [true, true, true, false, true], [true, true, false, true, true], [true, false, true, true, true]].contains
          [p0, p1, p2, p3, p4] := by
  decide

/-- A polynomial without its leading coefficient fails the test. -/
theorem isPrimitive_of_not_leading {o : FieldOperands} (h : o.p[o.m] = false) : isPrimitive o = false := by
  simp [isPrimitive, h]

/-- Settles O51: without the leading coefficient the test fails at once; with it the 32 polynomials are run. -/
theorem sixPrimitivePolynomialsOfDegreeFive : Obligations.SixPrimitivePolynomialsOfDegreeFive := by
  unfold Obligations.SixPrimitivePolynomialsOfDegreeFive
  intro p0 p1 p2 p3 p4 p5
  cases p5 with
  | false => exact isPrimitive_of_not_leading rfl
  | true => exact isPrimitive_of_leading p0 p1 p2 p3 p4

theorem isPrimitive_primOperands : isPrimitive primOperands = true :=
  isPrimitive_of_leading true false true false false

/-- The recurrence from PRIM runs through the `ALPHA_TO` ROM (R123). -/
theorem fieldPowers_primOperands : fieldPowers primOperands = alphaToRom.toList.map BitVec.toNat := by decide

/-- The logarithms of the `ALPHA_TO` ROM are the `INDEX_OF` ROM (R124). -/
theorem fieldLogs_alphaToRom :
    fieldLogs 31 (alphaToRom.toList.map BitVec.toNat) = indexOfRom.toList.map (Option.map Fin.val) := by decide

/-- Settles O48: PRIM passes the test, and the two tables are the ROMs. -/
theorem fieldRomIsWhatGFBuildGives : Obligations.FieldRomIsWhatGFBuildGives := by
  refine (gfBuild_eq_ok_iff _ _).2 ⟨isPrimitive_primOperands, ?_⟩
  rw [fieldPowers_primOperands, ← fieldLogs_alphaToRom]
  rfl

/-! ### Logarithms in the ROM field (R125, R129, R130) -/

@[simp] theorem gfExp_gfLog : ∀ a : PolyForm, gfExp (gfLog a) = a := by decide

@[simp] theorem gfLog_gfExp : ∀ e : LogForm, gfLog (gfExp e) = e := by decide

/-- Settles O56: R130 is the definition of `exp`, and the tables undo each other entry by entry. -/
theorem expAndLogUndoEachOther : Obligations.ExpAndLogUndoEachOther := by
  refine ⟨rfl, fun e => ?_, gfExp_gfLog, gfLog_gfExp⟩
  simp [gfExp, alphaPow, Vector.get_eq_getElem, Nat.mod_eq_of_lt e.isLt]

/-- Powers of α with the same exponent modulo 31 are the same (R131). -/
theorem alphaPow_congr {i j : Nat} (h : i % 31 = j % 31) : alphaPow i = alphaPow j := by
  simp only [alphaPow, h]

/-- The logarithm of a power of α is its exponent modulo 31. -/
@[simp] theorem gfLog_alphaPow (i : Nat) : gfLog (alphaPow i) = some ⟨i % 31, Nat.mod_lt _ (by decide)⟩ :=
  (congrArg gfLog (alphaPow_congr (Nat.mod_mod i 31).symm)).trans (gfLog_gfExp (some ⟨i % 31, _⟩))

@[simp] theorem gfLog_zero : gfLog 0#5 = none := rfl

/-- A nonzero element is the power of α that its logarithm names. -/
theorem exists_gfLog_of_ne_zero {a : PolyForm} (ha : a ≠ 0) : ∃ e, gfLog a = some e ∧ alphaPow e.val = a := by
  have hexp := gfExp_gfLog a
  cases hlog : gfLog a with
  | none => exact absurd (by rw [← hexp, hlog]; rfl) ha
  | some e => exact ⟨e, rfl, by rw [← hexp, hlog]; rfl⟩

/-- Every element is zero or a power of α. -/
theorem eq_zero_or_eq_alphaPow (a : PolyForm) : a = 0#5 ∨ ∃ i, a = alphaPow i := by
  refine or_iff_not_imp_left.2 fun ha => ?_
  obtain ⟨e, -, he⟩ := exists_gfLog_of_ne_zero ha
  exact ⟨e.val, he.symm⟩

/-- Settles O49: a nonzero element is the power that its logarithm names, and a power below 31 has its exponent as
logarithm. -/
theorem fieldTablesAreInverse : Obligations.FieldTablesAreInverse := by
  refine ⟨fun x => exists_gfLog_of_ne_zero, rfl, fun i hi => (gfLog_alphaPow i).trans ?_⟩
  simp only [Nat.mod_eq_of_lt hi]

/-! ### Multiplication and division (R127, R128) -/

@[simp] theorem zero_gfMul (a : PolyForm) : gfMul 0#5 a = 0#5 := rfl

@[simp] theorem gfMul_zero (a : PolyForm) : gfMul a 0#5 = 0#5 := by
  unfold gfMul
  rw [gfLog_zero]
  cases gfLog a <;> rfl

/-- The product of two nonzero elements by their logarithms. -/
theorem gfMul_of_gfLog {a b : PolyForm} {x y : Fin 31} (hx : gfLog a = some x) (hy : gfLog b = some y) :
    gfMul a b = alphaPow (x.val + y.val) := by
  simp only [gfMul, hx, hy]

/-- Multiplication adds the exponents. -/
@[simp] theorem gfMul_alphaPow (i j : Nat) : gfMul (alphaPow i) (alphaPow j) = alphaPow (i + j) :=
  (gfMul_of_gfLog (gfLog_alphaPow i) (gfLog_alphaPow j)).trans (alphaPow_congr (Nat.add_mod i j 31).symm)

@[simp] theorem gfMul_one (a : PolyForm) : gfMul a 1#5 = a := by
  obtain rfl | ⟨i, rfl⟩ := eq_zero_or_eq_alphaPow a
  · rfl
  · exact gfMul_alphaPow i 0

theorem gfMul_comm (a b : PolyForm) : gfMul a b = gfMul b a := by
  obtain rfl | ⟨i, rfl⟩ := eq_zero_or_eq_alphaPow a
  · simp
  obtain rfl | ⟨j, rfl⟩ := eq_zero_or_eq_alphaPow b
  · simp
  · simp [Nat.add_comm]

theorem gfMul_assoc (a b c : PolyForm) : gfMul (gfMul a b) c = gfMul a (gfMul b c) := by
  obtain rfl | ⟨i, rfl⟩ := eq_zero_or_eq_alphaPow a
  · simp
  obtain rfl | ⟨j, rfl⟩ := eq_zero_or_eq_alphaPow b
  · simp
  obtain rfl | ⟨k, rfl⟩ := eq_zero_or_eq_alphaPow c
  · simp
  · simp [Nat.add_assoc]

/-- Settles O54: the product of two powers of α is the power of the sum of their exponents, which gives the laws. -/
theorem fieldMultiplicationThroughTheTables : Obligations.FieldMultiplicationThroughTheTables := by
  refine ⟨fun a b => ⟨?_, fun _ _ => gfMul_of_gfLog⟩, gfMul_one, gfMul_comm, gfMul_assoc⟩
  rintro (rfl | rfl)
  · exact zero_gfMul b
  · exact gfMul_zero a

theorem zero_gfDiv {b : PolyForm} (hb : b ≠ 0) : gfDiv 0#5 b = 0#5 := by
  obtain ⟨y, hy, -⟩ := exists_gfLog_of_ne_zero hb
  simp [gfDiv, hy]

/-- The quotient of two nonzero elements by their logarithms. -/
theorem gfDiv_of_gfLog {a b : PolyForm} {x y : Fin 31} (hx : gfLog a = some x) (hy : gfLog b = some y) :
    gfDiv a b = alphaPow (x.val + 31 - y.val) := by
  simp only [gfDiv, hx, hy]

/-- Multiplying the quotient by the divisor adds back the exponent that the division took off. -/
theorem gfMul_gfDiv_cancel (a : PolyForm) {b : PolyForm} (hb : b ≠ 0) : gfMul (gfDiv a b) b = a := by
  obtain ⟨y, hy, rfl⟩ := exists_gfLog_of_ne_zero hb
  obtain rfl | ha := eq_or_ne a 0#5
  · rw [zero_gfDiv hb, zero_gfMul]
  · obtain ⟨x, hx, rfl⟩ := exists_gfLog_of_ne_zero ha
    rw [gfDiv_of_gfLog hx hy, gfMul_alphaPow]
    exact alphaPow_congr (by omega)

/-- Settles O55: the quotient of two powers of α is the power of the difference of their exponents. -/
theorem fieldDivisionUndoesMultiplication : Obligations.FieldDivisionUndoesMultiplication := by
  refine fun a b hb => ⟨?_, fun _ _ => gfDiv_of_gfLog, gfMul_gfDiv_cancel a hb⟩
  rintro rfl
  exact zero_gfDiv hb

end Sys2Proof.Machine
end

section
/-! The 41_generator_rom.md statements: what `GenSynth` answers over any field, then its zeros and its product over the
ROM field. -/

namespace Sys2Proof.Machine

/-! ### The two branches of `GenSynth` (R142, R144) -/

/-- The product of the factors `x + α^z` over the zeros in order, step 3 of `GenSynth` (R145); `genSynth_of_le` ties it to
`genSynth`. -/
def synthProduct (f : FieldTables) (zeros : List Nat) : List Nat :=
  zeros.foldl (fun g z => mulLinear f g (f.alphaTo.getD z 0)) [1]

section
variable {f : FieldTables} {o : SynthOperands f.n}

theorem genSynth_of_lt (h : o.length < (synthZeros f.n o.t).length) :
    genSynth f o = .error .infeasibleCodeParameters :=
  if_pos h

theorem genSynth_of_le (h : (synthZeros f.n o.t).length ≤ o.length) :
    genSynth f o = .ok ⟨synthProduct f (synthZeros f.n o.t), (synthZeros f.n o.t).length,
      o.length - (synthZeros f.n o.t).length⟩ :=
  if_neg h.not_gt

end

/-! ### Degree and leading coefficient of the product (R145) -/

@[simp] theorem length_mulLinear (f : FieldTables) (g : List Nat) (r : Nat) :
    (mulLinear f g r).length = g.length + 1 := by
  simp [mulLinear]

/-- The leading coefficient stays, since only `g(x) · x` reaches the top degree. -/
theorem getLast?_mulLinear (f : FieldTables) {g : List Nat} {a : Nat} (hg : g.getLast? = some a) (r : Nat) :
    (mulLinear f g r).getLast? = some a := by
  obtain ⟨low, rfl⟩ := List.getLast?_eq_some_iff.1 hg
  rw [List.getLast?_eq_getElem?, length_mulLinear]
  simp [mulLinear]

/-- Each zero raises the degree by one. -/
theorem length_synthProduct (f : FieldTables) (zeros : List Nat) :
    (synthProduct f zeros).length = zeros.length + 1 := by
  induction zeros using List.reverseRecOn with
  | nil => rfl
  | append_singleton zs z ih => simpa [synthProduct] using ih

/-- The product is monic. -/
theorem getLast?_synthProduct (f : FieldTables) (zeros : List Nat) : (synthProduct f zeros).getLast? = some 1 := by
  induction zeros using List.reverseRecOn with
  | nil => rfl
  | append_singleton zs z ih =>
    rw [synthProduct, List.foldl_concat]
    exact getLast?_mulLinear f ih _

/-! ### The zeros over the ROM field (R143, R144) -/

/-- Every coset modulo 31 is selected once `2t ≥ 16`. -/
theorem exists_mem_coset_le_sixteen : ∀ c ∈ cosets 31, ∃ e ∈ c, 1 ≤ e ∧ e ≤ 16 := by decide

theorem synthZeros_of_eight_le {t : Nat} (ht : 8 ≤ t) : synthZeros 31 t = (cosets 31).flatten := by
  rw [synthZeros, List.filter_eq_self.2]
  intro c hc
  obtain ⟨e, he, hpos, hle⟩ := exists_mem_coset_le_sixteen c hc
  have hle' : e ≤ 2 * t := by omega
  simpa using ⟨e, he, hpos, hle'⟩

/-- The selection depends on `t` up to 8 only. -/
theorem synthZeros_min_eight (t : Nat) : synthZeros 31 (min t 8) = synthZeros 31 t := by
  obtain ht | ht := le_total t 8
  · rw [min_eq_left ht]
  · rw [min_eq_right ht, synthZeros_of_eight_le ht, synthZeros_of_eight_le le_rfl]

/-- The redundancy that R144 lists for every `t`; `length_synthZeros` ties it to the model. -/
def romRedundancy (t : Nat) : Nat :=
  if t = 1 then 5 else if t = 2 then 10 else if t = 3 then 15 else if t ≤ 5 then 20 else if t ≤ 7 then 25 else 30

theorem romRedundancy_of_eight_le {t : Nat} (ht : 8 ≤ t) : romRedundancy t = 30 := by
  unfold romRedundancy
  split_ifs <;> omega

theorem romRedundancy_min_eight (t : Nat) : romRedundancy (min t 8) = romRedundancy t := by
  obtain ht | ht := le_total t 8
  · rw [min_eq_left ht]
  · rw [min_eq_right ht, romRedundancy_of_eight_le ht, romRedundancy_of_eight_le le_rfl]

theorem length_synthZeros_of_le_eight :
    ∀ t ≤ 8, 1 ≤ t → (synthZeros 31 t).length = romRedundancy t := by decide

theorem length_synthZeros {t : Nat} (ht : 1 ≤ t) : (synthZeros 31 t).length = romRedundancy t := by
  rw [← synthZeros_min_eight, ← romRedundancy_min_eight]
  exact length_synthZeros_of_le_eight _ (min_le_right t 8) (le_min ht (by decide))

/-! ### The product over the ROM field (R140, R145) -/

/-- The field that `GFBuild` builds from PRIM: the two ROM tables (R123, R124). -/
def romField : FieldTables :=
  ⟨31, alphaToRom.toList.map BitVec.toNat, indexOfRom.toList.map (Option.map Fin.val)⟩

theorem gfBuild_primOperands_eq_ok_iff {f : FieldTables} : gfBuild primOperands = .ok f ↔ f = romField := by
  rw [show gfBuild primOperands = .ok romField from fieldRomIsWhatGFBuildGives, Except.ok.injEq, eq_comm]

/-- The roots for `t = 3` have the generator ROM as their product (R141). -/
theorem synthProduct_romField_three :
    synthProduct romField (synthZeros 31 3) = gpolyRom.toList.map Bool.toNat := by decide

theorem coeff_synthProduct_of_le_eight :
    ∀ t ≤ 8, ∀ x ∈ synthProduct romField (synthZeros 31 t), x = 0 ∨ x = 1 := by decide

/-- A product over whole cosets has coefficients 0 and 1. -/
theorem coeff_synthProduct_romField (t : Nat) :
    ∀ x ∈ synthProduct romField (synthZeros 31 t), x = 0 ∨ x = 1 := by
  rw [← synthZeros_min_eight]
  exact coeff_synthProduct_of_le_eight _ (min_le_right t 8)

section
variable {o : SynthOperands romField.n}

theorem genSynth_romField_of_lt (h : o.length < romRedundancy o.t) :
    genSynth romField o = .error .infeasibleCodeParameters :=
  genSynth_of_lt (h.trans_eq (length_synthZeros o.t_pos).symm)

theorem genSynth_romField_of_le (h : romRedundancy o.t ≤ o.length) :
    genSynth romField o = .ok ⟨synthProduct romField (synthZeros 31 o.t), romRedundancy o.t,
      o.length - romRedundancy o.t⟩ := by
  rw [← length_synthZeros o.t_pos] at h ⊢
  exact genSynth_of_le h

end

/-- Settles O53: the zeros are as many as R144 lists, so the length test is the redundancy test; the product over them is
monic of that degree, with coefficients 0 and 1. -/
theorem synthesisFailsExactlyWhenRedundancyExceedsLength :
    Obligations.SynthesisFailsExactlyWhenRedundancyExceedsLength := by
  unfold Obligations.SynthesisFailsExactlyWhenRedundancyExceedsLength
  intro f o hf
  obtain rfl := gfBuild_primOperands_eq_ok_iff.1 hf
  have hdegree := (length_synthProduct romField _).trans (congrArg (· + 1) (length_synthZeros o.t_pos))
  exact ⟨genSynth_romField_of_lt, fun h => ⟨_, genSynth_romField_of_le h, hdegree, getLast?_synthProduct _ _,
    coeff_synthProduct_romField o.t⟩⟩

/-- Settles O52: for `t = 3` the redundancy 15 is within the length 31, and the product of the roots is the ROM. -/
theorem generatorRomIsWhatSynthesisGives : Obligations.GeneratorRomIsWhatSynthesisGives := by
  refine ⟨romField, ⟨31, 3, by decide, le_rfl, by decide⟩, gfBuild_primOperands_eq_ok_iff.2 rfl, rfl, rfl, ?_⟩
  rw [← synthProduct_romField_three]
  exact genSynth_romField_of_le (by decide)

end Sys2Proof.Machine
end

section
/-! The 42_block_encoder.md statements on the helper pair: what `ENCODE` stores, and the helper bits one by one. -/

namespace Sys2Proof.Machine

/-! ### The perturbation bit by bit (R164, R165) -/

theorem getLsbD_unpack8_of_lt (v : Byte) {j : Nat} (hj : j < 8) : (unpack8 v).getLsbD j = v.getLsbD (7 - j) := by
  rw [getLsbD_unpack8, decide_eq_true hj, Bool.true_and]

/-- The mask of the first helper byte: `mask[0..7]` is the third byte of the reading. -/
theorem getLsbD_unpack8_perturb_h0 (p : HelperPair) (r : SubBlock) {j : Nat} (hj : j < 8) :
    (unpack8 (perturb p r).h0).getLsbD j = ((unpack8 p.h0).getLsbD j ^^ (unpackResponse r).getLsbD (16 + j)) := by
  have hbyte : (16 + j) / 8 = 2 := by omega
  have hbit : (16 + j) % 8 = j := by omega
  rw [getLsbD_unpackResponse r (by omega), hbyte, hbit, getLsbD_unpack8_of_lt _ hj, getLsbD_unpack8_of_lt _ hj]
  exact BitVec.getLsbD_xor

/-- The padding mask `0xFE` keeps every bit of a byte but bit 0. -/
theorem getLsbD_and_padding_mask (v : Byte) {k : Nat} (hk : k < 8) :
    (v &&& 0xFE#8).getLsbD k = (v.getLsbD k && decide (k ≠ 0)) := by
  have hmask : ∀ k < 8, (0xFE#8).getLsbD k = decide (k ≠ 0) := by decide
  rw [BitVec.getLsbD_and, hmask k hk]

/-- The mask of the second helper byte: `mask[8..14]` is the fourth byte of the reading without its last bit. -/
theorem getLsbD_unpack8_perturb_h1 (p : HelperPair) (r : SubBlock) {j : Nat} (hj : j < 7) :
    (unpack8 (perturb p r).h1).getLsbD j = ((unpack8 p.h1).getLsbD j ^^ (unpackResponse r).getLsbD (24 + j)) := by
  have hbyte : (24 + j) / 8 = 3 := by omega
  have hbit : (24 + j) % 8 = j := by omega
  have hkept : 7 - j ≠ 0 := by omega
  have hj8 : j < 8 := by omega
  rw [getLsbD_unpackResponse r (by omega), hbyte, hbit, getLsbD_unpack8_of_lt _ hj8, getLsbD_unpack8_of_lt _ hj8,
    perturb, getLsbD_and_padding_mask _ (by omega), decide_eq_true hkept, Bool.and_true]
  exact BitVec.getLsbD_xor

/-- The padding bit is masked off. -/
theorem getLsbD_unpack8_perturb_padding (p : HelperPair) (r : SubBlock) :
    (unpack8 (perturb p r).h1).getLsbD 7 = false := by
  rw [getLsbD_unpack8_of_lt _ (by decide), perturb, getLsbD_and_padding_mask _ (by decide)]
  exact Bool.and_false _

/-! ### The packed remainder (R163) -/

theorem getLsbD_unpack8_packRemainder_h0 (bb : BitVec 15) {j : Nat} (hj : j < 8) :
    (unpack8 (packRemainder bb).h0).getLsbD j = bb.getLsbD j := by
  rw [packRemainder, unpack8_pack8, getLsbD_ofBits, decide_eq_true hj, Bool.true_and]

theorem getLsbD_unpack8_packRemainder_h1 (bb : BitVec 15) {j : Nat} (hj : j < 7) :
    (unpack8 (packRemainder bb).h1).getLsbD j = bb.getLsbD (8 + j) := by
  have hj8 : j < 8 := by omega
  rw [packRemainder, unpack8_pack8, getLsbD_ofBits, decide_eq_true hj8, Bool.true_and, if_pos hj]

/-- Settles O39: the perturbation masks the packed remainder, in the first byte for `j < 8` and in the second for
`j = 8..14`. -/
theorem helperBitsAreParityXorMask : Obligations.HelperBitsAreParityXorMask := by
  refine fun r => ⟨fun j hj => ?_, getLsbD_unpack8_perturb_padding _ r⟩
  split
  case isTrue h8 => rw [helperOf, getLsbD_unpack8_perturb_h0 _ r h8, getLsbD_unpack8_packRemainder_h0 _ h8]
  case isFalse h8 =>
    have hj7 : j - 8 < 7 := by omega
    have hparity : 8 + (j - 8) = j := by omega
    have hmask : 24 + (j - 8) = 16 + j := by omega
    rw [helperOf, getLsbD_unpack8_perturb_h1 _ r hj7, getLsbD_unpack8_packRemainder_h1 _ hj7, hparity, hmask]

/-! ### `ENCODE b` (R166) -/

theorem helper_encBlock {s : State} (b : BlockIdx) (stride : Nat) (hm : Memory.wf s.mem) :
    readHelper (encBlock b stride s) b = helperOf (readResponse s stride b) := by
  simp +arith [readHelper, State.helper, read_encBlock b stride hm, helperAddr, keyAddr]

theorem key_encBlock {s : State} (b : BlockIdx) (stride : Nat) (hm : Memory.wf s.mem) :
    (encBlock b stride s).key (2 * b.val) = (readResponse s stride b).r0 ∧
      (encBlock b stride s).key (2 * b.val + 1) = (readResponse s stride b).r1 := by
  simp [State.key, read_encBlock b stride hm, keyAddr]

/-- Settles O21: an accepted `ENCODE` is one `EncBlock` on the idle state, whose bytes, results and frame are known. -/
theorem encodeWritesHelperPairAndKeyPair : Obligations.EncodeWritesHelperPairAndKeyPair := by
  unfold Obligations.EncodeWritesHelperPairAndKeyPair
  intro s b hm
  refine ⟨fun hp => ?_, fun hidle => ?_⟩
  · have hrefused : acceptance (.encode b) s = .illegalState := if_neg hp
    rw [exec_of_refused (by rw [hrefused]; decide), hrefused]
  · have hm' : Memory.wf s.accept.mem := hm
    obtain ⟨hk0, hk1⟩ := key_encBlock b (strideBytes s.encStride) hm'
    have hframe : KeepsBytesBut (isRunPair .enroll b) s.accept (runOp .enroll b s.accept) :=
      keepsBytesBut_runOp .enroll b s.accept
    refine ⟨_, exec_of_commandEffect (.encode b hidle), helper_encBlock b _ hm', hk0, hk1, ?_, ?_, rfl, rfl,
      keepsSequencer_runOp .enroll b s.accept, ⟨rfl, rfl, rfl, rfl, rfl, rfl⟩, ?_⟩
    · rw [runOp, bres_encBlock, if_pos rfl]
      rfl
    · intro b' hb'
      rw [runOp, bres_encBlock, if_neg hb', State.accept_bres]
    · exact hframe.mono fun a ha => ha.elim .inr fun hh => .inl hh.2

end Sys2Proof.Machine
end

section
/-! Bit sequences as polynomials over GF(2), and the shift register of 42_block_encoder.md R162 as division by `g(x)`. -/

namespace Sys2Proof.Machine
open Polynomial

/-! ### The polynomial of a bit sequence -/

/-- The polynomial over GF(2) whose coefficient of `x^j` is bit `j`, for `j` below `n`. -/
noncomputable def bitPoly (n : Nat) (f : Nat → Bool) : (ZMod 2)[X] :=
  ∑ j ∈ Finset.range n, if f j then X ^ j else 0

theorem coeff_bitPoly (n : Nat) (f : Nat → Bool) (k : Nat) :
    (bitPoly n f).coeff k = if k < n ∧ f k then 1 else 0 := by
  have hterm : ∀ j, (if f j then (X : (ZMod 2)[X]) ^ j else 0).coeff k =
      if k = j then (if f k then 1 else 0) else 0 := by
    intro j
    by_cases hkj : k = j
    · subst hkj
      cases f k <;> simp
    · cases f j <;> simp [coeff_X_pow, hkj]
  simp [bitPoly, hterm, ite_and]

theorem bitPoly_succ (n : Nat) (f : Nat → Bool) :
    bitPoly (n + 1) f = bitPoly n f + if f n then X ^ n else 0 :=
  Finset.sum_range_succ _ n

theorem bitPoly_congr {n : Nat} {f g : Nat → Bool} (h : ∀ j < n, f j = g j) : bitPoly n f = bitPoly n g :=
  Finset.sum_congr rfl fun j hj => by rw [h j (Finset.mem_range.1 hj)]

/-- The low bits and the high bits. -/
theorem bitPoly_add (m n : Nat) (f : Nat → Bool) :
    bitPoly (m + n) f = bitPoly m f + bitPoly n (fun j => f (m + j)) * X ^ m := by
  simp only [bitPoly, Finset.sum_range_add, Finset.sum_mul, ite_mul, zero_mul, ← pow_add, Nat.add_comm]

/-- Multiplication by `x` moves every bit up by one. -/
theorem bitPoly_succ_shift (n : Nat) (f : Nat → Bool) :
    bitPoly (n + 1) (fun j => decide (j ≠ 0) && f (j - 1)) = bitPoly n f * X := by
  rw [Nat.add_comm, bitPoly_add, pow_one]
  simp [bitPoly]

/-- Addition over GF(2) is the exclusive or of the bits. -/
theorem bitPoly_xor (n : Nat) (f g : Nat → Bool) :
    bitPoly n (fun j => f j ^^ g j) = bitPoly n f + bitPoly n g := by
  rw [bitPoly, bitPoly, bitPoly, ← Finset.sum_add_distrib]
  refine Finset.sum_congr rfl fun j _ => ?_
  cases f j <;> cases g j <;> simp [CharTwo.add_self_eq_zero]

theorem bitPoly_getLsbD_xor (n : Nat) {w : Nat} (v v' : BitVec w) :
    bitPoly n (v ^^^ v').getLsbD = bitPoly n v.getLsbD + bitPoly n v'.getLsbD :=
  (bitPoly_congr fun _ _ => BitVec.getLsbD_xor).trans (bitPoly_xor n _ _)

theorem bitPoly_and (n : Nat) (c : Bool) (f : Nat → Bool) :
    bitPoly n (fun j => c && f j) = if c then bitPoly n f else 0 := by
  cases c <;> simp [bitPoly]

theorem degree_bitPoly_lt (n : Nat) (f : Nat → Bool) : (bitPoly n f).degree < n := by
  refine (degree_lt_iff_coeff_zero _ _).2 fun k hk => ?_
  simp [coeff_bitPoly, hk.not_gt]

theorem bitPoly_inj {n : Nat} {f g : Nat → Bool} (h : bitPoly n f = bitPoly n g) : ∀ j < n, f j = g j := by
  intro j hj
  have hcoeff : (bitPoly n f).coeff j = (bitPoly n g).coeff j := by rw [h]
  rw [coeff_bitPoly, coeff_bitPoly] at hcoeff
  cases hf : f j <;> cases hg : g j <;> simp_all

/-! ### The generator polynomial (41_generator_rom.md R140) -/

/-- `g(x)`, of degree 15. -/
noncomputable def genPoly : (ZMod 2)[X] := bitPoly 16 genCoeff

theorem genPoly_eq : genPoly = X ^ 15 + bitPoly 15 genCoeff := by
  rw [genPoly, bitPoly_succ, if_pos (by decide), add_comm]

theorem monic_genPoly : genPoly.Monic :=
  genPoly_eq ▸ monic_X_pow_add (degree_bitPoly_lt 15 genCoeff)

theorem degree_genPoly : genPoly.degree = (15 : Nat) := by
  have hlead : (bitPoly 15 genCoeff).degree < (X ^ 15 : (ZMod 2)[X]).degree := by
    rw [degree_X_pow]
    exact degree_bitPoly_lt 15 genCoeff
  rw [genPoly_eq, degree_add_eq_left_of_degree_lt hlead, degree_X_pow]

theorem degree_bitPoly_lt_genPoly (f : Nat → Bool) : (bitPoly 15 f).degree < genPoly.degree := by
  rw [degree_genPoly]
  exact degree_bitPoly_lt 15 f

/-! ### The shift register (R162) -/

/-- One step multiplies by `x`, adds the incoming bit at `x^15` and subtracts `g(x)` when the feedback bit is set. -/
theorem bitPoly_lfsrStep (bb : BitVec 15) (x : Bool) :
    bitPoly 15 (lfsrStep bb x).getLsbD =
      bitPoly 15 bb.getLsbD * X + (if x then X ^ 15 else 0) + (if x ^^ bb.getLsbD 14 then genPoly else 0) := by
  have hbits : ∀ j < 15, (lfsrStep bb x).getLsbD j =
      ((decide (j ≠ 0) && bb.getLsbD (j - 1)) ^^ ((x ^^ bb.getLsbD 14) && genCoeff j)) := by
    intro j hj
    rw [lfsrStep, getLsbD_ofBits, decide_eq_true hj, Bool.true_and]
    by_cases h0 : j = 0 <;> simp [h0]
  rw [bitPoly_congr hbits, bitPoly_xor, bitPoly_and, bitPoly_succ_shift 14, bitPoly_succ 14 bb.getLsbD, genPoly_eq]
  have htwo : (X : (ZMod 2)[X]) ^ 15 + X ^ 15 = 0 := CharTwo.add_self_eq_zero _
  cases x <;> cases bb.getLsbD 14 <;>
    simp only [Bool.xor_false, Bool.xor_true, Bool.not_true, Bool.not_false, if_true, if_false, Bool.false_eq_true]
  · ring
  · linear_combination -htwo
  · linear_combination -htwo
  · linear_combination -htwo

/-- Steps `count - 1` down to 0 bring in the bits below `count`, up to a multiple of `g(x)`. -/
theorem genPoly_dvd_lfsrRun (data : BitVec 16) (count : Nat) : ∀ bb : BitVec 15,
    genPoly ∣ bitPoly 15 bb.getLsbD * X ^ count + bitPoly count data.getLsbD * X ^ 15 -
      bitPoly 15 (lfsrRun data count bb).getLsbD := by
  induction count with
  | zero => exact fun bb => by simp [lfsrRun, show bitPoly 0 data.getLsbD = 0 from rfl]
  | succ i ih =>
    intro bb
    have hrest := ih (lfsrStep bb (data.getLsbD i))
    have hstep := bitPoly_lfsrStep bb (data.getLsbD i)
    have hfeedback : genPoly ∣ if data.getLsbD i ^^ bb.getLsbD 14 then genPoly else 0 := by split <;> simp
    have hincoming : (if data.getLsbD i then (X : (ZMod 2)[X]) ^ i else 0) * X ^ 15 =
        (if data.getLsbD i then X ^ 15 else 0) * X ^ i := by split <;> ring
    rw [lfsrRun, bitPoly_succ i]
    convert hrest.sub (hfeedback.mul_right (X ^ i)) using 1
    linear_combination hincoming - X ^ i * hstep

theorem genPoly_dvd_sub_remainder (data : BitVec 16) :
    genPoly ∣ bitPoly 16 data.getLsbD * X ^ 15 - bitPoly 15 (remainder data).getLsbD := by
  have hdvd := genPoly_dvd_lfsrRun data 16 0#15
  have hzero : bitPoly 15 (0#15).getLsbD = 0 := by simp [bitPoly]
  rwa [hzero, zero_mul, zero_add, ← remainder] at hdvd

/-- What the register holds after the 16 steps (R162). -/
theorem bitPoly_remainder (data : BitVec 16) :
    bitPoly 15 (remainder data).getLsbD = (bitPoly 16 data.getLsbD * X ^ 15) %ₘ genPoly := by
  rw [modByMonic_eq_of_dvd_sub monic_genPoly (genPoly_dvd_sub_remainder data)]
  exact ((modByMonic_eq_self_iff monic_genPoly).2 (degree_bitPoly_lt_genPoly _)).symm

/-- Settles O38: the register is the remainder, and taking remainders is additive. -/
theorem shiftRegisterComputesThePolynomialRemainder : Obligations.ShiftRegisterComputesThePolynomialRemainder := by
  refine ⟨bitPoly_remainder, fun x y => ofBits_ext (bitPoly_inj ?_)⟩
  rw [bitPoly_getLsbD_xor, bitPoly_remainder, bitPoly_getLsbD_xor, add_mul, add_modByMonic, bitPoly_remainder,
    bitPoly_remainder]

end Sys2Proof.Machine
end

section
/-! The field of 40_gf_tables.md inside the algebraic closure of GF(2): `gfEmbed` turns the model's operations into those
of a Mathlib field, so that polynomials can be evaluated at the powers of α. -/

namespace Sys2Proof.Machine
open Polynomial

/-! ### The embedding -/

/-- An algebraically closed field of characteristic 2, in which PRIM has a root. -/
abbrev GFClosure := AlgebraicClosure (ZMod 2)

theorem exists_primitive_root : ∃ β : GFClosure, β ^ 5 = β ^ 2 + 1 := by
  have hdegree : (X ^ 5 + X ^ 2 + 1 : GFClosure[X]).degree ≠ 0 := by
    rw [show (X ^ 5 + X ^ 2 + 1 : GFClosure[X]).degree = 5 by compute_degree!]
    decide
  obtain ⟨β, hβ⟩ := IsAlgClosed.exists_root _ hdegree
  simp only [IsRoot.def, eval_add, eval_pow, eval_X, eval_one] at hβ
  exact ⟨β, by linear_combination hβ - (β ^ 2 + 1) * CharTwo.two_eq_zero (R := GFClosure)⟩

/-- The image of α: a root of `x^5 + x^2 + 1` (40_gf_tables.md R120). -/
noncomputable def gfRoot : GFClosure := exists_primitive_root.choose

theorem gfRoot_pow_five : gfRoot ^ 5 = gfRoot ^ 2 + 1 := exists_primitive_root.choose_spec

/-- The element whose PolyForm is `a`: the sum of the powers of α at the set bits (00_scope.md R7). -/
noncomputable def gfEmbed (a : PolyForm) : GFClosure := aeval gfRoot (bitPoly 5 a.getLsbD)

@[simp] theorem gfEmbed_zero : gfEmbed 0#5 = 0 := by simp [gfEmbed, bitPoly]

@[simp] theorem gfEmbed_one : gfEmbed 1#5 = 1 := by simp [gfEmbed, bitPoly]

@[simp] theorem gfEmbed_gfAdd (a b : PolyForm) : gfEmbed (gfAdd a b) = gfEmbed a + gfEmbed b := by
  rw [gfEmbed, gfAdd, bitPoly_getLsbD_xor, map_add, gfEmbed, gfEmbed]

/-- Multiplication by α in the tables is a shift, with the low terms of PRIM fed back. -/
theorem getLsbD_gfMul_alpha : ∀ (a : PolyForm), ∀ j < 5, (gfMul a (alphaPow 1)).getLsbD j =
    ((decide (j ≠ 0) && a.getLsbD (j - 1)) ^^ (a.getLsbD 4 && (0b00101#5).getLsbD j)) := by decide

theorem gfEmbed_gfMul_alpha (a : PolyForm) : gfEmbed (gfMul a (alphaPow 1)) = gfEmbed a * gfRoot := by
  have hfeedback : aeval gfRoot (bitPoly 5 (0b00101#5).getLsbD) = gfRoot ^ 5 := by
    rw [gfRoot_pow_five]
    simp [bitPoly, Finset.sum_range_succ, add_comm]
  rw [gfEmbed, gfEmbed, bitPoly_congr (getLsbD_gfMul_alpha a), bitPoly_xor, bitPoly_and, bitPoly_succ_shift 4,
    bitPoly_succ 4 a.getLsbD, map_add, map_mul, aeval_X, map_add, add_mul]
  cases a.getLsbD 4 with
  | false => simp
  | true =>
    rw [if_pos rfl, if_pos rfl, hfeedback, map_pow, aeval_X]
    ring

/-- The embedding takes `alphaPow` to the powers of α. -/
@[simp] theorem gfEmbed_alphaPow (j : Nat) : gfEmbed (alphaPow j) = gfRoot ^ j := by
  induction j with
  | zero => exact gfEmbed_one.trans (pow_zero gfRoot).symm
  | succ j ih => rw [← gfMul_alphaPow, gfEmbed_gfMul_alpha, ih, pow_succ]

@[simp] theorem gfEmbed_gfMul (a b : PolyForm) : gfEmbed (gfMul a b) = gfEmbed a * gfEmbed b := by
  obtain rfl | ⟨i, rfl⟩ := eq_zero_or_eq_alphaPow a
  · simp
  obtain rfl | ⟨j, rfl⟩ := eq_zero_or_eq_alphaPow b
  · simp
  · simp [pow_add]

theorem gfRoot_ne_zero : gfRoot ≠ 0 := by
  intro h
  simpa [h] using gfRoot_pow_five

@[simp] theorem gfEmbed_eq_zero_iff (a : PolyForm) : gfEmbed a = 0 ↔ a = 0 := by
  refine ⟨fun h => ?_, fun h => h ▸ gfEmbed_zero⟩
  obtain ha | ⟨i, rfl⟩ := eq_zero_or_eq_alphaPow a
  · exact ha
  · rw [gfEmbed_alphaPow] at h
    exact absurd h (pow_ne_zero i gfRoot_ne_zero)

theorem gfEmbed_injective : Function.Injective gfEmbed := by
  intro a b h
  have hsum : gfEmbed (gfAdd a b) = 0 := by rw [gfEmbed_gfAdd, h, CharTwo.add_self_eq_zero]
  exact BitVec.xor_eq_zero_iff.1 ((gfEmbed_eq_zero_iff _).1 hsum)

/-- The powers of α repeat with period 31 and not before (40_gf_tables.md R120, R131). -/
theorem gfRoot_pow_eq_pow_iff {i j : Nat} : gfRoot ^ i = gfRoot ^ j ↔ i % 31 = j % 31 := by
  rw [← gfEmbed_alphaPow, ← gfEmbed_alphaPow, gfEmbed_injective.eq_iff]
  refine ⟨fun h => ?_, alphaPow_congr⟩
  have hlog := congrArg gfLog h
  simpa using hlog

end Sys2Proof.Machine
end

section
/-! Codewords as the multiples of `g(x)`, and syndromes as the values of the received polynomial at the powers of α
(42_block_encoder.md R168, 43_syndrome.md R180 to R183). -/

namespace Sys2Proof.Machine
open Polynomial

/-! ### Codewords are the multiples of g(x) (R168) -/

/-- The upper 16 bits of a word, the information bits of a codeword. -/
def upperBits (w : BitVec 31) : BitVec 16 := w.extractLsb' 15 16

theorem upperBits_codeword (data : BitVec 16) : upperBits (codeword data) = data := BitVec.extractLsb'_append_eq_left

theorem bitPoly_word (w : BitVec 31) :
    bitPoly 31 w.getLsbD = bitPoly 15 w.getLsbD + bitPoly 16 (upperBits w).getLsbD * X ^ 15 := by
  have hupper : bitPoly 16 (fun j => w.getLsbD (15 + j)) = bitPoly 16 (upperBits w).getLsbD :=
    bitPoly_congr fun j hj => by rw [upperBits, BitVec.getLsbD_extractLsb', decide_eq_true hj, Bool.true_and]
  rw [bitPoly_add 15 16, hupper]

/-- The codeword's polynomial is `bb(x) + x^15·data(x)`. -/
theorem bitPoly_codeword (data : BitVec 16) :
    bitPoly 31 (codeword data).getLsbD = bitPoly 15 (remainder data).getLsbD + bitPoly 16 data.getLsbD * X ^ 15 := by
  have hlow : bitPoly 15 (codeword data).getLsbD = bitPoly 15 (remainder data).getLsbD :=
    bitPoly_congr fun j hj => by rw [codeword, BitVec.getLsbD_append, if_pos hj]
  rw [bitPoly_word, hlow, upperBits_codeword]

theorem genPoly_dvd_codeword (data : BitVec 16) : genPoly ∣ bitPoly 31 (codeword data).getLsbD := by
  rw [bitPoly_codeword, add_comm, ← CharTwo.sub_eq_add]
  exact genPoly_dvd_sub_remainder data

/-- Only codewords are multiples of `g(x)`: a word and the codeword of its upper 16 bits differ in the lower 15 bits only,
and no nonzero polynomial of degree below 15 is a multiple of `g(x)`. -/
theorem eq_codeword_of_genPoly_dvd {w : BitVec 31} (hdvd : genPoly ∣ bitPoly 31 w.getLsbD) :
    w = codeword (upperBits w) := by
  have hword := bitPoly_word w
  have hcode := bitPoly_codeword (upperBits w)
  have hlow : genPoly ∣ bitPoly 15 w.getLsbD - bitPoly 15 (remainder (upperBits w)).getLsbD := by
    convert hdvd.sub (genPoly_dvd_codeword (upperBits w)) using 1
    linear_combination hcode - hword
  have hdegree := (degree_sub_le _ _).trans_lt
    (max_lt (degree_bitPoly_lt_genPoly w.getLsbD) (degree_bitPoly_lt_genPoly (remainder (upperBits w)).getLsbD))
  have hsame := sub_eq_zero.1 (eq_zero_of_dvd_of_degree_lt hlow hdegree)
  exact ofBits_ext (bitPoly_inj (by rw [hword, hcode, hsame]))

theorem exists_eq_codeword_iff_genPoly_dvd (w : BitVec 31) :
    (∃ data, w = codeword data) ↔ genPoly ∣ bitPoly 31 w.getLsbD :=
  ⟨fun ⟨data, hw⟩ => hw ▸ genPoly_dvd_codeword data, fun hdvd => ⟨_, eq_codeword_of_genPoly_dvd hdvd⟩⟩

/-! ### Syndromes are values of the received polynomial (R180, R181) -/

theorem gfEmbed_syndromeSum (w : BitVec 31) (i n : Nat) :
    gfEmbed (syndromeSum w i n) = aeval (gfRoot ^ i) (bitPoly n w.getLsbD) := by
  induction n with
  | zero => exact gfEmbed_zero.trans (map_zero _).symm
  | succ j ih =>
    rw [syndromeSum, bitPoly_succ, map_add, ← ih]
    cases w.getLsbD j
    · simp
    · simp [pow_mul]

theorem syndromeSum_eq_zero_iff (w : BitVec 31) (i : Nat) :
    syndromeSum w i 31 = 0 ↔ aeval (gfRoot ^ i) (bitPoly 31 w.getLsbD) = 0 := by
  rw [← gfEmbed_syndromeSum, gfEmbed_eq_zero_iff]

theorem synError_eq_false_iff (w : BitVec 31) :
    synError (syndromes w) = false ↔ ∀ i, 1 ≤ i → i ≤ 6 → syndromeSum w i 31 = 0 := by
  have hsix : synError (syndromes w) = false ↔ syndromeSum w 1 31 = 0 ∧ syndromeSum w 2 31 = 0 ∧
      syndromeSum w 3 31 = 0 ∧ syndromeSum w 4 31 = 0 ∧ syndromeSum w 5 31 = 0 ∧ syndromeSum w 6 31 = 0 := by
    simp [synError, syndromes]
  rw [hsix]
  constructor
  · rintro ⟨h1, h2, h3, h4, h5, h6⟩ i hlo hhi
    interval_cases i <;> assumption
  · intro h
    refine ⟨h 1 ?_ ?_, h 2 ?_ ?_, h 3 ?_ ?_, h 4 ?_ ?_, h 5 ?_ ?_, h 6 ?_ ?_⟩ <;> decide

/-! ### The roots of g(x) (41_generator_rom.md R141 to R144) -/

/-- The Frobenius map: squaring an argument squares the value of a polynomial over GF(2). -/
theorem aeval_pow_two_pow (f : (ZMod 2)[X]) (x : GFClosure) (k : Nat) : aeval (x ^ 2 ^ k) f = aeval x f ^ 2 ^ k := by
  induction k with
  | zero => simp
  | succ k ih => rw [pow_succ, pow_mul, ← expand_aeval, ZMod.expand_card, map_pow, ih, ← pow_mul]

/-- The six syndromes of `g(x)` itself are zero. -/
theorem aeval_genPoly {i : Nat} (hlo : 1 ≤ i) (hhi : i ≤ 6) : aeval (gfRoot ^ i) genPoly = 0 := by
  have hsyn : ∀ i, 1 ≤ i → i ≤ 6 → syndromeSum (ofBits 31 genCoeff) i 31 = 0 := by decide
  have hword : bitPoly 31 (ofBits 31 genCoeff).getLsbD = genPoly := by
    have hhigh : bitPoly 15 (fun j => genCoeff (16 + j)) = 0 := by simp [bitPoly, genCoeff]
    rw [bitPoly_congr fun j hj => by rw [getLsbD_ofBits, decide_eq_true hj, Bool.true_and], bitPoly_add 16 15, hhigh,
      zero_mul, add_zero, genPoly]
  rw [← hword]
  exact (syndromeSum_eq_zero_iff _ i).1 (hsyn i hlo hhi)

/-- Each of the code's zeros is a conjugate of one of the six syndrome exponents. -/
theorem exists_conjugate : ∀ z ∈ synthZeros 31 3, ∃ i ≤ 6, 1 ≤ i ∧ ∃ k < 5, z % 31 = i * 2 ^ k % 31 := by decide

theorem synthZeros_three_lt : ∀ z ∈ synthZeros 31 3, z < 31 := by decide

theorem card_synthZeros_three : (synthZeros 31 3).toFinset.card = 15 := by decide

/-- A polynomial of degree below 15 that vanishes at α to α^6 vanishes at their 15 conjugates, so it is zero. -/
theorem eq_zero_of_aeval_eq_zero {f : (ZMod 2)[X]} (hdegree : f.natDegree < 15)
    (hroots : ∀ i, 1 ≤ i → i ≤ 6 → aeval (gfRoot ^ i) f = 0) : f = 0 := by
  have hzeros : ∀ z ∈ synthZeros 31 3, aeval (gfRoot ^ z) f = 0 := by
    intro z hz
    obtain ⟨i, hhi, hlo, k, -, hk⟩ := exists_conjugate z hz
    rw [gfRoot_pow_eq_pow_iff.2 hk, pow_mul, aeval_pow_two_pow, hroots i hlo hhi, zero_pow (by positivity)]
  have hdistinct : Function.Injective fun z : (synthZeros 31 3).toFinset => gfRoot ^ z.val := by
    intro z z' h
    have hz := synthZeros_three_lt _ (List.mem_toFinset.1 z.2)
    have hz' := synthZeros_three_lt _ (List.mem_toFinset.1 z'.2)
    have hmod := gfRoot_pow_eq_pow_iff.1 h
    rw [Nat.mod_eq_of_lt hz, Nat.mod_eq_of_lt hz'] at hmod
    exact Subtype.ext hmod
  refine (Polynomial.map_eq_zero (algebraMap (ZMod 2) GFClosure)).1
    (eq_zero_of_natDegree_lt_card_of_eval_eq_zero _ hdistinct (fun z => ?_) ?_)
  · rw [eval_map_algebraMap]
    exact hzeros _ (List.mem_toFinset.1 z.2)
  · rwa [Fintype.card_coe, card_synthZeros_three, natDegree_map]

/-- `g(x)` divides exactly the polynomials that vanish at α to α^6. -/
theorem genPoly_dvd_iff (f : (ZMod 2)[X]) :
    genPoly ∣ f ↔ ∀ i, 1 ≤ i → i ≤ 6 → aeval (gfRoot ^ i) f = 0 := by
  constructor
  · rintro ⟨q, rfl⟩ i hlo hhi
    rw [map_mul, aeval_genPoly hlo hhi, zero_mul]
  · intro h
    have hnatDegree : genPoly.natDegree = 15 := natDegree_eq_of_degree_eq_some degree_genPoly
    have hne : genPoly ≠ 1 := fun h1 => by simp [h1] at hnatDegree
    refine (modByMonic_eq_zero_iff_dvd monic_genPoly).1 (eq_zero_of_aeval_eq_zero ?_ fun i hlo hhi => ?_)
    · exact hnatDegree ▸ natDegree_modByMonic_lt f monic_genPoly hne
    · rw [aeval_modByMonic_eq_self_of_root (aeval_genPoly hlo hhi), h i hlo hhi]

/-- Settles O43: the syndromes are the values at α to α^6, which vanish exactly on the multiples of `g(x)`. -/
theorem syndromesVanishExactlyOnCodewords : Obligations.SyndromesVanishExactlyOnCodewords := by
  intro w
  rw [exists_eq_codeword_iff_genPoly_dvd, genPoly_dvd_iff, synError_eq_false_iff]
  simp only [syndromeSum_eq_zero_iff]

end Sys2Proof.Machine
end

section
/-! The six syndromes as values of the received polynomial, and what R183 says of them: linearity, the word with one set
bit, and the even syndromes (43_syndrome.md). -/

namespace Sys2Proof.Machine
open Polynomial

/-- `s[i]` is the sum of R180 over all 31 positions. -/
theorem synd_syndromes (w : BitVec 31) {i : Nat} (hlo : 1 ≤ i) (hhi : i ≤ 6) :
    synd (syndromes w) i = syndromeSum w i 31 := by
  interval_cases i <;> rfl

/-- `s[i]` is the value of the received polynomial at `α^i`. -/
theorem gfEmbed_synd_syndromes (w : BitVec 31) {i : Nat} (hlo : 1 ≤ i) (hhi : i ≤ 6) :
    gfEmbed (synd (syndromes w) i) = aeval (gfRoot ^ i) (bitPoly 31 w.getLsbD) := by
  rw [synd_syndromes w hlo hhi, gfEmbed_syndromeSum]

/-- The polynomial of the word with the one set bit `j` is `x^j`. -/
theorem bitPoly_twoPow {n j : Nat} (hj : j < n) : bitPoly n (BitVec.twoPow n j).getLsbD = X ^ j := by
  ext k
  rw [coeff_bitPoly, coeff_X_pow, BitVec.getLsbD_twoPow, decide_eq_true hj, Bool.true_and]
  by_cases hk : k = j
  · simp [hk, hj]
  · simp [hk, Ne.symm hk]

/-- Settles O41: evaluation at `α^i` is additive in the received polynomial, and takes `x^j` to `α^(i·j)`. -/
theorem syndromesAreLinear : Obligations.SyndromesAreLinear := by
  refine ⟨fun x y i hlo hhi => gfEmbed_injective ?_, fun i j hlo hhi hj => gfEmbed_injective ?_⟩
  · rw [gfEmbed_gfAdd]
    simp only [gfEmbed_synd_syndromes _ hlo hhi]
    rw [bitPoly_getLsbD_xor, map_add]
  · rw [gfEmbed_synd_syndromes _ hlo hhi, bitPoly_twoPow hj, map_pow, aeval_X, gfEmbed_alphaPow, pow_mul]

/-- R183 (e) for any index: `α^(2·i)` is the square of `α^i`, and the Frobenius map squares the value there. -/
theorem synd_two_mul (w : BitVec 31) {i : Nat} (hlo : 1 ≤ i) (hhi : 2 * i ≤ 6) :
    synd (syndromes w) (2 * i) = gfMul (synd (syndromes w) i) (synd (syndromes w) i) := by
  have hsquare := aeval_pow_two_pow (bitPoly 31 w.getLsbD) (gfRoot ^ i) 1
  rw [pow_one, ← pow_mul, Nat.mul_comm] at hsquare
  apply gfEmbed_injective
  rw [gfEmbed_gfMul, gfEmbed_synd_syndromes w (by omega) hhi, gfEmbed_synd_syndromes w hlo (by omega), hsquare, sq]

/-- Settles O42: the even syndromes are doubled indices. -/
theorem evenSyndromesAreSquares : Obligations.EvenSyndromesAreSquares := fun w =>
  ⟨synd_two_mul w (i := 1) (by decide) (by decide), synd_two_mul w (i := 2) (by decide) (by decide),
    synd_two_mul w (i := 3) (by decide) (by decide)⟩

end Sys2Proof.Machine
end

section
/-! The row that `SelectRow` answers (44_berlekamp_massey.md R194), by one induction on the rows it goes through. -/

namespace Sys2Proof.Machine

/-- The rows of a list with one more row at its end, with their numbers. -/
theorem getElem?_concat_eq_some_iff {α : Type} {rows : List α} {last row : α} {q : Nat} :
    (rows ++ [last])[q]? = some row ↔ rows[q]? = some row ∨ (q = rows.length ∧ last = row) := by
  obtain hlt | rfl | hgt := lt_trichotomy q rows.length
  · simp [List.getElem?_append_left hlt, hlt.ne]
  · simp
  · simp [List.getElem?_eq_none hgt.le, List.getElem?_append_right hgt.le, hgt.ne', Nat.sub_ne_zero_of_lt hgt]

/-- What R194 asks of the selected row: it is a candidate of largest `ul`, with the largest number among those. -/
def IsBestCandidate (rows : List LocatorRow) (sel : Selected) : Prop :=
  rows[sel.q]? = some sel.row ∧ sel.row.d ≠ 0 ∧
  ∀ (q : Nat) (row : LocatorRow), rows[q]? = some row → row.d ≠ 0 →
    row.ul ≤ sel.row.ul ∧ (row.ul = sel.row.ul → q ≤ sel.q)

/-- One more row takes the place of the best so far exactly when `selectFrom` lets it. -/
theorem IsBestCandidate.concat {rows : List LocatorRow} {best : Selected} (h : IsBestCandidate rows best)
    (r : LocatorRow) :
    IsBestCandidate (rows ++ [r]) (if r.d ≠ 0 ∧ best.row.ul ≤ r.ul then ⟨rows.length, r⟩ else best) := by
  obtain ⟨hrow, hd, hbest⟩ := h
  have hq : best.q < rows.length := (List.getElem?_eq_some_iff.1 hrow).1
  split
  case isTrue hr =>
    refine ⟨getElem?_concat_eq_some_iff.2 (.inr ⟨rfl, rfl⟩), hr.1, fun q row hget hcand => ?_⟩
    obtain hold | ⟨rfl, rfl⟩ := getElem?_concat_eq_some_iff.1 hget
    · exact ⟨(hbest q row hold hcand).1.trans hr.2, fun _ => (List.getElem?_eq_some_iff.1 hold).1.le⟩
    · exact ⟨le_rfl, fun _ => le_rfl⟩
  case isFalse hr =>
    refine ⟨getElem?_concat_eq_some_iff.2 (.inl hrow), hd, fun q row hget hcand => ?_⟩
    obtain hold | ⟨rfl, rfl⟩ := getElem?_concat_eq_some_iff.1 hget
    · exact hbest q row hold hcand
    · have hless : r.ul < best.row.ul := not_le.1 fun hle => hr ⟨hcand, hle⟩
      exact ⟨hless.le, fun heq => absurd heq hless.ne⟩

theorem IsBestCandidate.selectFrom (rest : List LocatorRow) : ∀ {rows : List LocatorRow} {best : Selected},
    IsBestCandidate rows best → IsBestCandidate (rows ++ rest) (selectFrom best rows.length rest) := by
  induction rest with
  | nil => exact fun h => by rwa [List.append_nil]
  | cons r rest ih =>
    intro rows best h
    have hrest := ih (h.concat r)
    rwa [List.append_assoc, List.length_append] at hrest

/-- R194: row 0 is the best of itself, and the search goes through the others. -/
theorem isBestCandidate_selectRow (others : List LocatorRow) :
    IsBestCandidate (startRow :: others) (selectRow others) := by
  have hstart : IsBestCandidate [startRow] ⟨0, startRow⟩ := by
    refine ⟨rfl, by decide, fun q row hget _ => ?_⟩
    obtain hnone | ⟨rfl, rfl⟩ := (getElem?_concat_eq_some_iff (rows := [])).1 hget
    · exact absurd hnone (Option.some_ne_none row).symm
    · exact ⟨le_rfl, fun _ => le_rfl⟩
  exact hstart.selectFrom others

/-- Settles O44: the search keeps the best candidate of the rows it has gone through. -/
theorem selectRowAnswersTheBestCandidate : Obligations.SelectRowAnswersTheBestCandidate :=
  isBestCandidate_selectRow

end Sys2Proof.Machine
end

section
/-! The rows of the locator table (44_berlekamp_massey.md R191 to R197) for any six syndromes: which rows the engine
writes, said once by two inductive predicates, and what every row keeps. -/

namespace Sys2Proof.Machine

/-! ### Coefficients -/

theorem coeff_of_seven_le (p : Locator) {c : Nat} (hc : 7 ≤ c) : coeff p c = 0#5 := by
  rw [coeff, Vector.getElem?_eq_none hc]
  rfl

theorem coeff_ofCoeffs (f : Nat → PolyForm) (c : Nat) : coeff (ofCoeffs f) c = if c < 7 then f c else 0#5 := by
  split
  case isTrue hc => interval_cases c <;> rfl
  case isFalse hc => exact coeff_of_seven_le _ (not_lt.1 hc)

@[simp] theorem coeff_onePoly (c : Nat) : coeff onePoly c = if c = 0 then 1#5 else 0#5 := by
  have hone : onePoly = ofCoeffs fun c => if c = 0 then 1#5 else 0#5 := rfl
  rw [hone, coeff_ofCoeffs, ite_eq_left_iff]
  intro hc
  rw [if_neg (by omega)]

/-! ### The rows that the engine writes (R192, R193) -/

/-- The row that step `u` writes from a polynomial and its degree bound, with its discrepancy when `u < 6`. -/
def rowOf (s : Syndromes) (u : Nat) (new : Locator × Nat) : LocatorRow :=
  ⟨new.1, new.2, if u < 6 then discrepancySum s (u + 1) new.1 new.2 else 0, (u : Int) - (new.2 : Int)⟩

/-- Row `row` of number `r` comes from the initial rows by copying and correcting, whichever earlier rows with nonzero
discrepancy the corrections take. -/
inductive WrittenRow (s : Syndromes) : Nat → LocatorRow → Prop
  | start : WrittenRow s 0 startRow
  | first : WrittenRow s 1 (firstRow s)
  | copy {u : Nat} {cur : LocatorRow} (hu : u ≤ 6) (hcur : WrittenRow s u cur) (hd : cur.d = 0) :
      WrittenRow s (u + 1) (rowOf s u (cur.elp, cur.l))
  | correct {u : Nat} {cur : LocatorRow} {sel : Selected} (hu : u ≤ 6) (hcur : WrittenRow s u cur)
      (hsel : WrittenRow s sel.q sel.row) (hq : sel.q < u) (hd : sel.row.d ≠ 0) :
      WrittenRow s (u + 1) (rowOf s u (correctRow u sel cur))

/-- The table before step `u`: `cur` is row `u` and `others` are the rows 1 to `u − 1`. -/
inductive LocatorTable (s : Syndromes) : Nat → List LocatorRow → LocatorRow → Prop
  | first : LocatorTable s 1 [] (firstRow s)
  | step {u : Nat} {others : List LocatorRow} {cur : LocatorRow} (hu : u ≤ 6) (h : LocatorTable s u others cur) :
      LocatorTable s (u + 1) (others ++ [cur]) (nextRow s u others cur)

theorem nextRow_of_eq_zero (s : Syndromes) (u : Nat) (others : List LocatorRow) {cur : LocatorRow} (hd : cur.d = 0) :
    nextRow s u others cur = rowOf s u (cur.elp, cur.l) := by
  rw [nextRow, nextLocator, if_pos hd, rowOf]

theorem nextRow_of_ne_zero (s : Syndromes) (u : Nat) (others : List LocatorRow) {cur : LocatorRow} (hd : cur.d ≠ 0) :
    nextRow s u others cur = rowOf s u (correctRow u (selectRow others) cur) := by
  rw [nextRow, nextLocator, if_neg hd, rowOf]

theorem LocatorTable.length_others {s : Syndromes} {u : Nat} {others : List LocatorRow} {cur : LocatorRow}
    (h : LocatorTable s u others cur) : (startRow :: others).length = u := by
  induction h with
  | first => rfl
  | step _ _ ih => simpa using ih

theorem LocatorTable.number_lt {s : Syndromes} {u q : Nat} {others : List LocatorRow} {cur row : LocatorRow}
    (h : LocatorTable s u others cur) (hget : (startRow :: others)[q]? = some row) : q < u :=
  h.length_others ▸ (List.getElem?_eq_some_iff.1 hget).1

/-- Every row of a table is a written row. -/
theorem LocatorTable.written {s : Syndromes} {u : Nat} {others : List LocatorRow} {cur : LocatorRow}
    (h : LocatorTable s u others cur) :
    WrittenRow s u cur ∧ ∀ (q : Nat) (row : LocatorRow), (startRow :: others)[q]? = some row → WrittenRow s q row := by
  induction h with
  | first =>
    refine ⟨.first, fun q row hget => ?_⟩
    obtain hnone | ⟨rfl, rfl⟩ := (getElem?_concat_eq_some_iff (rows := [])).1 hget
    · exact absurd hnone (Option.some_ne_none row).symm
    · exact .start
  | @step u others cur hu h ih =>
    obtain ⟨hcur, hothers⟩ := ih
    constructor
    · by_cases hd : cur.d = 0
      · rw [nextRow_of_eq_zero s u others hd]
        exact .copy hu hcur hd
      · obtain ⟨hget, hsel, -⟩ := isBestCandidate_selectRow others
        rw [nextRow_of_ne_zero s u others hd]
        exact .correct hu hcur (hothers _ _ hget) (h.number_lt hget) hsel
    · intro q row hget
      obtain hold | ⟨rfl, rfl⟩ := (getElem?_concat_eq_some_iff (rows := startRow :: others)).1 hget
      · exact hothers q row hold
      · exact h.length_others ▸ hcur

/-- The loop ends on a table of six steps, or on one whose last degree bound exceeds 3 (R197). -/
theorem exists_table_locatorLoop {s : Syndromes} (fuel : Nat) :
    ∀ {u : Nat} {others : List LocatorRow} {cur : LocatorRow}, LocatorTable s u others cur → fuel + u = 7 →
      ∃ v rows, LocatorTable s v rows (locatorLoop s fuel u others cur) ∧
        (v = 7 ∨ 3 < (locatorLoop s fuel u others cur).l) := by
  induction fuel with
  | zero => exact fun h hu => ⟨_, _, h, .inl (by omega)⟩
  | succ fuel ih =>
    intro u others cur h hu
    have hnext := h.step (by omega)
    simp only [locatorLoop]
    split
    case isTrue => exact ih hnext (by omega)
    case isFalse hstop =>
      have ht : Config.t = 3 := rfl
      exact ⟨_, _, hnext, by omega⟩

/-- What the engine answers is the last row of a table. -/
theorem exists_table_berlekampMassey (s : Syndromes) :
    ∃ u others last, LocatorTable s u others last ∧ (u = 7 ∨ 3 < last.l) ∧ berlekampMassey s = ⟨last.l, last.elp⟩ := by
  obtain ⟨u, others, htable, hend⟩ := exists_table_locatorLoop 6 (LocatorTable.first (s := s)) rfl
  exact ⟨u, others, _, htable, hend, rfl⟩

/-! ### What every row keeps (R190, R191, R195) -/

theorem coeff_correctRow (u : Nat) (sel : Selected) (cur : LocatorRow) (c : Nat) :
    coeff (correctRow u sel cur).1 c = if c < 7 then
      gfAdd (if u - sel.q ≤ c ∧ c - (u - sel.q) ≤ sel.row.l then
          gfMul (gfDiv cur.d sel.row.d) (coeff sel.row.elp (c - (u - sel.q))) else 0#5)
        (if c ≤ cur.l then coeff cur.elp c else 0#5) else 0#5 :=
  coeff_ofCoeffs _ c

/-- A row's degree bound lies below its number, and its polynomial has constant term 1 and respects the bound. -/
structure RowShape (r : Nat) (row : LocatorRow) : Prop where
  number_le : r ≤ 7
  l_le : row.l ≤ r - 1
  ul_eq : row.ul = (r : Int) - 1 - row.l
  coeff_zero : coeff row.elp 0 = 1#5
  coeff_above : ∀ c, row.l < c → coeff row.elp c = 0#5

theorem WrittenRow.shape {s : Syndromes} {r : Nat} {row : LocatorRow} (h : WrittenRow s r row) : RowShape r row := by
  have hone : ∀ c, 0 < c → coeff onePoly c = 0#5 := fun c hc => by rw [coeff_onePoly, if_neg hc.ne']
  induction h with
  | start => exact ⟨by decide, le_rfl, rfl, rfl, hone⟩
  | first => exact ⟨by decide, le_rfl, rfl, rfl, hone⟩
  | @copy u cur hu _ _ ih =>
    refine ⟨by omega, ?_, ?_, ih.coeff_zero, ih.coeff_above⟩
    · have hl := ih.l_le
      simp only [rowOf]
      omega
    · simp [rowOf]
  | @correct u cur sel hu _ _ hq _ ihcur ihsel =>
    have hl := ihcur.l_le
    have hlsel := ihsel.l_le
    refine ⟨by omega, ?_, ?_, ?_, fun c hc => ?_⟩
    · simp only [rowOf, correctRow]
      omega
    · simp [rowOf]
    · have hshift : ¬ (u - sel.q ≤ 0 ∧ 0 - (u - sel.q) ≤ sel.row.l) := by omega
      rw [rowOf, coeff_correctRow, if_pos (by decide), if_neg hshift, if_pos (Nat.zero_le _), ihcur.coeff_zero]
      rfl
    · simp only [rowOf, correctRow, max_lt_iff] at hc
      rw [rowOf, coeff_correctRow, if_neg (by omega : ¬ (_ ∧ _)), if_neg (by omega : ¬ c ≤ cur.l)]
      exact ite_self _

/-- While the degree bound is 0 every syndrome consumed was zero, and the discrepancy is the next syndrome. -/
theorem WrittenRow.synd_eq_zero_of_l_eq_zero {s : Syndromes} {r : Nat} {row : LocatorRow} (h : WrittenRow s r row) :
    row.l = 0 → (∀ j, 1 ≤ j → j < r → synd s j = 0) ∧ (1 ≤ r → r ≤ 6 → row.d = synd s r) := by
  induction h with
  | start => exact fun _ => ⟨fun j hlo hhi => absurd hhi j.not_lt_zero, fun hr => absurd hr (by decide)⟩
  | first => exact fun _ => ⟨fun j hlo hhi => absurd hlo (by omega), fun _ _ => rfl⟩
  | @copy u cur hu _ hd ih =>
    intro hl
    replace hl : cur.l = 0 := hl
    obtain ⟨hconsumed, hnext⟩ := ih hl
    refine ⟨fun j hlo hhi => ?_, fun _ hr => ?_⟩
    · obtain hlt | rfl := Nat.lt_succ_iff_lt_or_eq.1 hhi
      · exact hconsumed j hlo hlt
      · rw [← hnext hlo hu, hd]
    · rw [rowOf, if_pos (by omega), hl]
      rfl
  | @correct u cur sel _ _ _ hq _ _ _ =>
    intro hl
    simp only [rowOf, correctRow] at hl
    omega

theorem exists_synd_ne_zero_of_synError {s : Syndromes} (h : synError s = true) :
    ∃ j, 1 ≤ j ∧ j ≤ 6 ∧ synd s j ≠ 0 := by
  obtain ⟨x, hmem, hx⟩ := List.any_eq_true.1 h
  obtain ⟨i, hi, rfl⟩ := Vector.mem_iff_getElem.1 (Vector.mem_toList_iff.1 hmem)
  refine ⟨i + 1, by omega, by omega, ?_⟩
  rw [synd, Nat.add_sub_cancel, Vector.getElem?_eq_getElem hi]
  exact of_decide_eq_true hx

/-- Settles O45: the answer is a written row, which has the shape, and with degree bound 0 all six syndromes would be
zero. -/
theorem locatorHasConstantTermOneAndItsDegree : Obligations.LocatorHasConstantTermOneAndItsDegree := by
  intro s hs
  obtain ⟨u, others, last, htable, hend, hresult⟩ := exists_table_berlekampMassey s
  obtain ⟨hlast, -⟩ := htable.written
  obtain ⟨hu, hl, -, hzero, habove⟩ := hlast.shape
  simp only [hresult]
  refine ⟨Nat.one_le_iff_ne_zero.2 fun h0 => ?_, by omega, hzero, habove⟩
  obtain ⟨j, hlo, hhi, hj⟩ := exists_synd_ne_zero_of_synError hs
  exact hj ((hlast.synd_eq_zero_of_l_eq_zero h0).1 j hlo (by omega))

end Sys2Proof.Machine
end

section
/-! Locators as polynomials over the closure (44_berlekamp_massey.md R190, R193), and power sums weighted by the values
of a polynomial at the inverses: as many consecutive ones as there are elements vanish only if every inverse is a
root. -/

namespace Sys2Proof.Machine
open Polynomial

/-! ### The polynomial of a locator -/

/-- The polynomial over the closure with the coefficients of a locator. -/
noncomputable def locatorPoly (p : Locator) : GFClosure[X] := ∑ c ∈ Finset.range 7, monomial c (gfEmbed (coeff p c))

@[simp] theorem coeff_locatorPoly (p : Locator) (c : Nat) : (locatorPoly p).coeff c = gfEmbed (coeff p c) := by
  simp only [locatorPoly, finsetSum_coeff, coeff_monomial, Finset.sum_ite_eq', Finset.mem_range, ite_eq_left_iff,
    not_lt]
  intro hc
  rw [coeff_of_seven_le p hc]
  exact gfEmbed_zero.symm

theorem locatorPoly_injective : Function.Injective locatorPoly := by
  intro p p' h
  refine Vector.ext fun c hc => ?_
  have hcoeff := congrArg (fun f => f.coeff c) h
  simp only [coeff_locatorPoly] at hcoeff
  simpa [coeff, Vector.getElem?_eq_getElem hc] using gfEmbed_injective hcoeff

theorem locatorPoly_onePoly : locatorPoly onePoly = 1 := by
  ext c
  rw [coeff_locatorPoly, coeff_onePoly, coeff_one]
  split <;> simp

section
variable {r : Nat} {row : LocatorRow} (h : RowShape r row)
include h

theorem RowShape.natDegree_le : (locatorPoly row.elp).natDegree ≤ row.l := by
  refine natDegree_le_iff_coeff_eq_zero.2 fun c hc => ?_
  rw [coeff_locatorPoly, h.coeff_above c hc]
  exact gfEmbed_zero

theorem RowShape.eval_zero : (locatorPoly row.elp).eval 0 = 1 := by
  rw [← coeff_zero_eq_eval_zero, coeff_locatorPoly, h.coeff_zero]
  exact gfEmbed_one

end

/-- With respected degree bounds the guards of `correctRow` take nothing away. -/
theorem coeff_correctRow_of_shape {u : Nat} {sel : Selected} {cur : LocatorRow} (hu : u ≤ 6) (hq : sel.q < u)
    (hcur : RowShape u cur) (hsel : RowShape sel.q sel.row) (c : Nat) :
    coeff (correctRow u sel cur).1 c =
      gfAdd (if u - sel.q ≤ c then gfMul (gfDiv cur.d sel.row.d) (coeff sel.row.elp (c - (u - sel.q))) else 0#5)
        (coeff cur.elp c) := by
  have hl := hcur.l_le
  have hlsel := hsel.l_le
  have hkeep : (if c ≤ cur.l then coeff cur.elp c else 0#5) = coeff cur.elp c :=
    ite_eq_left_iff.2 fun hc => (hcur.coeff_above c (not_le.1 hc)).symm
  have hnone : ¬ c - (u - sel.q) ≤ sel.row.l →
      gfMul (gfDiv cur.d sel.row.d) (coeff sel.row.elp (c - (u - sel.q))) = 0#5 := fun hc => by
    rw [hsel.coeff_above _ (not_le.1 hc), gfMul_zero]
  rw [coeff_correctRow, hkeep, ite_and, ite_eq_left_iff.2 fun hc => (hnone hc).symm, ite_eq_left_iff]
  intro hc
  rw [hnone (by omega), ite_self, coeff_of_seven_le _ (not_lt.1 hc)]
  rfl

/-- R193 as an identity of polynomials: row `u` plus the scaled and shifted selected row. -/
theorem locatorPoly_correctRow {u : Nat} {sel : Selected} {cur : LocatorRow} (hu : u ≤ 6) (hq : sel.q < u)
    (hcur : RowShape u cur) (hsel : RowShape sel.q sel.row) :
    locatorPoly (correctRow u sel cur).1 =
      C (gfEmbed (gfDiv cur.d sel.row.d)) * (X ^ (u - sel.q) * locatorPoly sel.row.elp) + locatorPoly cur.elp := by
  ext c
  rw [coeff_locatorPoly, coeff_correctRow_of_shape hu hq hcur hsel, coeff_add, coeff_C_mul, coeff_X_pow_mul',
    coeff_locatorPoly, coeff_locatorPoly, gfEmbed_gfAdd]
  split
  · rw [gfEmbed_gfMul]
  · simp

/-! ### Weighted power sums -/

/-- The sum of `x^j·f(x⁻¹)` over the elements `x` of a family. -/
noncomputable def weightedPowerSum {w : Nat} (x : Fin w → GFClosure) (f : GFClosure[X]) (j : Nat) : GFClosure :=
  ∑ k, x k ^ j * f.eval (x k)⁻¹

section
variable {w : Nat} {x : Fin w → GFClosure}

theorem weightedPowerSum_add (f g : GFClosure[X]) (j : Nat) :
    weightedPowerSum x (f + g) j = weightedPowerSum x f j + weightedPowerSum x g j := by
  simp only [weightedPowerSum, eval_add, mul_add, Finset.sum_add_distrib]

theorem weightedPowerSum_C_mul (a : GFClosure) (f : GFClosure[X]) (j : Nat) :
    weightedPowerSum x (C a * f) j = a * weightedPowerSum x f j := by
  simp only [weightedPowerSum, eval_mul, eval_C, mul_left_comm _ a, Finset.mul_sum]

variable (hx : ∀ k, x k ≠ 0)
include hx

theorem weightedPowerSum_X_pow_mul (f : GFClosure[X]) {i j : Nat} (hij : i ≤ j) :
    weightedPowerSum x (X ^ i * f) j = weightedPowerSum x f (j - i) := by
  refine Finset.sum_congr rfl fun k _ => ?_
  rw [eval_mul, eval_pow, eval_X, inv_pow, pow_sub₀ _ (hx k) hij, mul_assoc]

/-- The weighted sum is the convolution of the coefficients with the plain power sums. -/
theorem weightedPowerSum_eq_sum (f : GFClosure[X]) {n j : Nat} (hf : f.natDegree ≤ n) (hn : n ≤ j) :
    weightedPowerSum x f j = ∑ i ∈ Finset.range (n + 1), (∑ k, x k ^ (j - i)) * f.coeff i := by
  simp only [weightedPowerSum, eval_eq_sum_range' (Nat.lt_succ_of_le hf), Finset.mul_sum, Finset.sum_mul]
  rw [Finset.sum_comm]
  refine Finset.sum_congr rfl fun i hi => Finset.sum_congr rfl fun k _ => ?_
  rw [pow_sub₀ _ (hx k) ((Finset.mem_range_succ_iff.1 hi).trans hn), inv_pow]
  ring

variable (hinj : Function.Injective x)
include hinj

/-- By Vandermonde's determinant, for the values at the inverses scaled by `x^m`. -/
theorem eval_inv_eq_zero_of_weightedPowerSum {f : GFClosure[X]} {m : Nat}
    (hzero : ∀ j, m ≤ j → j < m + w → weightedPowerSum x f j = 0) (k : Fin w) : f.eval (x k)⁻¹ = 0 := by
  have hvandermonde : (fun k => x k ^ m * f.eval (x k)⁻¹) = 0 := by
    refine Matrix.eq_zero_of_forall_pow_sum_mul_pow_eq_zero hinj fun i => ?_
    rw [← hzero (m + i) (by omega) (by omega), weightedPowerSum]
    exact Finset.sum_congr rfl fun k _ => by ring
  exact (mul_eq_zero.1 (congrFun hvandermonde k)).resolve_left (pow_ne_zero m (hx k))

end

end Sys2Proof.Machine
end

section
/-! The locator of one to three errors (44_berlekamp_massey.md R200). The syndromes are the power sums of the error
locators, and the discrepancy of a row is the sum weighted by its polynomial. So a row with nonzero discrepancy has few
zero sums (Massey's bound), which keeps every degree bound within the number of errors; and the last row has enough of
them to vanish at the inverses of the error locators, which fixes its polynomial. -/

namespace Sys2Proof.Machine
open Polynomial

/-! ### The syndromes of a codeword with errors (R180, R183) -/

/-- The error locators `α^p` of a list of positions. -/
noncomputable def errorPoint (ps : List Nat) (k : Fin ps.length) : GFClosure := gfRoot ^ ps[k]

theorem errorPoint_ne_zero (ps : List Nat) (k : Fin ps.length) : errorPoint ps k ≠ 0 := pow_ne_zero _ gfRoot_ne_zero

theorem errorPoint_injective {ps : List Nat} (hnodup : ps.Nodup) (hlt : ∀ p ∈ ps, p < 31) :
    Function.Injective (errorPoint ps) := by
  intro k k' h
  have hmod : ps[k.val] % 31 = ps[k'.val] % 31 := gfRoot_pow_eq_pow_iff.1 h
  rw [Nat.mod_eq_of_lt (hlt _ (List.getElem_mem k.2)), Nat.mod_eq_of_lt (hlt _ (List.getElem_mem k'.2))] at hmod
  exact Fin.ext ((hnodup.getElem_inj_iff).1 hmod)

theorem aeval_errorWord (y : GFClosure) {ps : List Nat} (hlt : ∀ p ∈ ps, p < 31) :
    aeval y (bitPoly 31 (errorWord ps).getLsbD) = (ps.map fun p => y ^ p).sum := by
  induction ps with
  | nil => simp [errorWord, bitPoly]
  | cons p ps ih =>
    rw [errorWord, bitPoly_getLsbD_xor, bitPoly_twoPow (hlt p List.mem_cons_self), map_add, map_pow, aeval_X,
      ih fun p' hp' => hlt p' (List.mem_cons_of_mem p hp'), List.map_cons, List.sum_cons]

/-- The syndromes do not see the codeword, and are the power sums of the error locators. -/
theorem gfEmbed_synd_codeword_xor_errorWord (data : BitVec 16) {ps : List Nat} (hlt : ∀ p ∈ ps, p < 31) {j : Nat}
    (hlo : 1 ≤ j) (hhi : j ≤ 6) :
    gfEmbed (synd (syndromes (codeword data ^^^ errorWord ps)) j) = ∑ k, errorPoint ps k ^ j := by
  have hcode := (genPoly_dvd_iff _).1 (genPoly_dvd_codeword data) j hlo hhi
  rw [gfEmbed_synd_syndromes _ hlo hhi, bitPoly_getLsbD_xor, map_add, hcode, zero_add, aeval_errorWord _ hlt,
    ← Fin.sum_univ_fun_getElem ps fun p => (gfRoot ^ j) ^ p]
  exact Finset.sum_congr rfl fun k _ => pow_right_comm gfRoot j _

/-- `Discrepancy` in the closure, for a polynomial with constant term 1 (R196). -/
theorem gfEmbed_discrepancySum (s : Syndromes) (r : Nat) {elp : Locator} (hone : coeff elp 0 = 1#5) (n : Nat) :
    gfEmbed (discrepancySum s r elp n) =
      ∑ i ∈ Finset.range (n + 1), gfEmbed (synd s (r - i)) * gfEmbed (coeff elp i) := by
  induction n with
  | zero => simp [discrepancySum, hone]
  | succ n ih => rw [discrepancySum, gfEmbed_gfAdd, gfEmbed_gfMul, ih, Finset.sum_range_succ _ (n + 1)]

/-- Row `r` produces the syndromes between its degree bound and its number, and misses syndrome `r` by its discrepancy.
Both hold of row 0, whose discrepancy is fictitious, because no exponent lies above its bound. -/
structure RowPredicts {w : Nat} (x : Fin w → GFClosure) (r : Nat) (row : LocatorRow) : Prop where
  consumed : ∀ j, row.l < j → j < r → weightedPowerSum x (locatorPoly row.elp) j = 0
  next : row.l < r → r ≤ 6 → gfEmbed row.d = weightedPowerSum x (locatorPoly row.elp) r

/-- The selected row has `ul` at least that of any candidate, in the degree bounds and row numbers of R191. -/
theorem LocatorTable.add_l_selectRow_le {s : Syndromes} {u q l : Nat} {others : List LocatorRow} {cur row : LocatorRow}
    (h : LocatorTable s u others cur) (hget : (startRow :: others)[q]? = some row) (hd : row.d ≠ 0)
    (hq : l + row.l ≤ q) : l + (selectRow others).row.l ≤ (selectRow others).q := by
  obtain ⟨hgetsel, -, hbest⟩ := isBestCandidate_selectRow others
  have hul := (hbest q row hget hd).1
  rw [(h.written.2 _ _ hget).shape.ul_eq, (h.written.2 _ _ hgetsel).shape.ul_eq] at hul
  omega

section
variable {s : Syndromes} {w : Nat} {x : Fin w → GFClosure} (hx : ∀ k, x k ≠ 0)
include hx

/-- Massey's bound: a row that misses syndrome `r` has consumed fewer syndromes above its degree bound than there are
errors. -/
theorem RowPredicts.le_l_add {r : Nat} {row : LocatorRow} (hinj : Function.Injective x) (h : RowPredicts x r row)
    (hl : row.l < r) (hr : r ≤ 6) (hd : row.d ≠ 0) : r ≤ row.l + w := by
  by_contra! hgt
  have hroots := eval_inv_eq_zero_of_weightedPowerSum hx hinj (m := row.l + 1) fun j hlo hhi =>
    h.consumed j hlo (by omega)
  refine hd ((gfEmbed_eq_zero_iff _).1 ?_)
  rw [h.next hl hr, weightedPowerSum]
  exact Finset.sum_eq_zero fun k _ => by rw [hroots k, mul_zero]

variable (hs : ∀ j, 1 ≤ j → j ≤ 6 → gfEmbed (synd s j) = ∑ k, x k ^ j)
include hs

theorem RowShape.gfEmbed_discrepancySum_l {u r : Nat} {row : LocatorRow} (h : RowShape u row) (hl : row.l < r)
    (hr : r ≤ 6) : gfEmbed (discrepancySum s r row.elp row.l) = weightedPowerSum x (locatorPoly row.elp) r := by
  rw [gfEmbed_discrepancySum s r h.coeff_zero, weightedPowerSum_eq_sum hx _ h.natDegree_le hl.le]
  refine Finset.sum_congr rfl fun i hi => ?_
  have hle := Finset.mem_range_succ_iff.1 hi
  rw [hs (r - i) (by omega) (by omega), coeff_locatorPoly]

theorem gfEmbed_d_rowOf {u : Nat} {new : Locator × Nat} (h : RowShape (u + 1) (rowOf s u new))
    (hl : (rowOf s u new).l < u + 1) (hu : u + 1 ≤ 6) :
    gfEmbed (rowOf s u new).d = weightedPowerSum x (locatorPoly (rowOf s u new).elp) (u + 1) := by
  rw [← h.gfEmbed_discrepancySum_l hx hs hl hu, rowOf, if_pos (by omega)]

/-- Correcting row `u` by the selected row cancels the miss at `u` and adds nothing below. -/
theorem WrittenRow.predicts {r : Nat} {row : LocatorRow} (h : WrittenRow s r row) : RowPredicts x r row := by
  induction h with
  | start => exact ⟨fun j _ hj => absurd hj j.not_lt_zero, fun hl => absurd hl (Nat.not_lt_zero _)⟩
  | first =>
    exact ⟨fun j hlo hhi => absurd (Nat.lt_one_iff.1 hhi) (Nat.ne_of_gt hlo),
      fun hl hr => WrittenRow.first.shape.gfEmbed_discrepancySum_l hx hs hl hr⟩
  | @copy u cur hu hcur hd ih =>
    refine ⟨fun j hlo hhi => ?_, gfEmbed_d_rowOf hx hs (WrittenRow.copy hu hcur hd).shape⟩
    obtain hlt | rfl := Nat.lt_succ_iff_lt_or_eq.1 hhi
    · exact ih.consumed j hlo hlt
    · exact (ih.next hlo hu).symm.trans (hd ▸ gfEmbed_zero)
  | @correct u cur sel hu hcur hsel hq hd ihcur ihsel =>
    refine ⟨fun j hlo hhi => ?_, gfEmbed_d_rowOf hx hs (WrittenRow.correct hu hcur hsel hq hd).shape⟩
    simp only [rowOf, correctRow, max_lt_iff] at hlo
    rw [rowOf, locatorPoly_correctRow hu hq hcur.shape hsel.shape, weightedPowerSum_add, weightedPowerSum_C_mul,
      weightedPowerSum_X_pow_mul hx _ (by omega)]
    obtain hlt | rfl := Nat.lt_succ_iff_lt_or_eq.1 hhi
    · rw [ihsel.consumed _ (by omega) (by omega), ihcur.consumed j hlo.1 hlt, mul_zero, add_zero]
    · rw [Nat.sub_sub_self hq.le, ← ihsel.next (by omega) (by omega), ← ihcur.next hlo.1 hu, ← gfEmbed_gfMul,
        gfMul_gfDiv_cancel _ hd, CharTwo.add_self_eq_zero]

/-- No degree bound exceeds the number of errors. What keeps it so is a candidate whose `ul` lets the next correction
stay within Massey's bound; after a correction that raises the bound, the corrected row is the next such candidate. -/
theorem LocatorTable.l_le (hinj : Function.Injective x) {u : Nat} {others : List LocatorRow} {cur : LocatorRow}
    (h : LocatorTable s u others cur) :
    cur.l ≤ w ∧ ∃ q row, (startRow :: others)[q]? = some row ∧ row.d ≠ 0 ∧ cur.l + row.l ≤ q := by
  induction h with
  | first => exact ⟨Nat.zero_le w, 0, startRow, rfl, by decide, le_rfl⟩
  | @step u others cur hu h ih =>
    obtain ⟨hle, q, row, hget, hcand, hq⟩ := ih
    have hrow {q : Nat} {row : LocatorRow} := getElem?_concat_eq_some_iff (rows := startRow :: others) (last := cur)
      (q := q) (row := row)
    by_cases hd : cur.d = 0
    · rw [nextRow_of_eq_zero s u others hd]
      exact ⟨hle, q, row, hrow.2 (.inl hget), hcand, hq⟩
    · obtain ⟨hgetsel, hdsel, -⟩ := isBestCandidate_selectRow others
      have hroom := h.add_l_selectRow_le hget hcand hq
      have hlt := h.number_lt hgetsel
      have hlu := h.written.1.shape.l_le
      have hmassey := (h.written.1.predicts hx hs).le_l_add hx hinj (by omega) hu hd
      rw [nextRow_of_ne_zero s u others hd]
      simp only [rowOf, correctRow]
      refine ⟨by omega, ?_⟩
      obtain hkeep | hraise := le_total ((selectRow others).row.l + (u - (selectRow others).q)) cur.l
      · exact ⟨_, _, hrow.2 (.inl hgetsel), hdsel, by omega⟩
      · exact ⟨u, cur, hrow.2 (.inr ⟨h.length_others.symm, rfl⟩), hd, by omega⟩

end

/-! ### The locator polynomial of the errors -/

/-- The product of `1 + α^p·x` over a list of positions. -/
noncomputable def locatorProduct (ps : List Nat) : GFClosure[X] := (ps.map fun p => C (gfRoot ^ p) * X + C 1).prod

theorem locatorProduct_cons (p : Nat) (ps : List Nat) :
    locatorProduct (p :: ps) = (C (gfRoot ^ p) * X + C 1) * locatorProduct ps := by
  rw [locatorProduct, List.map_cons, List.prod_cons, locatorProduct]

theorem natDegree_locatorProduct_le (ps : List Nat) : (locatorProduct ps).natDegree ≤ ps.length := by
  induction ps with
  | nil => exact natDegree_one.le
  | cons p ps ih =>
    rw [locatorProduct_cons, List.length_cons, Nat.add_comm]
    exact natDegree_mul_le_of_le natDegree_linear_le ih

theorem eval_zero_locatorProduct (ps : List Nat) : (locatorProduct ps).eval 0 = 1 := by
  induction ps with
  | nil => exact eval_one
  | cons p ps ih => simp [locatorProduct_cons, ih]

theorem eval_inv_locatorProduct {p : Nat} {ps : List Nat} (hp : p ∈ ps) :
    (locatorProduct ps).eval (gfRoot ^ p)⁻¹ = 0 := by
  induction ps with
  | nil => exact absurd hp List.not_mem_nil
  | cons p' ps ih =>
    rw [locatorProduct_cons, eval_mul, mul_eq_zero]
    obtain rfl | hrest := List.mem_cons.1 hp
    · left
      rw [eval_add, eval_mul, eval_C, eval_X, eval_C, mul_inv_cancel₀ (pow_ne_zero p gfRoot_ne_zero),
        CharTwo.add_self_eq_zero]
    · exact .inr (ih hrest)

/-- The model's product is that of polynomials as long as its degree fits a locator. -/
theorem locatorPoly_errorLocator {ps : List Nat} (hlen : ps.length ≤ 6) :
    locatorPoly (errorLocator ps) = locatorProduct ps := by
  induction ps with
  | nil => exact locatorPoly_onePoly
  | cons p ps ih =>
    have hrest := ih (Nat.le_of_succ_le hlen)
    ext c
    rw [coeff_locatorPoly, errorLocator, coeff_ofCoeffs]
    split
    case isTrue =>
      rw [locatorProduct_cons, add_mul, C_1, one_mul, mul_assoc, coeff_add, coeff_C_mul, ← hrest, gfEmbed_gfAdd,
        coeff_locatorPoly, add_comm]
      cases c <;> simp
    case isFalse hc =>
      have hdegree := (natDegree_locatorProduct_le (p :: ps)).trans hlen
      rw [gfEmbed_zero, coeff_eq_zero_of_natDegree_lt (by omega)]

/-! ### The answer (R200) -/

/-- Two polynomials with constant term 1 and degree at most `w` that vanish at the same `w` inverses are the same. -/
theorem eq_of_eval_inv_eq_zero {w : Nat} {x : Fin w → GFClosure} (hx : ∀ k, x k ≠ 0) (hinj : Function.Injective x)
    {f g : GFClosure[X]} (hf : f.natDegree ≤ w) (hg : g.natDegree ≤ w) (hf0 : f.eval 0 = 1) (hg0 : g.eval 0 = 1)
    (hfx : ∀ k, f.eval (x k)⁻¹ = 0) (hgx : ∀ k, g.eval (x k)⁻¹ = 0) : f = g := by
  have hpoints : Function.Injective (Fin.cons 0 fun k => (x k)⁻¹ : Fin (w + 1) → GFClosure) :=
    Fin.cons_injective_iff.2 ⟨fun ⟨k, hk⟩ => inv_ne_zero (hx k) hk, inv_injective.comp hinj⟩
  have hcard : max f.natDegree g.natDegree < Fintype.card (Fin (w + 1)) := by
    rw [Fintype.card_fin]
    omega
  exact eq_of_natDegree_lt_card_of_eval_eq f g hpoints
    (Fin.cases (hf0.trans hg0.symm) fun k => (hfx k).trans (hgx k).symm) hcard

/-- A polynomial with constant term 1 that vanishes at `w` inverses has degree at least `w`. -/
theorem le_natDegree_of_eval_inv_eq_zero {w : Nat} {x : Fin w → GFClosure} (hinj : Function.Injective x)
    {f : GFClosure[X]} (hf0 : f.eval 0 = 1) (hfx : ∀ k, f.eval (x k)⁻¹ = 0) : w ≤ f.natDegree := by
  by_contra! hlt
  have hzero := eq_zero_of_natDegree_lt_card_of_eval_eq_zero f (inv_injective.comp hinj) hfx
    (by rwa [Fintype.card_fin])
  simp [hzero] at hf0

/-- Settles O46: no degree bound exceeds the number of errors, so the engine runs all six steps, and the last row
produces enough syndromes for the inverses of the error locators to be roots of its polynomial. -/
theorem locatorOfUpToThreeErrors : Obligations.LocatorOfUpToThreeErrors := by
  intro data ps hnodup hlt _ hlen
  have hx := errorPoint_ne_zero ps
  have hinj := errorPoint_injective hnodup hlt
  have hs := fun j => gfEmbed_synd_codeword_xor_errorWord data hlt (j := j)
  obtain ⟨u, others, last, htable, hend, hresult⟩ :=
    exists_table_berlekampMassey (syndromes (codeword data ^^^ errorWord ps))
  have hwritten := htable.written.1
  have hshape := hwritten.shape
  have hle := (htable.l_le hx hs hinj).1
  have hu : u = 7 := hend.resolve_right (by omega)
  have hroots := eval_inv_eq_zero_of_weightedPowerSum hx hinj (m := last.l + 1) fun j hlo hhi =>
    (hwritten.predicts hx hs).consumed j hlo (by omega)
  have hdegree := hshape.natDegree_le
  have hlast : last.l = ps.length :=
    le_antisymm hle ((le_natDegree_of_eval_inv_eq_zero hinj hshape.eval_zero hroots).trans hdegree)
  have hpoly : locatorPoly last.elp = locatorPoly (errorLocator ps) := by
    rw [locatorPoly_errorLocator (by omega)]
    exact eq_of_eval_inv_eq_zero hx hinj (by omega) (natDegree_locatorProduct_le ps) hshape.eval_zero
      (eval_zero_locatorProduct ps) hroots fun k => eval_inv_locatorProduct (List.getElem_mem k.2)
  rw [hresult, hlast, locatorPoly_injective hpoly]

end Sys2Proof.Machine
end

section
/-! The 45_chien_search.md statement: pass `i` holds the logarithms of the locator's terms at `α^i` in the registers, so
the passes are a filter of the positions 30 down to 0. -/

namespace Sys2Proof.Machine

/-! ### The registers of a pass (45_chien_search.md R211, R212) -/

/-- The registers in pass `i`: `reg[j]` holds the logarithm of the term `sigma[j]·α^(i·j)`, for `j = 1..degree`. -/
def chienRegs (sigma : Locator) (degree i : Nat) : List LogForm :=
  (List.range' 1 degree).map fun j => gfLog (gfMul (coeff sigma j) (alphaPow (i * j)))

theorem chienStart_eq_chienRegs (degree : Nat) (sigma : Locator) :
    chienStart degree sigma = chienRegs sigma degree 0 := by
  simp only [chienStart, chienRegs, List.range'_eq_map_range, List.map_map]
  refine List.map_congr_left fun j _ => ?_
  rw [Function.comp_apply, Nat.zero_mul, Nat.add_comm 1 j]
  exact congrArg gfLog (gfMul_one _).symm

/-- Adding `j` to a register multiplies the element it stands for by `α^j`. -/
theorem chienAdvance_gfLog_cons (j : Nat) (a : PolyForm) (rest : List LogForm) :
    chienAdvance j (gfLog a :: rest) = gfLog (gfMul a (alphaPow j)) :: chienAdvance (j + 1) rest := by
  obtain rfl | ⟨i, rfl⟩ := eq_zero_or_eq_alphaPow a
  · rw [zero_gfMul, gfLog_zero, chienAdvance]
  · simp only [gfMul_alphaPow, gfLog_alphaPow, chienAdvance, Nat.mod_add_mod]

/-- An update whose first register is `k` multiplies the element of register `j` by `α^j`, for every `j`. -/
theorem chienAdvance_map_range' (f : Nat → PolyForm) (k n : Nat) :
    chienAdvance k ((List.range' k n).map fun j => gfLog (f j)) =
      (List.range' k n).map fun j => gfLog (gfMul (f j) (alphaPow j)) := by
  induction n generalizing k with
  | zero => rfl
  | succ n ih => rw [List.range'_succ, List.map_cons, List.map_cons, chienAdvance_gfLog_cons, ih]

theorem chienAdvance_chienRegs (sigma : Locator) (degree i : Nat) :
    chienAdvance 1 (chienRegs sigma degree i) = chienRegs sigma degree (i + 1) := by
  simp only [chienRegs, chienAdvance_map_range', gfMul_assoc, gfMul_alphaPow, ← Nat.succ_mul]

theorem gfAdd_right_comm (a b c : PolyForm) : gfAdd (gfAdd a b) c = gfAdd (gfAdd a c) b := by
  simp only [gfAdd, BitVec.xor_assoc, BitVec.xor_comm b c]

/-- The last register's antilog is one more summand of `q`. -/
theorem chienValue_concat (regs : List LogForm) (r : LogForm) :
    chienValue (regs ++ [r]) = gfAdd (chienValue regs) (gfExp r) := by
  induction regs with
  | nil => rfl
  | cons r' regs ih =>
    rw [List.cons_append, chienValue, ih, chienValue, gfAdd_right_comm]

/-- In pass `i` the sum `q` is the value of the locator at `α^i`. -/
theorem chienValue_chienRegs (sigma : Locator) (degree i : Nat) :
    chienValue (chienRegs sigma degree i) = locatorValue sigma i degree := by
  induction degree with
  | zero => rfl
  | succ degree ih =>
    rw [chienRegs, List.range'_1_concat, List.map_append, ← chienRegs, List.map_singleton, chienValue_concat,
      gfExp_gfLog, ih, locatorValue, Nat.add_comm 1]

/-! ### The passes (R212 to R214) -/

/-- With `left` passes to go, the search still reports the positions below `left` whose inverse locator is a root,
the highest first. -/
theorem chienPasses_eq_filter (sigma : Locator) (degree : Nat) {left : Nat} (hleft : left ≤ 31) :
    chienPasses left (chienRegs sigma degree (31 - left)) =
      (List.range left).reverse.filter fun p => locatorValue sigma (31 - p) degree = 0 := by
  induction left with
  | zero => rfl
  | succ left ih =>
    have hpass : 31 - (left + 1) + 1 = 31 - left := by omega
    rw [chienPasses, chienAdvance_chienRegs, hpass, chienValue_chienRegs, ih (Nat.le_of_succ_le hleft),
      List.range_succ, List.reverse_concat, List.filter_cons]
    simp only [decide_eq_true_eq]

theorem chienSearch_eq_filter (r : LocatorResult) :
    chienSearch r = (List.range 31).reverse.filter fun p => locatorValue r.sigma (31 - p) r.degree = 0 := by
  rw [chienSearch, chienStart_eq_chienRegs]
  exact chienPasses_eq_filter r.sigma r.degree le_rfl

/-- Settles O47: the search filters the positions 30 down to 0 by whether `α^(31−p)` is a root. -/
theorem chienSearchFindsExactlyTheRoots : Obligations.ChienSearchFindsExactlyTheRoots := by
  intro r
  rw [chienSearch_eq_filter]
  refine ⟨fun p => ?_, List.Pairwise.filter _ (List.pairwise_reverse.2 List.pairwise_lt_range)⟩
  rw [List.mem_filter, List.mem_reverse, List.mem_range, decide_eq_true_eq]

end Sys2Proof.Machine
end

section
/-! The received word of `DECODE` bit by bit (46_block_decoder.md R221, R222). -/

namespace Sys2Proof.Machine

/-! ### The bits of the received word -/

/-- The lower 15 bits are the helper bits with the perturbation undone. -/
theorem getLsbD_receivedWord_parity (r : SubBlock) (h : HelperPair) {j : Nat} (hj : j < 15) :
    (receivedWord r h).getLsbD j =
      ((if j < 8 then (unpack8 h.h0).getLsbD j else (unpack8 h.h1).getLsbD (j - 8)) ^^
        (unpackResponse r).getLsbD (16 + j)) := by
  have hlt : j < 31 := by omega
  simp only [receivedWord, getLsbD_ofBits, decide_eq_true hlt, Bool.true_and, if_pos hj]
  split
  case isTrue h8 => exact getLsbD_unpack8_perturb_h0 h r h8
  case isFalse h8 =>
    have hmask : 24 + (j - 8) = 16 + j := by omega
    rw [getLsbD_unpack8_perturb_h1 h r (by omega), hmask]

/-- The upper 16 bits are the information bits of the reading. -/
theorem getLsbD_receivedWord_info (r : SubBlock) (h : HelperPair) {i : Nat} (hi : i < 16) :
    (receivedWord r h).getLsbD (15 + i) = (unpackResponse r).getLsbD i := by
  have hlt : 15 + i < 31 := by omega
  rw [receivedWord, getLsbD_ofBits, decide_eq_true hlt, Bool.true_and, if_neg (by omega), Nat.add_sub_cancel_left]

/-- The received word looks at 15 helper bits and at the first 31 bits of the reading. -/
theorem receivedWord_congr {r r' : SubBlock} {h h' : HelperPair} (h0 : h'.h0 = h.h0)
    (h1 : ∀ j < 7, (unpack8 h'.h1).getLsbD j = (unpack8 h.h1).getLsbD j)
    (hr : ∀ p < 31, (unpackResponse r').getLsbD p = (unpackResponse r).getLsbD p) :
    receivedWord r' h' = receivedWord r h := by
  refine ofBits_ext fun p hp => ?_
  obtain hparity | hinfo := Nat.lt_or_ge p 15
  · rw [getLsbD_receivedWord_parity r' h' hparity, getLsbD_receivedWord_parity r h hparity, h0, hr _ (by omega)]
    split
    case isTrue => rfl
    case isFalse => rw [h1 _ (by omega)]
  · obtain ⟨i, rfl⟩ := Nat.exists_eq_add_of_le hinfo
    rw [getLsbD_receivedWord_info r' h' (by omega), getLsbD_receivedWord_info r h (by omega), hr _ (by omega)]

/-! ### The two bits that do not matter, and the enrolled reading -/

theorem getLsbD_xor_one (v : Byte) {k : Nat} (hk : k < 8) (hk0 : k ≠ 0) :
    (v ^^^ 0x01#8).getLsbD k = v.getLsbD k := by
  have hone : ∀ k < 8, k ≠ 0 → (0x01#8).getLsbD k = false := by decide
  rw [BitVec.getLsbD_xor, hone k hk hk0, Bool.xor_false]

theorem receivedWord_flip_padding (r : SubBlock) (h : HelperPair) :
    receivedWord r ⟨h.h0, h.h1 ^^^ 0x01#8⟩ = receivedWord r h := by
  refine receivedWord_congr rfl (fun j hj => ?_) fun _ _ => rfl
  rw [getLsbD_unpack8_of_lt _ (by omega), getLsbD_unpack8_of_lt _ (by omega), getLsbD_xor_one _ (by omega) (by omega)]

theorem receivedWord_flip_discarded (r : SubBlock) (h : HelperPair) :
    receivedWord { r with r3 := r.r3 ^^^ 0x01#8 } h = receivedWord r h := by
  refine receivedWord_congr rfl (fun _ _ => rfl) fun p hp => ?_
  rw [getLsbD_unpackResponse _ (by omega), getLsbD_unpackResponse _ (by omega)]
  simp only [SubBlock.byte]
  split_ifs
  · rfl
  · rfl
  · rfl
  · rw [getLsbD_xor_one _ (by omega) (by omega)]

theorem getLsbD_infoBits (v : BitVec 32) {i : Nat} (hi : i < 16) : (infoBits v).getLsbD i = v.getLsbD i := by
  rw [infoBits, getLsbD_ofBits, decide_eq_true hi, Bool.true_and]

/-- The upper bits of a codeword are its information bits. -/
theorem getLsbD_codeword_info (data : BitVec 16) (i : Nat) : (codeword data).getLsbD (15 + i) = data.getLsbD i := by
  rw [codeword, BitVec.getLsbD_append, if_neg (by omega), Nat.add_sub_cancel_left]

/-- The lower bits of a codeword are its parity. -/
theorem getLsbD_codeword_parity (data : BitVec 16) {j : Nat} (hj : j < 15) :
    (codeword data).getLsbD j = (remainder data).getLsbD j := by
  rw [codeword, BitVec.getLsbD_append, if_pos hj]

/-- On the enrolled reading the mask of the helper pair is taken off again (42_block_encoder.md R168). -/
theorem receivedWord_helperOf (r : SubBlock) :
    receivedWord r (helperOf r) = codeword (infoBits (unpackResponse r)) := by
  refine ofBits_ext fun p hp => ?_
  obtain hparity | hinfo := Nat.lt_or_ge p 15
  · rw [getLsbD_receivedWord_parity r _ hparity, (helperBitsAreParityXorMask r).1 p hparity, Bool.xor_assoc,
      Bool.xor_self, Bool.xor_false, getLsbD_codeword_parity _ hparity]
  · obtain ⟨i, rfl⟩ := Nat.exists_eq_add_of_le hinfo
    rw [getLsbD_receivedWord_info r _ (by omega), getLsbD_codeword_info, getLsbD_infoBits _ (by omega)]

/-- Settles O40: the bits of the word, the two bits it does not look at, and the word of the enrolled reading. -/
theorem receivedWordIsHelperXorMaskThenInformation : Obligations.ReceivedWordIsHelperXorMaskThenInformation :=
  fun r h => ⟨fun _ hj => getLsbD_receivedWord_parity r h hj, fun _ hi => getLsbD_receivedWord_info r h hi,
    receivedWord_flip_padding r h, receivedWord_flip_discarded r h, receivedWord_helperOf r⟩

end Sys2Proof.Machine
end

section
/-! What `DECODE` writes (46_block_decoder.md R230). -/

namespace Sys2Proof.Machine

theorem key_decBlock {s : State} (b : BlockIdx) (stride : Nat) (hm : Memory.wf s.mem) :
    (decBlock b stride s).key (2 * b.val) =
        keySegment0 (correctWord (receivedWord (readResponse s stride b) (readHelper s b))).word ∧
      (decBlock b stride s).key (2 * b.val + 1) =
        keySegment1 (correctWord (receivedWord (readResponse s stride b) (readHelper s b))).word := by
  simp [State.key, read_decBlock b stride hm, keyAddr]

/-- Settles O22: an accepted `DECODE` is one `DecBlock` on the idle state, whose bytes, results and frame are known. -/
theorem decodeWritesKeyPairAndResult : Obligations.DecodeWritesKeyPairAndResult := by
  intro s b hm
  refine ⟨fun hp => ?_, fun hidle => ?_⟩
  · have hrefused : acceptance (.decode b) s = .illegalState := if_neg hp
    rw [exec_of_refused (by rw [hrefused]; decide), hrefused]
  · obtain ⟨hk0, hk1⟩ := key_decBlock (s := s.accept) b Config.decStride hm
    refine ⟨_, exec_of_commandEffect (.decode b hidle), hk0, hk1, ?_, fun b' hb' => bres_runOp_ne .recon hb', rfl, rfl,
      keepsSequencer_runOp .recon b s.accept, ⟨rfl, rfl, rfl, rfl, rfl, rfl⟩, ?_⟩
    · rw [runOp, bres_decBlock, if_pos rfl]
      rfl
    · exact KeepsBytesBut.mono (s := s.accept) (keepsBytesBut_runOp .recon b s.accept) fun a ha =>
        ha.elim id fun hh => nomatch hh.1

end Sys2Proof.Machine
end

section
/-! Error words and the lists of their positions (44_berlekamp_massey.md R200, 46_block_decoder.md R227). -/

namespace Sys2Proof.Machine

/-! ### The word with ones at given positions -/

theorem getLsbD_errorWord {ps : List Nat} (hnodup : ps.Nodup) (hlt : ∀ p ∈ ps, p < 31) (j : Nat) :
    (errorWord ps).getLsbD j = decide (j ∈ ps) := by
  induction ps with
  | nil => simp [errorWord]
  | cons p ps ih =>
    obtain ⟨hnot, hrest⟩ := List.nodup_cons.1 hnodup
    obtain ⟨hp, hps⟩ := List.forall_mem_cons.1 hlt
    rw [errorWord, BitVec.getLsbD_xor, BitVec.getLsbD_twoPow, ih hrest hps, decide_eq_true hp, Bool.true_and]
    by_cases hj : j = p
    · simp [hj, hnot]
    · simp [hj, Ne.symm hj]

/-- The order of the positions does not matter. -/
theorem errorWord_perm {ps qs : List Nat} (hperm : ps.Perm qs) : errorWord ps = errorWord qs := by
  induction hperm with
  | nil => rfl
  | cons p _ ih => rw [errorWord, errorWord, ih]
  | swap p q ps => rw [errorWord, errorWord, errorWord, errorWord, ← BitVec.xor_assoc, ← BitVec.xor_assoc,
      BitVec.xor_comm (.twoPow 31 q)]
  | trans _ _ ih ih' => exact ih.trans ih'

/-- Flipping the bits found is adding the error word (R227). -/
theorem flipAt_eq_xor_errorWord (ps : List Nat) : ∀ w : BitVec 31, flipAt w ps = w ^^^ errorWord ps := by
  induction ps with
  | nil => exact fun w => BitVec.xor_zero.symm
  | cons p ps ih => exact fun w => by rw [flipAt, ih, errorWord, BitVec.xor_assoc]

/-! ### The positions of the ones of a word -/

/-- The positions at which a word is one. -/
def onePositions (w : BitVec 31) : List Nat := (List.range 31).filter fun i => w.getLsbD i

theorem nodup_onePositions (w : BitVec 31) : (onePositions w).Nodup := List.nodup_range.filter _

theorem mem_onePositions {w : BitVec 31} {p : Nat} : p ∈ onePositions w ↔ p < 31 ∧ w.getLsbD p = true := by
  rw [onePositions, List.mem_filter, List.mem_range]

theorem lt_of_mem_onePositions {w : BitVec 31} : ∀ p ∈ onePositions w, p < 31 := fun _ hp => (mem_onePositions.1 hp).1

theorem length_onePositions (w : BitVec 31) : (onePositions w).length = weight 31 w := List.countP_eq_length_filter.symm

theorem errorWord_onePositions (w : BitVec 31) : errorWord (onePositions w) = w := by
  refine ofBits_ext fun p hp => ?_
  rw [getLsbD_errorWord (nodup_onePositions w) lt_of_mem_onePositions, Bool.eq_iff_iff, decide_eq_true_iff,
    mem_onePositions, and_iff_right hp]

theorem onePositions_errorWord_perm {ps : List Nat} (hnodup : ps.Nodup) (hlt : ∀ p ∈ ps, p < 31) :
    (onePositions (errorWord ps)).Perm ps := by
  refine (List.perm_ext_iff_of_nodup (nodup_onePositions _) hnodup).2 fun p => ?_
  rw [mem_onePositions, getLsbD_errorWord hnodup hlt, decide_eq_true_iff, and_iff_right_of_imp (hlt p)]

/-- An error word has as many ones as it has positions. -/
theorem weight_errorWord {ps : List Nat} (hnodup : ps.Nodup) (hlt : ∀ p ∈ ps, p < 31) :
    weight 31 (errorWord ps) = ps.length := by
  rw [← length_onePositions, (onePositions_errorWord_perm hnodup hlt).length_eq]

/-! ### Reading errors in the received word -/

/-- Bit `i` of the reading enters the received word at position `(i + 15) mod 31`, whatever the helper data. -/
theorem getLsbD_receivedWord_xor (r r' : SubBlock) (h : HelperPair) {i : Nat} (hi : i < 31) :
    (receivedWord r h ^^^ receivedWord r' h).getLsbD ((i + 15) % 31) =
      (unpackResponse r ^^^ unpackResponse r').getLsbD i := by
  rw [BitVec.getLsbD_xor, BitVec.getLsbD_xor]
  obtain hinfo | hmask := Nat.lt_or_ge i 16
  · have hplace : (i + 15) % 31 = 15 + i := by omega
    rw [hplace, getLsbD_receivedWord_info r h hinfo, getLsbD_receivedWord_info r' h hinfo]
  · obtain ⟨j, rfl⟩ := Nat.exists_eq_add_of_le hmask
    have hplace : (16 + j + 15) % 31 = j := by omega
    rw [hplace, getLsbD_receivedWord_parity r h (by omega), getLsbD_receivedWord_parity r' h (by omega),
      Bool.xor_left_comm, ← Bool.xor_assoc, ← Bool.xor_assoc, Bool.xor_self, Bool.false_xor]

theorem rotated_positions_perm : ((List.range 31).map fun i => (i + 15) % 31).Perm (List.range 31) := by decide

/-- Two readings differ in as many of their first 31 bits as their received words. -/
theorem weight_receivedWord_xor (r r' : SubBlock) (h : HelperPair) :
    weight 31 (receivedWord r h ^^^ receivedWord r' h) = weight 31 (unpackResponse r ^^^ unpackResponse r') := by
  rw [weight, ← rotated_positions_perm.countP_eq, List.countP_map, weight]
  exact List.countP_congr fun i hi => by rw [Function.comp_apply, getLsbD_receivedWord_xor r r' h (List.mem_range.1 hi)]

end Sys2Proof.Machine
end

section
/-! The roots of a locator as positions, and the decision of 46_block_decoder.md R224 to R227 on a codeword with up to
three errors. -/

namespace Sys2Proof.Machine
open Polynomial

/-! ### The positions found are the roots of the locator (45_chien_search.md R212, R213) -/

theorem gfEmbed_locatorValue (sigma : Locator) (i n : Nat) (hone : coeff sigma 0 = 1#5) :
    gfEmbed (locatorValue sigma i n) = ∑ c ∈ Finset.range (n + 1), gfEmbed (coeff sigma c) * (gfRoot ^ i) ^ c := by
  induction n with
  | zero => simp [locatorValue, hone]
  | succ n ih =>
    rw [locatorValue, gfEmbed_gfAdd, gfEmbed_gfMul, gfEmbed_alphaPow, ih, Finset.sum_range_succ _ (n + 1), pow_mul]

theorem gfRoot_pow_sub {p : Nat} (hp : p < 31) : gfRoot ^ (31 - p) = (gfRoot ^ p)⁻¹ := by
  have hperiod : gfRoot ^ 31 = gfRoot ^ 0 := gfRoot_pow_eq_pow_iff.2 rfl
  refine eq_inv_of_mul_eq_one_left ?_
  rw [← pow_add, Nat.sub_add_cancel hp.le, hperiod, pow_zero]

theorem mem_chienSearch_iff {r : LocatorResult} (hone : coeff r.sigma 0 = 1#5)
    (hdegree : (locatorPoly r.sigma).natDegree ≤ r.degree) (p : Nat) :
    p ∈ chienSearch r ↔ p < 31 ∧ (locatorPoly r.sigma).eval (gfRoot ^ p)⁻¹ = 0 := by
  rw [(chienSearchFindsExactlyTheRoots r).1, ← gfEmbed_eq_zero_iff, gfEmbed_locatorValue _ _ _ hone]
  refine and_congr_right fun hp => ?_
  rw [eval_eq_sum_range' (Nat.lt_succ_of_le hdegree), gfRoot_pow_sub hp]
  simp only [coeff_locatorPoly]

theorem nodup_chienSearch (r : LocatorResult) : (chienSearch r).Nodup :=
  (chienSearchFindsExactlyTheRoots r).2.imp fun hlt => hlt.ne'

/-- A further root would exceed the degree. -/
theorem eval_inv_locatorProduct_eq_zero_iff {ps : List Nat} (hnodup : ps.Nodup) (hlt : ∀ p ∈ ps, p < 31) {p : Nat}
    (hp : p < 31) : (locatorProduct ps).eval (gfRoot ^ p)⁻¹ = 0 ↔ p ∈ ps := by
  refine ⟨fun hroot => by_contra fun hnot => ?_, eval_inv_locatorProduct⟩
  have hinj := errorPoint_injective (List.nodup_cons.2 ⟨hnot, hnodup⟩) (List.forall_mem_cons.2 ⟨hp, hlt⟩)
  have hdegree := le_natDegree_of_eval_inv_eq_zero hinj (eval_zero_locatorProduct ps)
    (Fin.cases hroot fun k => eval_inv_locatorProduct (List.getElem_mem k.2))
  exact absurd (hdegree.trans (natDegree_locatorProduct_le ps)) (Nat.not_succ_le_self _)

theorem coeff_zero_errorLocator (ps : List Nat) : coeff (errorLocator ps) 0 = 1#5 := by
  induction ps with
  | nil => rfl
  | cons p ps ih =>
    rw [errorLocator, coeff_ofCoeffs, if_pos (by decide), if_pos rfl, ih]
    rfl

/-- The search finds the positions that the locator was made from. -/
theorem chienSearch_errorLocator_perm {ps : List Nat} (hnodup : ps.Nodup) (hlt : ∀ p ∈ ps, p < 31)
    (hlen : ps.length ≤ 6) : (chienSearch ⟨ps.length, errorLocator ps⟩).Perm ps := by
  have hpoly := locatorPoly_errorLocator hlen
  refine (List.perm_ext_iff_of_nodup (nodup_chienSearch _) hnodup).2 fun p => ?_
  rw [mem_chienSearch_iff (coeff_zero_errorLocator ps) (hpoly ▸ natDegree_locatorProduct_le ps), hpoly]
  exact ⟨fun ⟨hp, hroot⟩ => (eval_inv_locatorProduct_eq_zero_iff hnodup hlt hp).1 hroot,
    fun hmem => ⟨hlt p hmem, eval_inv_locatorProduct hmem⟩⟩

/-! ### The decision (46_block_decoder.md R224 to R227) -/

theorem correctWord_of_clean {recd : BitVec 31} (hsyn : synError (syndromes recd) = false) :
    correctWord recd = ⟨recd, .clean⟩ :=
  if_neg (Bool.eq_false_iff.1 hsyn)

theorem correctWord_of_corrected {recd : BitVec 31} (hsyn : synError (syndromes recd) = true)
    (hdegree : (berlekampMassey (syndromes recd)).degree ≤ 3)
    (hfound : (chienSearch (berlekampMassey (syndromes recd))).length = (berlekampMassey (syndromes recd)).degree) :
    correctWord recd = ⟨flipAt recd (chienSearch (berlekampMassey (syndromes recd))),
      correctedBy (berlekampMassey (syndromes recd)).degree⟩ :=
  (if_pos hsyn).trans ((if_neg (Nat.not_lt.2 hdegree)).trans (if_pos hfound))

theorem correctWord_of_uncorrectable {recd : BitVec 31} (hsyn : synError (syndromes recd) = true)
    (hcause : 3 < (berlekampMassey (syndromes recd)).degree ∨
      (chienSearch (berlekampMassey (syndromes recd))).length ≠ (berlekampMassey (syndromes recd)).degree) :
    correctWord recd = ⟨recd, .uncorrectable⟩ := by
  refine (if_pos hsyn).trans ?_
  by_cases hdegree : Config.t < (berlekampMassey (syndromes recd)).degree
  · exact if_pos hdegree
  · exact (if_neg hdegree).trans (if_neg (hcause.resolve_left hdegree))

/-- A codeword is left as it is (R224). -/
theorem correctWord_codeword (data : BitVec 16) : correctWord (codeword data) = ⟨codeword data, .clean⟩ :=
  correctWord_of_clean ((syndromesVanishExactlyOnCodewords _).2 ⟨data, rfl⟩)

/-- One to six errors are seen: with all six power sums zero the constant 1 would have a root. -/
theorem synError_of_errors (data : BitVec 16) {ps : List Nat} (hnodup : ps.Nodup) (hlt : ∀ p ∈ ps, p < 31)
    (hpos : 1 ≤ ps.length) (hlen : ps.length ≤ 6) : synError (syndromes (codeword data ^^^ errorWord ps)) = true := by
  by_contra hsyn
  have hzero := (synError_eq_false_iff _).1 (Bool.eq_false_iff.2 hsyn)
  have hinj := errorPoint_injective hnodup hlt
  have hroots := eval_inv_eq_zero_of_weightedPowerSum (errorPoint_ne_zero ps) hinj (f := 1) (m := 1)
    fun j hlo hhi => by
      have hpower := gfEmbed_synd_codeword_xor_errorWord data hlt hlo (by omega)
      rw [synd_syndromes _ hlo (by omega), hzero j hlo (by omega)] at hpower
      simpa [weightedPowerSum] using hpower.symm
  have hdegree := le_natDegree_of_eval_inv_eq_zero hinj eval_one hroots
  rw [natDegree_one] at hdegree
  omega

/-- One to three errors on a codeword are taken back and counted (R227). -/
theorem correctWord_codeword_xor_errorWord (data : BitVec 16) {ps : List Nat} (hnodup : ps.Nodup)
    (hlt : ∀ p ∈ ps, p < 31) (hpos : 1 ≤ ps.length) (hlen : ps.length ≤ 3) :
    correctWord (codeword data ^^^ errorWord ps) = ⟨codeword data, correctedBy ps.length⟩ := by
  have hresult := locatorOfUpToThreeErrors data ps hnodup hlt hpos hlen
  have hfound := chienSearch_errorLocator_perm hnodup hlt (by omega)
  rw [correctWord_of_corrected (synError_of_errors data hnodup hlt hpos (by omega)), hresult, flipAt_eq_xor_errorWord,
    errorWord_perm hfound, BitVec.xor_assoc, BitVec.xor_self, BitVec.xor_zero]
  · rwa [hresult]
  · rw [hresult, hfound.length_eq]

/-- The same by the errors themselves. -/
theorem correctWord_codeword_xor (data : BitVec 16) {e : BitVec 31} (he : weight 31 e ≤ 3) :
    correctWord (codeword data ^^^ e) =
      ⟨codeword data, if weight 31 e = 0 then .clean else correctedBy (weight 31 e)⟩ := by
  have herrors := errorWord_onePositions e
  rw [← length_onePositions] at he ⊢
  split
  case isTrue hnone =>
    rw [List.eq_nil_of_length_eq_zero hnone] at herrors
    rw [← herrors, errorWord, BitVec.ofNat_eq_ofNat, BitVec.xor_zero, correctWord_codeword]
  case isFalse hsome =>
    conv_lhs => rw [← herrors]
    exact correctWord_codeword_xor_errorWord data (nodup_onePositions e) lt_of_mem_onePositions (by omega) he

end Sys2Proof.Machine
end

section
/-! Up to three bit errors in a reading (46_block_decoder.md R231, R232). -/

namespace Sys2Proof.Machine

/-! ### The key pair of a codeword (R228) -/

/-- Packing what was unpacked gives the byte back. -/
theorem pack8_unpack8 (v : Byte) : pack8 (unpack8 v) = v := by
  refine ofBits_ext fun i hi => ?_
  have hback : 7 - (7 - i) = i := by omega
  rw [getLsbD_pack8, decide_eq_true hi, Bool.true_and, getLsbD_unpack8_of_lt v (by omega), hback]

theorem keySegment0_codeword (r : SubBlock) : keySegment0 (codeword (infoBits (unpackResponse r))) = r.r0 := by
  rw [keySegment0, ← pack8_unpack8 r.r0]
  refine congrArg pack8 (ofBits_ext fun i hi => ?_)
  have hbyte : i / 8 = 0 := by omega
  rw [getLsbD_ofBits, decide_eq_true hi, Bool.true_and, getLsbD_codeword_info, getLsbD_infoBits _ (by omega),
    getLsbD_unpackResponse r (by omega), getLsbD_unpack8_of_lt _ hi, hbyte, Nat.mod_eq_of_lt hi]
  rfl

theorem keySegment1_codeword (r : SubBlock) : keySegment1 (codeword (infoBits (unpackResponse r))) = r.r1 := by
  rw [keySegment1, ← pack8_unpack8 r.r1]
  refine congrArg pack8 (ofBits_ext fun i hi => ?_)
  have hplace : 23 + i = 15 + (8 + i) := by omega
  have hbyte : (8 + i) / 8 = 1 := by omega
  have hbit : (8 + i) % 8 = i := by omega
  rw [getLsbD_ofBits, decide_eq_true hi, Bool.true_and, hplace, getLsbD_codeword_info, getLsbD_infoBits _ (by omega),
    getLsbD_unpackResponse r (by omega), getLsbD_unpack8_of_lt _ hi, hbyte, hbit]
  rfl

/-- With the helper pair of a reading `r`, a reading with at most three errors decodes to the codeword of `r`. -/
theorem correctWord_receivedWord_helperOf (r r' : SubBlock)
    (hw : weight 31 (unpackResponse r ^^^ unpackResponse r') ≤ 3) :
    correctWord (receivedWord r' (helperOf r)) = ⟨codeword (infoBits (unpackResponse r)),
      if weight 31 (unpackResponse r ^^^ unpackResponse r') = 0 then .clean
      else correctedBy (weight 31 (unpackResponse r ^^^ unpackResponse r'))⟩ := by
  have hword : receivedWord r' (helperOf r) = codeword (infoBits (unpackResponse r)) ^^^
      (receivedWord r (helperOf r) ^^^ receivedWord r' (helperOf r)) := by
    rw [← receivedWord_helperOf, ← BitVec.xor_assoc, BitVec.xor_self, BitVec.zero_xor]
  have hcorrect := correctWord_codeword_xor (infoBits (unpackResponse r))
    (e := receivedWord r (helperOf r) ^^^ receivedWord r' (helperOf r)) (by rwa [weight_receivedWord_xor])
  rwa [← hword, weight_receivedWord_xor] at hcorrect

theorem bresByte_clean : bresByte .clean = 0x40#8 := by decide

/-- Settles O32: the received word is the codeword of `r` with the reading's errors in it. -/
theorem upToThreeBitErrorsAreCorrected : Obligations.UpToThreeBitErrorsAreCorrected := by
  intro s b r hm hidle hhelper w hw
  obtain ⟨t, hexec, hk0, hk1, hresult, -⟩ := (decodeWritesKeyPairAndResult s b hm).2 hidle
  rw [hhelper, correctWord_receivedWord_helperOf r _ hw] at hk0 hk1 hresult
  refine ⟨t, hexec, hk0.trans (keySegment0_codeword r), hk1.trans (keySegment1_codeword r), ?_⟩
  rw [hresult]
  split
  case isTrue => exact bresByte_clean
  case isFalse hsome => exact bresByte_correctedBy (Nat.one_le_iff_ne_zero.2 hsome) hw

/-- Settles O30: after `ENCODE` the reading decoded is the reading enrolled, which has no errors. -/
theorem decodingTheEncodedReadingIsClean : Obligations.DecodingTheEncodedReadingIsClean := by
  intro s b hm hidle hstride
  have hwf : Memory.wf (runOp .enroll b s.accept).mem := wf_runOp .enroll b hm
  have hphase := (keepsSequencer_runOp .enroll b s.accept).1.trans hidle
  have hencoded : (runOp .enroll b s.accept).EncodedBlock b := doneBlock_runOp .enroll b hm
  have h32 : strideBytes (runOp .enroll b s.accept).encStride = 32 := congrArg strideBytes hstride
  obtain ⟨hhelper, hkey0, hkey1, -⟩ := hencoded
  rw [h32] at hhelper hkey0 hkey1
  have hclean := upToThreeBitErrorsAreCorrected _ b _ hwf hphase hhelper
  rw [BitVec.xor_self] at hclean
  obtain ⟨u, hdecode, hk0, hk1, hresult⟩ := hclean (by decide)
  exact ⟨_, u, exec_of_commandEffect (.encode b hidle), hdecode, hresult, hk0.trans hkey0.symm, hk1.trans hkey1.symm⟩

end Sys2Proof.Machine
end

section
/-! A correction lands on a codeword at the distance it counts (46_block_decoder.md R234). The six syndromes follow the
locator's recurrence, so they are weighted power sums over its roots; the even syndromes are squares, so every weight is
0 or 1; and so the syndromes are those of an error word. -/

namespace Sys2Proof.Machine
open Polynomial

/-! ### Sequences with a recurrence as weighted power sums -/

/-- The powers of an element obey the recurrence of every polynomial with its inverse as a root. -/
theorem sum_pow_mul_coeff_eq_zero {f : GFClosure[X]} {l j : Nat} (hdegree : f.natDegree ≤ l) (hj : l ≤ j)
    {y : GFClosure} (hy : y ≠ 0) (hroot : f.eval y⁻¹ = 0) :
    ∑ i ∈ Finset.range (l + 1), y ^ (j - i) * f.coeff i = 0 := by
  have hsum := weightedPowerSum_eq_sum (x := fun _ : Fin 1 => y) (fun _ => hy) f hdegree hj
  simpa [weightedPowerSum, hroot] using hsum.symm

/-- A recurrence carries zeros on. -/
theorem eq_zero_of_recurrence {f : GFClosure[X]} {l n : Nat} {S : Nat → GFClosure} (hone : f.coeff 0 = 1)
    (hrec : ∀ j, l < j → j ≤ n → ∑ i ∈ Finset.range (l + 1), S (j - i) * f.coeff i = 0)
    (hfirst : ∀ j, 1 ≤ j → j ≤ l → S j = 0) : ∀ j, 1 ≤ j → j ≤ n → S j = 0 := by
  intro j
  induction j using Nat.strong_induction_on with
  | _ j ih =>
    intro hlo hhi
    obtain hle | hlt := le_or_gt j l
    · exact hfirst j hlo hle
    · have hearlier : ∀ i ∈ Finset.range l, S (j - (i + 1)) * f.coeff (i + 1) = 0 := fun i hi => by
        have hil := Finset.mem_range.1 hi
        rw [ih (j - (i + 1)) (by omega) (by omega) (by omega), zero_mul]
      have hj := hrec j hlt hhi
      rwa [Finset.sum_range_succ', Finset.sum_eq_zero hearlier, zero_add, hone, mul_one] at hj

section
variable {w : Nat} {x : Fin w → GFClosure} (hx : ∀ k, x k ≠ 0) (hinj : Function.Injective x)
include hx hinj

/-- By Vandermonde's determinant any `w` values are weighted power sums. -/
theorem exists_weights (S : Nat → GFClosure) :
    ∃ c : Fin w → GFClosure, ∀ j, 1 ≤ j → j ≤ w → ∑ k, c k * x k ^ j = S j := by
  have hunit : IsUnit (Matrix.vandermonde x) :=
    (Matrix.isUnit_iff_isUnit_det _).2 (isUnit_iff_ne_zero.2 (Matrix.det_vandermonde_ne_zero_iff.2 hinj))
  obtain ⟨c, hc⟩ := Matrix.vecMul_surjective_iff_isUnit.2 hunit fun i : Fin w => S (i + 1)
  refine ⟨fun k => c k / x k, fun j hlo hhi => ?_⟩
  obtain ⟨i, rfl⟩ := Nat.exists_eq_add_of_le' hlo
  refine Eq.trans (Finset.sum_congr rfl fun k _ => ?_) (congrFun hc ⟨i, hhi⟩)
  rw [pow_succ', ← mul_assoc, div_mul_cancel₀ _ (hx k)]
  rfl

/-- A sequence with the recurrence of a polynomial of degree `w` is a weighted power sum over the inverses of its
roots. -/
theorem exists_weights_of_recurrence {f : GFClosure[X]} {n : Nat} {S : Nat → GFClosure} (hone : f.coeff 0 = 1)
    (hdegree : f.natDegree ≤ w) (hroots : ∀ k, f.eval (x k)⁻¹ = 0)
    (hrec : ∀ j, w < j → j ≤ n → ∑ i ∈ Finset.range (w + 1), S (j - i) * f.coeff i = 0) :
    ∃ c : Fin w → GFClosure, ∀ j, 1 ≤ j → j ≤ n → S j = ∑ k, c k * x k ^ j := by
  obtain ⟨c, hc⟩ := exists_weights hx hinj S
  refine ⟨c, fun j hlo hhi => sub_eq_zero.1 ?_⟩
  refine eq_zero_of_recurrence (S := fun j => S j - ∑ k, c k * x k ^ j) hone (fun j hlt hle => ?_)
    (fun j hlo hle => sub_eq_zero.2 (hc j hlo hle).symm) j hlo hhi
  have hpowers : ∑ i ∈ Finset.range (w + 1), (∑ k, c k * x k ^ (j - i)) * f.coeff i = 0 := by
    simp only [Finset.sum_mul, mul_assoc]
    rw [Finset.sum_comm]
    refine Finset.sum_eq_zero fun k _ => ?_
    rw [← Finset.mul_sum, sum_pow_mul_coeff_eq_zero hdegree hlt.le (hx k) (hroots k), mul_zero]
  simp only [sub_mul, Finset.sum_sub_distrib]
  rw [hrec j hlt hle, hpowers, sub_zero]

/-- If doubling the index squares the weighted sums, the weights are their own squares. -/
theorem eq_zero_or_eq_one_of_sq {c : Fin w → GFClosure}
    (hsq : ∀ j, 1 ≤ j → j ≤ w → ∑ k, c k * x k ^ (2 * j) = (∑ k, c k * x k ^ j) ^ 2) (k : Fin w) :
    c k = 0 ∨ c k = 1 := by
  have hvandermonde : (fun k => (c k - c k ^ 2) * x k ^ 2) = 0 := by
    refine Matrix.eq_zero_of_forall_pow_sum_mul_pow_eq_zero (f := fun k => x k ^ 2)
      (CharTwo.sq_injective.comp hinj) fun i => ?_
    have hi := sub_eq_zero.2 (hsq (i + 1) (by omega) i.2)
    rw [CharTwo.sum_sq, ← Finset.sum_sub_distrib] at hi
    exact (Finset.sum_congr rfl fun k _ => by ring).trans hi
  have hk := (mul_eq_zero.1 (congrFun hvandermonde k)).resolve_right (pow_ne_zero 2 (hx k))
  have hfactor : c k * (1 - c k) = 0 := by linear_combination hk
  exact (mul_eq_zero.1 hfactor).imp_right fun h => (sub_eq_zero.1 h).symm

end

/-! ### The syndromes of a word and the recurrence of its locator (44_berlekamp_massey.md R193 to R197) -/

/-- A word is the zero codeword with its own ones as errors. -/
theorem gfEmbed_synd_eq_sum (recd : BitVec 31) {j : Nat} (hlo : 1 ≤ j) (hhi : j ≤ 6) :
    gfEmbed (synd (syndromes recd) j) = ∑ k, errorPoint (onePositions recd) k ^ j := by
  have hzero : 0 = codeword (upperBits 0) := eq_codeword_of_genPoly_dvd (by simp [bitPoly])
  have hsyn := gfEmbed_synd_codeword_xor_errorWord (upperBits 0) (lt_of_mem_onePositions (w := recd)) hlo hhi
  rwa [errorWord_onePositions, ← hzero, BitVec.ofNat_eq_ofNat, BitVec.zero_xor] at hsyn

/-- An answer of degree at most 3 is row 7. -/
theorem exists_last_row {s : Syndromes} (hdegree : (berlekampMassey s).degree ≤ 3) :
    ∃ last, WrittenRow s 7 last ∧ berlekampMassey s = ⟨last.l, last.elp⟩ := by
  obtain ⟨u, others, last, htable, hend, hresult⟩ := exists_table_berlekampMassey s
  rw [hresult] at hdegree
  obtain rfl := hend.resolve_right (not_lt.2 hdegree)
  exact ⟨last, htable.written.1, hresult⟩

/-- Row 7 produces every syndrome above its degree bound. -/
theorem WrittenRow.recurrence {recd : BitVec 31} {last : LocatorRow} (h : WrittenRow (syndromes recd) 7 last) {j : Nat}
    (hlo : last.l < j) (hhi : j ≤ 6) :
    ∑ i ∈ Finset.range (last.l + 1), gfEmbed (synd (syndromes recd) (j - i)) * (locatorPoly last.elp).coeff i = 0 := by
  have hx := errorPoint_ne_zero (onePositions recd)
  rw [← (h.predicts hx fun j => gfEmbed_synd_eq_sum recd).consumed j hlo (by omega),
    weightedPowerSum_eq_sum hx _ h.shape.natDegree_le hlo.le]
  refine Finset.sum_congr rfl fun i hi => ?_
  have hle := Finset.mem_range_succ_iff.1 hi
  rw [gfEmbed_synd_eq_sum recd (by omega) (by omega)]

/-- A word whose syndromes are the power sums of error locators is a codeword with those errors. -/
theorem exists_eq_codeword_xor_errorWord {recd : BitVec 31} {ps : List Nat} (hlt : ∀ p ∈ ps, p < 31)
    (hsyn : ∀ j, 1 ≤ j → j ≤ 6 → gfEmbed (synd (syndromes recd) j) = (ps.map fun p => (gfRoot ^ j) ^ p).sum) :
    ∃ data, recd = codeword data ^^^ errorWord ps := by
  have hclean : synError (syndromes (recd ^^^ errorWord ps)) = false := by
    refine (synError_eq_false_iff _).2 fun j hlo hhi => (syndromeSum_eq_zero_iff _ j).2 ?_
    rw [bitPoly_getLsbD_xor, map_add, ← gfEmbed_synd_syndromes recd hlo hhi, hsyn j hlo hhi, aeval_errorWord _ hlt,
      CharTwo.add_self_eq_zero]
  obtain ⟨data, hdata⟩ := (syndromesVanishExactlyOnCodewords _).1 hclean
  exact ⟨data, by rw [← hdata, BitVec.xor_assoc, BitVec.xor_self, BitVec.xor_zero]⟩

open Classical in
/-- The positions of a list whose weight is 1. -/
noncomputable def weightedPositions (ps : List Nat) (c : Fin ps.length → GFClosure) : List Nat :=
  (Finset.univ.filter fun k => c k = 1).toList.map fun k => ps[k]

section
variable {ps : List Nat} (c : Fin ps.length → GFClosure)

theorem mem_of_mem_weightedPositions : ∀ p ∈ weightedPositions ps c, p ∈ ps := by
  intro p hp
  obtain ⟨k, -, rfl⟩ := List.mem_map.1 hp
  exact List.getElem_mem k.2

theorem length_weightedPositions_le : (weightedPositions ps c).length ≤ ps.length := by
  rw [weightedPositions, List.length_map, Finset.length_toList]
  exact (Finset.card_le_univ _).trans_eq (Fintype.card_fin _)

theorem nodup_weightedPositions (hnodup : ps.Nodup) : (weightedPositions ps c).Nodup :=
  (Finset.nodup_toList _).map fun _ _ h => Fin.ext (hnodup.getElem_inj_iff.1 h)

theorem sum_weightedPositions (hc : ∀ k, c k = 0 ∨ c k = 1) (g : Nat → GFClosure) :
    ((weightedPositions ps c).map g).sum = ∑ k, c k * g ps[k] := by
  rw [weightedPositions, List.map_map, Finset.sum_map_toList, Finset.sum_filter]
  refine Finset.sum_congr rfl fun k _ => ?_
  obtain hk | hk := hc k <;> simp [hk]

end

/-- A correction is of at most three errors on a codeword. -/
theorem exists_errors_of_corrected {recd : BitVec 31} (hdegree : (berlekampMassey (syndromes recd)).degree ≤ 3)
    (hfound : (chienSearch (berlekampMassey (syndromes recd))).length = (berlekampMassey (syndromes recd)).degree) :
    ∃ data ps, ps.Nodup ∧ (∀ p ∈ ps, p < 31) ∧ ps.length ≤ 3 ∧ recd = codeword data ^^^ errorWord ps := by
  obtain ⟨last, hlast, hresult⟩ := exists_last_row hdegree
  rw [hresult] at hfound
  replace hdegree : last.l ≤ 3 := by rwa [hresult] at hdegree
  have hshape := hlast.shape
  have hmem := mem_chienSearch_iff (r := ⟨last.l, last.elp⟩) hshape.coeff_zero hshape.natDegree_le
  have hnodup := nodup_chienSearch ⟨last.l, last.elp⟩
  generalize chienSearch ⟨last.l, last.elp⟩ = loc at hfound hmem hnodup
  have hlt : ∀ p ∈ loc, p < 31 := fun p hp => ((hmem p).1 hp).1
  have hx := errorPoint_ne_zero loc
  have hinj := errorPoint_injective hnodup hlt
  replace hfound : loc.length = last.l := hfound
  obtain ⟨c, hc⟩ := exists_weights_of_recurrence hx hinj (n := 6) (f := locatorPoly last.elp)
    (S := fun j => gfEmbed (synd (syndromes recd) j)) (by rw [coeff_locatorPoly, hshape.coeff_zero, gfEmbed_one])
    (hfound ▸ hshape.natDegree_le) (fun k => ((hmem _).1 (List.getElem_mem k.2)).2)
    (hfound ▸ fun j => hlast.recurrence)
  have hbit := eq_zero_or_eq_one_of_sq hx hinj (c := c) fun j hlo hhi => by
    rw [← hc j hlo (by omega), ← hc (2 * j) (by omega) (by omega), synd_two_mul recd hlo (by omega), gfEmbed_gfMul, sq]
  have herrors := fun p hp => hlt p (mem_of_mem_weightedPositions c p hp)
  obtain ⟨data, hdata⟩ := exists_eq_codeword_xor_errorWord (recd := recd) herrors fun j hlo hhi => by
    rw [hc j hlo hhi, sum_weightedPositions c hbit]
    exact Finset.sum_congr rfl fun k _ => congrArg (c k * ·) (pow_right_comm gfRoot _ j)
  exact ⟨data, _, nodup_weightedPositions c hnodup, herrors,
    (length_weightedPositions_le c).trans (hfound.trans_le hdegree), hdata⟩

/-! ### The outcome of the decision (46_block_decoder.md R224 to R227) -/

theorem ne_codeword_of_synError {recd : BitVec 31} (hsyn : synError (syndromes recd) = true) :
    ¬∃ data, recd = codeword data := fun hcode =>
  Bool.false_ne_true (((syndromesVanishExactlyOnCodewords recd).2 hcode).symm.trans hsyn)

/-- The three outcomes of the decision in terms of the code. -/
inductive DecodingOutcome : BitVec 31 → Corrected → Prop where
  | clean (data : BitVec 16) : DecodingOutcome (codeword data) ⟨codeword data, .clean⟩
  | corrected (data : BitVec 16) (ps : List Nat) (hnodup : ps.Nodup) (hlt : ∀ p ∈ ps, p < 31) (hpos : 1 ≤ ps.length)
      (hlen : ps.length ≤ 3) : DecodingOutcome (codeword data ^^^ errorWord ps) ⟨codeword data, correctedBy ps.length⟩
  | uncorrectable (recd : BitVec 31) (hsyn : synError (syndromes recd) = true) :
      DecodingOutcome recd ⟨recd, .uncorrectable⟩

theorem decodingOutcome_correctWord (recd : BitVec 31) : DecodingOutcome recd (correctWord recd) := by
  by_cases hsyn : synError (syndromes recd) = true
  · by_cases hcause : 3 < (berlekampMassey (syndromes recd)).degree ∨
        (chienSearch (berlekampMassey (syndromes recd))).length ≠ (berlekampMassey (syndromes recd)).degree
    · rw [correctWord_of_uncorrectable hsyn hcause]
      exact .uncorrectable recd hsyn
    · obtain ⟨hdegree, hfound⟩ := not_or.1 hcause
      obtain ⟨data, ps, hnodup, hlt, hlen, rfl⟩ :=
        exists_errors_of_corrected (not_lt.1 hdegree) (not_not.1 hfound)
      have hpos : 1 ≤ ps.length := List.length_pos_iff.2 fun hnil =>
        ne_codeword_of_synError hsyn ⟨data, by rw [hnil, errorWord, BitVec.ofNat_eq_ofNat, BitVec.xor_zero]⟩
      rw [correctWord_codeword_xor_errorWord data hnodup hlt hpos hlen]
      exact .corrected data ps hnodup hlt hpos hlen
  · obtain ⟨data, rfl⟩ := (syndromesVanishExactlyOnCodewords recd).1 (Bool.eq_false_iff.2 hsyn)
    rw [correctWord_codeword]
    exact .clean data

/-- Settles O33: what is corrected is one to three errors on a codeword, and nothing else that is not a codeword is
changed. -/
theorem correctionLandsOnACodewordAtItsCount : Obligations.CorrectionLandsOnACodewordAtItsCount := by
  intro recd c
  have houtcome : DecodingOutcome recd c := decodingOutcome_correctWord recd
  clear_value c
  cases houtcome with
  | clean data => exact ⟨iff_of_true rfl ⟨data, rfl⟩, fun h => absurd h (by simp), fun _ => ⟨rfl, rfl⟩⟩
  | corrected data ps hnodup hlt hpos hlen =>
    have hcount := correctedBy_count hpos hlen
    have herrors : codeword data ^^^ (codeword data ^^^ errorWord ps) = errorWord ps := by
      rw [← BitVec.xor_assoc, BitVec.xor_self, BitVec.zero_xor]
    refine ⟨iff_of_false (by simp) (ne_codeword_of_synError (synError_of_errors data hnodup hlt hpos (by omega))),
      fun _ => ⟨⟨data, rfl⟩, ?_, by rwa [hcount]⟩, fun h => absurd rfl h⟩
    rw [herrors, weight_errorWord hnodup hlt, hcount]
  | uncorrectable _ hsyn =>
    exact ⟨iff_of_false (by simp) (ne_codeword_of_synError hsyn), fun h => absurd h (by simp), fun _ => ⟨rfl, rfl⟩⟩

end Sys2Proof.Machine
end

section
/-! The steps of a paused run (47_key_assembler.md R244, R251): which of them change the outputs, the inputs and the
phase. -/

namespace Sys2Proof.Machine

/-! ### The outputs of a run, for both kinds at once -/

/-- The outputs of sub-block `b` of a run are as its clearing left them: key pair and result, and the helper pair in an
enrollment (R241, R242). -/
def State.PendingBlock (kind : RunKind) (s : State) (b : BlockIdx) : Prop :=
  s.ClearedBlock b ∧ (kind = .enroll → readHelper s b = ⟨0, 0⟩)

/-- The outputs of a run of this kind that stands before sub-block `BLK` (R244). -/
def State.RunOutputs (kind : RunKind) (s : State) : Prop :=
  (∀ b, b < s.blk → s.DoneBlock kind b) ∧ ∀ b, s.blk ≤ b → s.PendingBlock kind b

/-- `PausedOutputs` says the same of both kinds of run. -/
theorem pausedOutputs_iff (s : State) :
    s.PausedOutputs ↔ ∀ kind, s.phase = pausedPhase kind → s.RunOutputs kind := by
  constructor
  · rintro ⟨enrollDone, enrollPending, reconDone, reconPending⟩ kind hp
    cases kind with
    | enroll => exact ⟨enrollDone hp, fun b hb => (enrollPending hp b hb).imp_right fun hh _ => hh⟩
    | recon => exact ⟨reconDone hp, fun b hb => ⟨reconPending hp b hb, nofun⟩⟩
  · intro h
    exact ⟨fun hp => (h .enroll hp).1, fun hp b hb => ((h .enroll hp).2 b hb).imp_right fun hh => hh rfl,
      fun hp => (h .recon hp).1, fun hp b hb => ((h .recon hp).2 b hb).1⟩

/-- The operation of one sub-block leaves another one pending. -/
theorem pendingBlock_runOp_ne {kind : RunKind} {b b' : BlockIdx} {s : State} (hne : b' ≠ b)
    (h : s.PendingBlock kind b') : (runOp kind b s).PendingBlock kind b' := by
  obtain ⟨⟨hk0, hk1, hr⟩, hh⟩ := h
  have kept {a : Nat} (ha : isKeyPair b' a ∨ isHelperPair b' a) :
      Memory.read (runOp kind b s).mem a = Memory.read s.mem a :=
    keepsBytesBut_runOp kind b s a (not_isRunPair_of_ne kind hne ha)
  exact ⟨⟨(kept (.inl (.inl rfl))).trans hk0, (kept (.inl (.inr rfl))).trans hk1, (bres_runOp_ne kind hne).trans hr⟩,
    fun hk => (readHelper_congr b' fun a ha => kept (.inr ha)).trans (hh hk)⟩

/-- Below the next sub-block are those up to the present one. -/
theorem lt_add_one_iff_of_ne_last : ∀ {k b : BlockIdx}, k ≠ 7 → (b < k + 1 ↔ b ≤ k) := by decide

/-- One turn of a run that pauses finishes sub-block `BLK` and leaves the others as they were. -/
theorem runOutputs_next {kind : RunKind} {s : State} (hm : Memory.wf s.mem) (h7 : s.blk ≠ 7) (p : Phase)
    (h : s.RunOutputs kind) : State.RunOutputs kind { runOp kind s.blk s with blk := s.blk + 1, phase := p } := by
  obtain ⟨hdone, hpending⟩ := h
  refine ⟨fun b hb => (doneBlock_sequencer kind _ _ _ b).2 ?_, fun b hb => ?_⟩
  · rcases lt_or_eq_of_le ((lt_add_one_iff_of_ne_last h7).1 hb) with hlt | rfl
    · exact (doneBlock_runOp_ne kind (ne_of_lt hlt) hm).2 (hdone b hlt)
    · exact doneBlock_runOp kind _ hm
  · have hlt : s.blk < b := not_le.1 fun hle => absurd ((lt_add_one_iff_of_ne_last h7).2 hle) (not_lt.2 hb)
    exact pendingBlock_runOp_ne (ne_of_gt hlt) (hpending b (le_of_lt hlt))

/-- A run that goes on from its outputs ends idle or pauses with its outputs in place. -/
theorem pausedOutputs_runBlocks {kind : RunKind} {s : State} (hm : Memory.wf s.mem) (h : s.RunOutputs kind) :
    (runBlocks kind s).PausedOutputs := by
  unfold runBlocks
  by_cases h7 : s.blk = 7
  · exact pausedOutputs_of_idle (by rw [runLoop_of_last kind 7 h7])
  cases hy : s.yieldEn with
  | false => exact pausedOutputs_of_idle (runLoop_complete kind 8 s hm hy (by omega)).1
  | true =>
    rw [runLoop_of_yield kind 7 h7 hy, pausedOutputs_iff]
    intro kind' hp
    have hkind : kind = kind' := by
      have : pausedPhase kind = pausedPhase kind' := hp
      revert this
      cases kind <;> cases kind' <;> decide
    exact hkind ▸ runOutputs_next hm h7 _ h

/-! ### The start of a run -/

/-- The state in which a run begins: the command accepted, the outputs cleared and `BLK = 0` (R241, R242). -/
def startRun : RunKind → State → State
  | .enroll, s => { s.accept.clearKey.clearHelper.clearBres with blk := 0 }
  | .recon, s => { s.accept.clearKey.clearBres with blk := 0 }

theorem wf_startRun (kind : RunKind) {s : State} (hm : Memory.wf s.mem) : Memory.wf (startRun kind s).mem := by
  have hkey := Memory.wf_zeroRange (keyAddr 0) 16 hm
  cases kind with
  | enroll => exact Memory.wf_zeroRange _ _ hkey
  | recon => exact hkey

/-- The start of a run writes the bytes of the run only. -/
theorem keepsBytesBut_startRun (kind : RunKind) (s : State) : KeepsBytesBut (isRunByte kind) s (startRun kind s) := by
  have hkey : KeepsBytesBut (isRunByte kind) s s.clearKey := (keepsBytesBut_clearKey s).mono fun _ => .inl
  cases kind with
  | enroll => exact hkey.trans ((keepsBytesBut_clearHelper s.clearKey).mono fun _ ha => .inr ⟨rfl, ha⟩)
  | recon => exact hkey

/-- After the clearing every byte of the run reads 0. -/
theorem read_startRun {kind : RunKind} {a : Nat} (s : State) (ha : isRunByte kind a) :
    Memory.read (startRun kind s).mem a = 0 := by
  have hkey (m : Memory) (h : isKeyByte a) : Memory.read (Memory.zeroRange m (keyAddr 0) 16) a = 0 :=
    (Memory.read_zeroRange _ _ _ _).trans (if_pos h)
  cases kind with
  | enroll =>
    refine (Memory.read_zeroRange _ (helperAddr 0) 16 a).trans ?_
    split
    · rfl
    case isFalse hh => exact hkey _ (ha.resolve_right fun hr => hh hr.2)
  | recon => exact hkey _ (ha.resolve_right fun hr => nomatch hr.1)

/-- At its start every sub-block of a run is pending. -/
theorem pendingBlock_startRun (kind : RunKind) (s : State) (b : BlockIdx) : (startRun kind s).PendingBlock kind b := by
  have hkey {a : Nat} (ha : isKeyPair b a) := read_startRun s (kind := kind) (.inl (isKeyByte_of_isKeyPair ha))
  refine ⟨⟨hkey (.inl rfl), hkey (.inr rfl), ?_⟩, fun hk => ?_⟩
  · cases kind <;> exact bres_clearBres (s := s) b
  · have hhelper {a : Nat} (ha : isHelperPair b a) := read_startRun s (.inr ⟨hk, isHelperByte_of_isHelperPair ha⟩)
    exact congrArg₂ HelperPair.mk (hhelper (.inl rfl)) (hhelper (.inr rfl))

theorem runOutputs_startRun (kind : RunKind) (s : State) : (startRun kind s).RunOutputs kind := by
  have hblk : (startRun kind s).blk = 0 := by cases kind <;> rfl
  exact ⟨fun b hb => absurd (hblk ▸ hb) (Fin.not_lt_zero b), fun b _ => pendingBlock_startRun kind s b⟩

/-! ### Every step keeps the outputs (R244) -/

/-- Every command keeps the outputs of a paused run. -/
theorem pausedOutputs_commandEffect {s t : State} {i : Instr} (hm : Memory.wf s.mem) (hs : s.PausedOutputs)
    (h : CommandEffect s i t) : t.PausedOutputs := by
  cases h with
  | refused => exact (pausedOutputs_iff _).2 ((pausedOutputs_iff s).1 hs)
  | encode b hidle => exact pausedOutputs_of_idle ((keepsSequencer_runOp .enroll b s.accept).1.trans hidle)
  | decode b hidle => exact pausedOutputs_of_idle ((keepsSequencer_runOp .recon b s.accept).1.trans hidle)
  | enroll => exact pausedOutputs_runBlocks (wf_startRun .enroll hm) (runOutputs_startRun .enroll s)
  | recon => exact pausedOutputs_runBlocks (wf_startRun .recon hm) (runOutputs_startRun .recon s)
  | cont kind hpaused =>
    exact pausedOutputs_runBlocks (s := s.accept) hm ((pausedOutputs_iff s).1 hs kind hpaused)
  | zeroize hidle => exact pausedOutputs_of_idle hidle

/-- Every host write keeps the outputs of a paused run: while paused it is ignored. -/
theorem pausedOutputs_writeEffect {s t : State} {a : Addr} {v : Byte} (hs : s.PausedOutputs)
    (h : WriteEffect s a v t) : t.PausedOutputs := by
  cases h with
  | ignored => exact (pausedOutputs_iff _).2 ((pausedOutputs_iff s).1 hs)
  | ctrl hidle | chal hidle | hlen hidle | byte hidle => exact pausedOutputs_of_idle hidle

/-- Settles O18, by the effects of a step: a paused run goes on by `CONT` alone, which finishes the next sub-block, and
a run that begins has all its outputs cleared. -/
theorem pausedOutputsKeptByEveryStep : Obligations.PausedOutputsKeptByEveryStep := by
  unfold Obligations.PausedOutputsKeptByEveryStep
  intro s t hinv hs h
  have taken (rest : List HostAction) : (takeAction s rest).PausedOutputs :=
    (pausedOutputs_iff _).2 ((pausedOutputs_iff s).1 hs)
  cases stepEffect_of_step h with
  | nothing => exact hs
  | read => exact (pausedOutputs_iff _).2 ((pausedOutputs_iff s).1 hs)
  | reset => exact pausedOutputs_of_idle rfl
  | command _ rest _ _ _ _ ht =>
    exact pausedOutputs_commandEffect (s := takeAction s rest) hinv.canonical (taken rest) ht
  | illegal => exact (pausedOutputs_iff _).2 ((pausedOutputs_iff s).1 hs)
  | write a v rest _ ha => exact pausedOutputs_writeEffect (taken rest) (writeWindow_writeEffect v ha)

/-! ### What leaves a paused run, and what it freezes (R244, R251) -/

/-- What a step leaves of a paused run: a reset, a `CONT` that goes on with the run, or the run's state with other flags
and another port. -/
inductive PausedStep (s : State) : State → Prop where
  | reset (rest : List HostAction) (h : s.pending = .reset :: rest) : PausedStep s (resetBlock (takeAction s rest))
  | cont (c : Byte) (rest : List HostAction) (kind : RunKind) (h : s.pending = .write 0x000#10 c :: rest)
      (hc : decode c = .ok .cont) (hpaused : s.phase = pausedPhase kind) :
      PausedStep s (runBlocks kind (takeAction s rest).accept)
  | still (e : ErrCode) (acc : Bool) (q : List HostAction) (r : Option Byte) :
      PausedStep s { s with err := e, accErr := acc, pending := q, rdata := r }

/-- While paused every command but `CONT` is refused and every host write ignored (60_exceptions.md R272;
20_memory.md R64). -/
theorem pausedStep_of_step {s t : State} (hp : s.phase ≠ .idle) (h : step s = .next t) : PausedStep s t := by
  cases stepEffect_of_step h with
  | nothing => exact .still s.err s.accErr s.pending s.rdata
  | read a rest => exact .still s.err s.accErr rest (some (readWindow s a))
  | reset rest hr => exact .reset rest hr
  | command c rest i _ hw hc ht =>
    cases ht with
    | refused => exact .still _ s.accErr rest none
    | cont kind hpaused => exact .cont c rest kind hw hc hpaused
    | encode _ hidle | decode _ hidle | enroll hidle | recon hidle | zeroize hidle => exact absurd hidle hp
  | illegal _ rest => exact .still .illegalCommand s.accErr rest none
  | write a v rest _ ha =>
    rw [writeWindow_of_paused v ha (show (takeAction s rest).phase ≠ .idle from hp)]
    exact .still s.err true rest none

/-- Settles O19: with yields on, a `CONT` before the last sub-block pauses in the same phase. -/
theorem pausedRunEndsOnlyByLastContOrReset : Obligations.PausedRunEndsOnlyByLastContOrReset := by
  unfold Obligations.PausedRunEndsOnlyByLastContOrReset
  intro s t hinv hp h hchanged
  cases pausedStep_of_step hp h with
  | reset rest hr => exact ⟨rfl, rfl, .inl ⟨rest, hr⟩⟩
  | cont c rest kind hw hc hpaused =>
    obtain ⟨hlast, hnext, -⟩ :=
      runLoop_yield kind 7 (takeAction s rest).accept hinv.canonical (hinv.yielding hp)
    by_cases h7 : s.blk = 7
    · obtain ⟨hidle, hblk⟩ := hlast h7
      exact ⟨hidle, hblk, .inr ⟨c, rest, hw, hc, h7⟩⟩
    · exact absurd ((hnext h7).1.trans hpaused.symm) hchanged
  | still => exact absurd rfl hchanged

/-- A run leaves the error code, the access flag, the host's registers and the port alone (10_state.md R25 to R29). -/
theorem runBlocks_keeps (kind : RunKind) (s : State) : (runBlocks kind s).err = s.err ∧
    (runBlocks kind s).accErr = s.accErr ∧ KeepsHostSide s (runBlocks kind s) := by
  obtain ⟨m, r, p, k, h⟩ := runLoop_rest kind 8 s
  rw [runBlocks, h]
  exact ⟨rfl, rfl, rfl, rfl, rfl, rfl, rfl, rfl⟩

/-- A `PUFBUF` address holds no byte that a run writes. -/
theorem not_isRunByte_of_le {kind : RunKind} {a : Nat} (ha : 0x100 ≤ a) : ¬isRunByte kind a := by
  simp only [isRunByte, isKeyByte, isHelperByte]
  omega

/-- Settles O20: a run writes neither the reading nor the registers of the host. -/
theorem inputsFrozenWhilePaused : Obligations.InputsFrozenWhilePaused := by
  unfold Obligations.InputsFrozenWhilePaused
  intro s t hp hr h
  cases pausedStep_of_step hp h with
  | reset rest hreset => exact absurd ⟨rest, hreset⟩ hr
  | cont c rest kind =>
    obtain ⟨-, -, hyield, hchal, hlen, -⟩ := runBlocks_keeps kind (takeAction s rest).accept
    exact ⟨fun a _ => keepsBytesBut_runBlocks kind _ _ (not_isRunByte_of_le (by simp [pufAddr])), hlen, hyield, hchal⟩
  | still => exact ⟨fun _ _ => rfl, rfl, rfl, rfl⟩

end Sys2Proof.Machine
end

section
/-! The runs of the key assembler (47_key_assembler.md R241 to R245): what `ENROLL`, `RECON` and `CONT` do, and that a
run with yields ends where the same run without ends. -/

namespace Sys2Proof.Machine

/-! ### The command that starts a run (R241, R242) -/

/-- The state in which `ENROLL` or `RECON` leaves the block: the run begun and carried to its first pause or its end. -/
def startedRun (kind : RunKind) (s : State) : State := runBlocks kind (startRun kind s)

theorem exec_enroll_of_idle {s : State} (hidle : s.phase = .idle) : exec .enroll s = .next (startedRun .enroll s) :=
  exec_of_commandEffect (.enroll hidle)

theorem exec_recon_of_idle {s : State} (hidle : s.phase = .idle) (hlen : s.hlen = 16#8) :
    exec .recon s = .next (startedRun .recon s) :=
  exec_of_commandEffect (.recon hidle hlen)

theorem exec_cont_of_paused {kind : RunKind} {s : State} (hp : s.phase = pausedPhase kind) :
    exec .cont s = .next (runBlocks kind s.accept) :=
  exec_of_commandEffect (.cont kind hp)

theorem startRun_keeps (kind : RunKind) (s : State) : (startRun kind s).err = .ok ∧
    (startRun kind s).accErr = s.accErr ∧ (startRun kind s).blk = 0 ∧ KeepsHostSide s (startRun kind s) := by
  cases kind <;> exact ⟨rfl, rfl, rfl, rfl, rfl, rfl, rfl, rfl, rfl⟩

theorem KeepsHostSide.trans {s t u : State} (h : KeepsHostSide s t) (h' : KeepsHostSide t u) : KeepsHostSide s u := by
  obtain ⟨hy, hc, hl, he, hp, hr⟩ := h
  obtain ⟨hy', hc', hl', he', hp', hr'⟩ := h'
  exact ⟨hy'.trans hy, hc'.trans hc, hl'.trans hl, he'.trans he, hp'.trans hp, hr'.trans hr⟩

/-- The frame of a run's first command: only the bytes of the run, `BRES`, `ERR` and the sequencer change. -/
theorem startedRun_keeps (kind : RunKind) (s : State) : (startedRun kind s).err = .ok ∧
    (startedRun kind s).accErr = s.accErr ∧ KeepsHostSide s (startedRun kind s) ∧
    KeepsBytesBut (isRunByte kind) s (startedRun kind s) := by
  obtain ⟨herr, hacc, -, hhost⟩ := startRun_keeps kind s
  obtain ⟨herr', hacc', hhost'⟩ := runBlocks_keeps kind (startRun kind s)
  exact ⟨herr'.trans herr, hacc'.trans hacc, hhost.trans hhost',
    (keepsBytesBut_startRun kind s).trans (keepsBytesBut_runBlocks kind _)⟩

/-- Without yields the run is complete at once. -/
theorem startedRun_complete (kind : RunKind) {s : State} (hm : Memory.wf s.mem) (hy : s.yieldEn = false) :
    (startedRun kind s).phase = .idle ∧ (startedRun kind s).blk = 0 ∧ ∀ b, (startedRun kind s).DoneBlock kind b := by
  obtain ⟨-, -, hblk, hyield, -⟩ := startRun_keeps kind s
  obtain ⟨hp, hb, hdone, -⟩ := runLoop_complete kind 8 _ (wf_startRun kind hm) (hyield.trans hy) (by omega)
  exact ⟨hp, hb, fun b => hdone b (hblk ▸ Fin.zero_le b)⟩

/-- With yields the run is paused at sub-block 1, with sub-block 0 done and the others pending. -/
theorem startedRun_paused (kind : RunKind) {s : State} (hm : Memory.wf s.mem) (hy : s.yieldEn = true) :
    (startedRun kind s).phase = pausedPhase kind ∧ (startedRun kind s).blk = 1 ∧
      (startedRun kind s).RunOutputs kind := by
  obtain ⟨-, -, hblk, hyield, -⟩ := startRun_keeps kind s
  have h7 : (startRun kind s).blk ≠ 7 := by rw [hblk]; decide
  have hloop : startedRun kind s = _ := runLoop_of_yield kind 7 h7 (hyield.trans hy)
  rw [hloop]
  exact ⟨rfl, by rw [hblk]; rfl, runOutputs_next (wf_startRun kind hm) h7 _ (runOutputs_startRun kind s)⟩

/-! ### The same run with and without yields (R244) -/

/-- The sub-block operation and `YIELD_EN` and `PHASE` have nothing to do with each other. -/
theorem runOp_yieldEn_phase (kind : RunKind) (b : BlockIdx) (s : State) (y : Bool) (p : Phase) :
    runOp kind b { s with yieldEn := y, phase := p } = { runOp kind b s with yieldEn := y, phase := p } := by
  cases kind <;> rfl

/-- With yields on, the loop from sub-block `7 - n` and `n` `CONT`s after it end in the state in which the loop without
yields ends, whatever the phase in which that runs. -/
theorem execAll_cont_runBlocks (kind : RunKind) (n : Nat) : ∀ (s : State) (p : Phase),
    s.yieldEn = true → s.err = .ok → s.blk.val + n = 7 →
    execAll (List.replicate n .cont) (runBlocks kind s) =
      .next { runLoop kind (n + 1) { s with yieldEn := false, phase := p } with yieldEn := true } := by
  induction n with
  | zero =>
    intro s p hy _ hn
    have h7 : s.blk = 7 := Fin.ext hn
    have hy' : (runOp kind s.blk s).yieldEn = true := by rw [runOp_rest]; exact hy
    rw [runLoop_of_last kind 0 (s := { s with yieldEn := false, phase := p }) h7, runOp_yieldEn_phase, runBlocks,
      runLoop_of_last kind 7 h7, List.replicate, execAll, ← hy']
  | succ n ih =>
    intro s p hy herr hn
    have h7 : s.blk ≠ 7 := fun h => by rw [h] at hn; simp at hn
    have hblk : (s.blk + 1).val + n = 7 := by rw [Fin.val_add_one_of_lt' (by omega)]; omega
    have hrest := runOp_rest (s := s) kind s.blk
    rw [runLoop_of_no_yield kind _ (s := { s with yieldEn := false, phase := p }) h7 rfl, runOp_yieldEn_phase,
      runBlocks, runLoop_of_yield kind 7 h7 hy]
    generalize hu : ({ runOp kind s.blk s with blk := s.blk + 1, phase := pausedPhase kind } : State) = u
    have hpaused : u.phase = pausedPhase kind := hu ▸ rfl
    have huerr : u.err = .ok := by rw [← hu, hrest]; exact herr
    have haccept : u.accept = u := by rw [State.accept, ← huerr]
    have hnext := ih u p (by rw [← hu, hrest]; exact hy) huerr (by rw [← hu]; exact hblk)
    rw [List.replicate_succ, execAll, exec_cont_of_paused hpaused, haccept]
    rw [← hu] at hnext ⊢
    exact hnext

theorem startRun_yieldEn (kind : RunKind) (s : State) (y : Bool) :
    startRun kind { s with yieldEn := y } = { startRun kind s with yieldEn := y } := by
  cases kind <;> rfl

/-- Writing the value that `YIELD_EN` holds changes nothing. -/
theorem with_yieldEn_eq_self {s : State} {y : Bool} (h : s.yieldEn = y) : ({ s with yieldEn := y } : State) = s := by
  subst h
  rfl

/-- Seven `CONT`s carry a started run to a state that differs in `YIELD_EN` alone from the one in which the same run
without yields ends. -/
theorem startedRun_resumed (kind : RunKind) {s : State} (hy : s.yieldEn = true) :
    ∃ u, execAll (List.replicate 7 .cont) (startedRun kind s) = .next u ∧
      startedRun kind { s with yieldEn := false } = { u with yieldEn := false } := by
  obtain ⟨herr, -, hblk, hyield, -⟩ := startRun_keeps kind s
  obtain ⟨-, -, ⟨hoff, -⟩, -⟩ := startedRun_keeps kind { s with yieldEn := false }
  have hend : startedRun kind { s with yieldEn := false } =
      runLoop kind 8 { startRun kind s with yieldEn := false } := by
    rw [startedRun, startRun_yieldEn, runBlocks]
  refine ⟨_, execAll_cont_runBlocks kind 7 _ (startRun kind s).phase (hyield.trans hy) herr (by rw [hblk]; rfl), ?_⟩
  exact hend.trans (with_yieldEn_eq_self (hend ▸ hoff)).symm

/-- Settles O28: both commands start a run that seven `CONT`s complete. -/
theorem yieldingRunEqualsRunWithoutYields : Obligations.YieldingRunEqualsRunWithoutYields := by
  unfold Obligations.YieldingRunEqualsRunWithoutYields
  intro s hidle hy
  refine ⟨?_, fun hlen => ?_⟩
  · obtain ⟨u, hrun, hend⟩ := startedRun_resumed .enroll hy
    rw [execAll, exec_enroll_of_idle hidle, exec_enroll_of_idle (s := { s with yieldEn := false }) hidle, hend]
    exact ⟨u, hrun, rfl⟩
  · obtain ⟨u, hrun, hend⟩ := startedRun_resumed .recon hy
    rw [execAll, exec_recon_of_idle hidle hlen, exec_recon_of_idle (s := { s with yieldEn := false }) hidle hlen, hend]
    exact ⟨u, hrun, rfl⟩

/-! ### `ENROLL` and `RECON` (R241, R242) -/

/-- Seven `CONT`s end a started run idle, with every sub-block done. -/
theorem startedRun_resumed_complete (kind : RunKind) {s : State} (hm : Memory.wf s.mem) (hy : s.yieldEn = true) :
    ∃ u, execAll (List.replicate 7 .cont) (startedRun kind s) = .next u ∧ u.phase = .idle ∧ u.blk = 0 ∧
      ∀ b, u.DoneBlock kind b := by
  obtain ⟨u, hrun, hend⟩ := startedRun_resumed kind hy
  obtain ⟨hp, hb, hdone⟩ := startedRun_complete kind (s := { s with yieldEn := false }) hm rfl
  rw [hend] at hp hb hdone
  refine ⟨u, hrun, hp, hb, fun b => ?_⟩
  exact (doneBlock_congr kind b rfl (fun _ _ => rfl) (fun _ _ => rfl) (fun _ _ => rfl) rfl).1 (hdone b)

/-- No sub-block holds a decode result after the first command of an enrollment. -/
theorem bres_startedRun_enroll {s : State} (hm : Memory.wf s.mem) (b : BlockIdx) :
    (startedRun .enroll s).bres.get b = .empty := by
  have of_done {b : BlockIdx} (h : (startedRun .enroll s).DoneBlock .enroll b) :
      (startedRun .enroll s).bres.get b = .empty := by
    obtain ⟨-, -, -, hr⟩ := h
    exact hr
  cases hy : s.yieldEn with
  | false =>
    obtain ⟨-, -, hdone⟩ := startedRun_complete .enroll hm hy
    exact of_done (hdone b)
  | true =>
    obtain ⟨-, -, hdone, hpending⟩ := startedRun_paused .enroll hm hy
    rcases lt_or_ge b (startedRun .enroll s).blk with hb | hb
    · exact of_done (hdone b hb)
    · obtain ⟨⟨-, -, hr⟩, -⟩ := hpending b hb
      exact hr

/-- The total of results without a count is 0 (10_state.md R31). -/
theorem toterrByte_of_count_zero {s : State} (h : ∀ b : BlockIdx, (s.bres.get b).count = 0#2) :
    toterrByte s = 0x00#8 := by
  rw [toterrByte, totalErrors_eq_sum, Finset.sum_eq_zero fun b _ => by rw [h b]; rfl]

/-- A command that the table of 60_exceptions.md R272 refuses with `e` answers `e` in `ERR` and nothing else. -/
theorem exec_of_acceptance {i : Instr} {s : State} {e : ErrCode} (h : acceptance i s = e) (he : e ≠ .ok) :
    exec i s = .next { s with err := e } :=
  h ▸ exec_of_refused (h ▸ he)

/-- Settles O23: the run is complete, or it is paused at sub-block 1 and seven `CONT`s complete it. -/
theorem enrollEncodesEverySubBlock : Obligations.EnrollEncodesEverySubBlock := by
  unfold Obligations.EnrollEncodesEverySubBlock
  intro s hm
  refine ⟨fun hp => exec_of_acceptance (if_neg hp) (by decide), fun hidle => ?_⟩
  obtain ⟨herr, hacc, hhost, hbytes⟩ := startedRun_keeps .enroll s
  have hempty := bres_startedRun_enroll hm
  refine ⟨_, exec_enroll_of_idle hidle, startedRun_complete .enroll hm, fun hy => ?_, ?_, ?_, herr, hacc, hhost, ?_⟩
  · obtain ⟨hp, hb, hdone, hpending⟩ := startedRun_paused .enroll hm hy
    rw [hb] at hdone hpending
    exact ⟨hp, hb, hdone 0 (by decide),
      fun b hb0 => (hpending b (Fin.one_le_of_ne_zero hb0)).imp_right fun hh => hh rfl,
      startedRun_resumed_complete .enroll hm hy⟩
  · exact toterrByte_of_count_zero fun b => by rw [hempty b]; rfl
  · obtain ⟨-, hnone, -⟩ := resultReadsTheOverallClass (startedRun .enroll s)
    exact hnone (fun b => by rw [hempty b]; decide) ⟨0, by rw [hempty 0]; rfl⟩
  · refine hbytes.mono fun a ha => ?_
    simp only [isRunByte, isKeyByte, isHelperByte] at ha
    omega

/-- Settles O24: as for `ENROLL`, after the length check. -/
theorem reconDecodesEverySubBlock : Obligations.ReconDecodesEverySubBlock := by
  unfold Obligations.ReconDecodesEverySubBlock
  intro s hm
  refine ⟨fun hp => exec_of_acceptance (if_neg hp) (by decide),
    fun hidle hlen => exec_of_acceptance ((if_pos hidle).trans (if_neg hlen)) (by decide), fun hidle hlen => ?_⟩
  obtain ⟨herr, hacc, hhost, hbytes⟩ := startedRun_keeps .recon s
  refine ⟨_, exec_recon_of_idle hidle hlen, startedRun_complete .recon hm, fun hy => ?_, herr, hacc, hhost,
    hbytes.mono fun a ha => ha.resolve_right fun hr => nomatch hr.1⟩
  obtain ⟨hp, hb, hdone, hpending⟩ := startedRun_paused .recon hm hy
  rw [hb] at hdone hpending
  exact ⟨hp, hb, hdone 0 (by decide), fun b hb0 => (hpending b (Fin.one_le_of_ne_zero hb0)).1,
    startedRun_resumed_complete .recon hm hy⟩

/-! ### `CONT` (R245) -/

theorem pausedPhase_eq_pausedEnroll_iff (kind : RunKind) : pausedPhase kind = .pausedEnroll ↔ kind = .enroll := by
  cases kind <;> decide

/-- A sub-block done by a run of the kind that is paused, as the statements say it. -/
theorem State.DoneBlock.of_phase {kind : RunKind} {p : Phase} (hp : p = pausedPhase kind) {t : State} {b : BlockIdx}
    (h : t.DoneBlock kind b) : (p = .pausedEnroll → t.EncodedBlock b) ∧ (p = .pausedRecon → t.DecodedBlock b) := by
  subst hp
  cases kind with
  | enroll => exact ⟨fun _ => h, nofun⟩
  | recon => exact ⟨nofun, fun _ => h⟩

/-- Settles O25: one turn of the loop with yields, the rest of the run without. -/
theorem contProcessesTheNextSubBlock : Obligations.ContProcessesTheNextSubBlock := by
  unfold Obligations.ContProcessesTheNextSubBlock
  intro s hm
  refine ⟨fun hidle => exec_of_acceptance (if_pos hidle) (by decide), fun hpaused => ?_⟩
  obtain ⟨kind, hp⟩ := exists_pausedPhase hpaused
  obtain ⟨herr, hacc, hhost⟩ := runBlocks_keeps kind s.accept
  have pair {b : BlockIdx} {a : Nat} (ha : isRunPair kind b a) :
      isKeyPair b a ∨ (s.phase = .pausedEnroll ∧ isHelperPair b a) :=
    ha.imp_right (And.imp_left fun hk => hp.trans ((pausedPhase_eq_pausedEnroll_iff kind).2 hk))
  have yields := runLoop_yield kind 7 s.accept hm
  have complete (hy) := runLoop_complete kind 8 s.accept hm hy (by omega)
  have hdone : (runBlocks kind s.accept).DoneBlock kind s.blk := by
    cases hy : s.yieldEn with
    | false =>
      obtain ⟨-, -, hrest, -⟩ := complete hy
      exact hrest s.blk (le_refl _)
    | true =>
      obtain ⟨-, -, hblock, -⟩ := yields hy
      exact hblock
  obtain ⟨hencoded, hdecoded⟩ := hdone.of_phase hp
  refine ⟨_, exec_cont_of_paused hp, hencoded, hdecoded, fun hy => ?_, fun hy => ?_, herr, hacc, hhost⟩
  · obtain ⟨hlast, hnext, -, hbres, hread⟩ := yields hy
    exact ⟨hlast, fun h7 => (hnext h7).imp_left fun h => h.trans hp.symm, hbres,
      fun a ha => hread a fun hpair => ha (pair hpair)⟩
  · obtain ⟨hidle, hblk, hrest, hbres, hread⟩ := complete hy
    exact ⟨hidle, hblk, fun b hb => (hrest b hb).of_phase hp, hbres,
      fun a ha => hread a fun b hb hpair => ha ⟨b, hb, pair hpair⟩⟩

end Sys2Proof.Machine
end

section
/-! What a complete run gives (47_key_assembler.md R248, R249), and what `ZEROIZE` erases (R246). -/

namespace Sys2Proof.Machine

/-! ### A complete run and the single commands (R248) -/

/-- A run leaves the reading alone. -/
theorem readResponse_startedRun (kind : RunKind) (s : State) (stride : Nat) (b : BlockIdx) :
    readResponse (startedRun kind s) stride b = readResponse s stride b := by
  obtain ⟨-, -, -, hbytes⟩ := startedRun_keeps kind s
  exact readResponse_congr stride b fun a ha => hbytes a (not_isRunByte_of_le ha)

/-- A reconstruction leaves the helper data alone. -/
theorem readHelper_startedRun_recon (s : State) (b : BlockIdx) :
    readHelper (startedRun .recon s) b = readHelper s b := by
  obtain ⟨-, -, -, hbytes⟩ := startedRun_keeps .recon s
  refine readHelper_congr b fun a ha => hbytes a fun hrun => ?_
  have hhelper := isHelperByte_of_isHelperPair ha
  simp only [isRunByte, isKeyByte, isHelperByte, reduceCtorEq, false_and, or_false] at hrun hhelper
  omega

/-- What a complete enrollment stores for a sub-block, by the reading before it. -/
theorem startedRun_enroll_outputs {s : State} (hm : Memory.wf s.mem) (hy : s.yieldEn = false) (b : BlockIdx) :
    readHelper (startedRun .enroll s) b = helperOf (readResponse s (strideBytes s.encStride) b) ∧
      (startedRun .enroll s).key (2 * b.val) = (readResponse s (strideBytes s.encStride) b).r0 ∧
      (startedRun .enroll s).key (2 * b.val + 1) = (readResponse s (strideBytes s.encStride) b).r1 := by
  obtain ⟨-, -, ⟨-, -, -, hstride, -⟩, -⟩ := startedRun_keeps .enroll s
  obtain ⟨-, -, hdone⟩ := startedRun_complete .enroll hm hy
  obtain ⟨hhelper, hk0, hk1, -⟩ := hdone b
  rw [hstride, readResponse_startedRun] at hhelper hk0 hk1
  exact ⟨hhelper, hk0, hk1⟩

/-- What a complete reconstruction stores for a sub-block, by the reading and the helper data before it. -/
theorem startedRun_recon_outputs {s : State} (hm : Memory.wf s.mem) (hy : s.yieldEn = false) (b : BlockIdx) :
    let c := correctWord (receivedWord (readResponse s Config.decStride b) (readHelper s b))
    (startedRun .recon s).key (2 * b.val) = keySegment0 c.word ∧
      (startedRun .recon s).key (2 * b.val + 1) = keySegment1 c.word ∧
      (startedRun .recon s).bres.get b = c.result := by
  obtain ⟨-, -, hdone⟩ := startedRun_complete .recon hm hy
  have hb := hdone b
  simp only [State.DoneBlock, State.DecodedBlock, readResponse_startedRun, readHelper_startedRun_recon] at hb
  exact hb

/-- Settles O29: a run and a single command store what the buffers before them give. -/
theorem keyIsTheConcatenationOfTheSubBlocks : Obligations.KeyIsTheConcatenationOfTheSubBlocks := by
  unfold Obligations.KeyIsTheConcatenationOfTheSubBlocks
  intro s hm hidle hy
  refine ⟨fun hlen => ⟨_, exec_recon_of_idle hidle hlen, fun b => ?_⟩, ⟨_, exec_enroll_of_idle hidle, fun b => ?_⟩⟩
  · obtain ⟨u, hexec, hk0, hk1, hr, -⟩ := (decodeWritesKeyPairAndResult s b hm).2 hidle
    obtain ⟨hk0', hk1', hr'⟩ := startedRun_recon_outputs hm hy b
    exact ⟨u, hexec, hk0'.trans hk0.symm, hk1'.trans hk1.symm, hr'.trans hr.symm⟩
  · obtain ⟨u, hexec, hh, hk0, hk1, -⟩ := (encodeWritesHelperPairAndKeyPair s b hm).2 hidle
    obtain ⟨hh', hk0', hk1'⟩ := startedRun_enroll_outputs hm hy b
    exact ⟨u, hexec, hh'.trans hh.symm, hk0'.trans hk0.symm, hk1'.trans hk1.symm⟩

/-! ### Reconstruction from the enrolled reading (R249) -/

/-- With its own helper pair a reading decodes to its codeword, clean. -/
theorem correctWord_receivedWord_own (r : SubBlock) :
    correctWord (receivedWord r (helperOf r)) = ⟨codeword (infoBits (unpackResponse r)), .clean⟩ := by
  have h0 : weight 31 (unpackResponse r ^^^ unpackResponse r) = 0 := by rw [BitVec.xor_self]; decide
  rw [correctWord_receivedWord_helperOf r r (by omega), if_pos h0]

/-- A complete reconstruction from helper pairs of the reading itself is clean and gives the reading's key pair. -/
theorem startedRun_recon_of_own_helper {s : State} (hm : Memory.wf s.mem) (hy : s.yieldEn = false) {b : BlockIdx}
    (hhelper : readHelper s b = helperOf (readResponse s 32 b)) :
    (startedRun .recon s).key (2 * b.val) = (readResponse s 32 b).r0 ∧
      (startedRun .recon s).key (2 * b.val + 1) = (readResponse s 32 b).r1 ∧
      (startedRun .recon s).bres.get b = .clean := by
  have houtputs := startedRun_recon_outputs hm hy b
  rw [hhelper, Config.decStride, correctWord_receivedWord_own] at houtputs
  obtain ⟨hk0, hk1, hr⟩ := houtputs
  exact ⟨hk0.trans (keySegment0_codeword _), hk1.trans (keySegment1_codeword _), hr⟩

/-- Such a reconstruction reports no error. -/
theorem startedRun_recon_reports_clean {s : State} (hm : Memory.wf s.mem) (hy : s.yieldEn = false)
    (hhelper : ∀ b, readHelper s b = helperOf (readResponse s 32 b)) :
    toterrByte (startedRun .recon s) = 0x00#8 ∧ resultByte (startedRun .recon s) = 0x01#8 ∧
      ∀ b, bresByte ((startedRun .recon s).bres.get b) = 0x40#8 := by
  have hclean (b : BlockIdx) : (startedRun .recon s).bres.get b = .clean := by
    obtain ⟨-, -, hr⟩ := startedRun_recon_of_own_helper hm hy (hhelper b)
    exact hr
  obtain ⟨-, -, -, hall⟩ := resultReadsTheOverallClass (startedRun .recon s)
  exact ⟨toterrByte_of_count_zero fun b => by rw [hclean b]; rfl, hall fun b => by rw [hclean b]; rfl,
    fun b => by rw [hclean b, bresByte_clean]⟩

/-- The sixteen key bytes are the eight key pairs (30_encoding.md R95). -/
theorem key_eq_of_pairs {s t : State}
    (h : ∀ b : BlockIdx, t.key (2 * b.val) = s.key (2 * b.val) ∧ t.key (2 * b.val + 1) = s.key (2 * b.val + 1))
    {i : Nat} (hi : i < 16) : t.key i = s.key i := by
  obtain ⟨k, rfl | rfl⟩ := Nat.even_or_odd' i
  · exact (h ⟨k, by omega⟩).1
  · exact (h ⟨k, by omega⟩).2

/-- Settles O31: the helper pairs that the enrollment leaves are those of the reading, which it leaves alone. -/
theorem reconstructionFromTheEnrolledReadingIsClean : Obligations.ReconstructionFromTheEnrolledReadingIsClean := by
  unfold Obligations.ReconstructionFromTheEnrolledReadingIsClean
  intro s hm hidle hstride hy
  have h32 : strideBytes s.encStride = 32 := by rw [hstride]; rfl
  obtain ⟨htidle, -⟩ := startedRun_complete .enroll hm hy
  obtain ⟨-, -, ⟨hyield, -⟩, -⟩ := startedRun_keeps .enroll s
  have hty : (startedRun .enroll s).yieldEn = false := hyield.trans hy
  have htm : Memory.wf (startedRun .enroll s).mem := wf_runLoop .enroll 8 _ (wf_startRun .enroll hm)
  have henrolled (b : BlockIdx) := startedRun_enroll_outputs hm hy b
  simp only [h32, ← readResponse_startedRun .enroll s] at henrolled
  have hhelper (b : BlockIdx) := (henrolled b).1
  obtain ⟨htoterr, hresult, hbres⟩ := startedRun_recon_reports_clean
    (s := { startedRun .enroll s with hlen := 16#8 }) htm hty hhelper
  have hrecon := exec_recon_of_idle (s := { startedRun .enroll s with hlen := 16#8 }) htidle rfl
  refine ⟨_, _, exec_enroll_of_idle hidle, hrecon, htoterr, hresult, hbres,
    fun i hi => key_eq_of_pairs (fun b => ?_) hi⟩
  obtain ⟨-, he0, he1⟩ := henrolled b
  obtain ⟨hk0, hk1, -⟩ := startedRun_recon_of_own_helper
    (s := { startedRun .enroll s with hlen := 16#8 }) htm hty (hhelper b)
  exact ⟨hk0.trans he0.symm, hk1.trans he1.symm⟩

/-! ### `ZEROIZE` (R246) -/

/-- `STATUS` of an idle block without flags (10_state.md R25). -/
theorem statusByte_eq_zero {s : State} (hp : s.phase = .idle) (he : s.err = .ok) (ha : s.accErr = false) :
    statusByte s = 0x00#8 := by
  rw [statusByte, hp, he, ha]
  decide

/-- The stored bytes after an accepted `ZEROIZE`. -/
def zeroizedBytes (m : Memory) : Memory := Memory.zeroRange (Memory.zeroRange m (keyAddr 0) 16) (pufAddr 0) 256

theorem read_zeroizedBytes_erased {m : Memory} {a : Nat} (h : isKeyByte a ∨ isPufByte a) :
    Memory.read (zeroizedBytes m) a = 0x00#8 := by
  refine (Memory.read_zeroRange _ (pufAddr 0) 256 a).trans ?_
  split
  · rfl
  case isFalse hpuf => exact (Memory.read_zeroRange _ (keyAddr 0) 16 a).trans (if_pos (h.resolve_right hpuf))

theorem read_zeroizedBytes_kept {m : Memory} {a : Nat} (h : ¬(isKeyByte a ∨ isPufByte a)) :
    Memory.read (zeroizedBytes m) a = Memory.read m a := by
  obtain ⟨hkey, hpuf⟩ := not_or.1 h
  exact (Memory.read_zeroRange _ (pufAddr 0) 256 a).trans
    ((if_neg hpuf).trans ((Memory.read_zeroRange _ (keyAddr 0) 16 a).trans (if_neg hkey)))

theorem exec_zeroize_of_idle {s : State} (hidle : s.phase = .idle) : exec .zeroize s = .next
    { s with mem := zeroizedBytes s.mem, bres := Vector.replicate 8 .empty, err := .ok, accErr := false } :=
  exec_of_commandEffect (.zeroize hidle)

/-- Settles O26: every byte that `ZEROIZE` writes is a key or reading byte and reads 0 after it. -/
theorem zeroizeErasesKeyReadingAndResults : Obligations.ZeroizeErasesKeyReadingAndResults := by
  unfold Obligations.ZeroizeErasesKeyReadingAndResults
  intro s
  refine ⟨fun hp => exec_of_acceptance (if_neg hp) (by decide), fun hidle => ?_⟩
  refine ⟨_, exec_zeroize_of_idle hidle, fun i hi => ?_, fun a ha => ?_, fun b => ?_, ?_, rfl, rfl, ⟨rfl, rfl⟩,
    ⟨rfl, rfl, rfl, rfl, rfl, rfl⟩, fun a => read_zeroizedBytes_kept⟩
  · exact read_zeroizedBytes_erased (.inl ⟨by simp [keyAddr], by simp [keyAddr]; omega⟩)
  · exact read_zeroizedBytes_erased (.inr ⟨by simp [pufAddr], by simp [pufAddr]; omega⟩)
  · exact congrArg bresByte (bres_clearBres (s := s) b)
  · exact statusByte_eq_zero hidle rfl rfl

/-- Two memories that are alike in `HELPER` are the same after `ZEROIZE`. -/
theorem zeroizedBytes_congr {m m' : Memory} (hm : m.Stored) (hm' : m'.Stored)
    (h : ∀ a, isHelperByte a → Memory.read m' a = Memory.read m a) : zeroizedBytes m' = zeroizedBytes m := by
  have wf {n : Memory} (hn : n.Stored) : Memory.wf (zeroizedBytes n) :=
    Memory.wf_zeroRange _ _ (Memory.wf_zeroRange _ _ hn.1)
  have unlisted {n : Memory} (hn : n.Stored) {a : Nat} (ha : ¬isStorage a = true) :
      Memory.read n a = Memory.unlisted :=
    Memory.read_unlisted fun c hc he => ha (he ▸ hn.2 c hc)
  refine Memory.ext_of_read (wf hm') (wf hm) fun a => ?_
  by_cases herased : isKeyByte a ∨ isPufByte a
  · rw [read_zeroizedBytes_erased herased, read_zeroizedBytes_erased herased]
  · rw [read_zeroizedBytes_kept herased, read_zeroizedBytes_kept herased]
    by_cases hh : isHelperByte a
    · exact h a hh
    · have hs : ¬isStorage a = true := by
        rw [isStorage_iff]
        simp only [isPufByte, isKeyByte, isHelperByte] at herased hh
        omega
      rw [unlisted hm hs, unlisted hm' hs]

/-- Settles O37: `ZEROIZE` leaves nothing of the bytes outside `HELPER`, and writes `BRES` and `ACCERR`. -/
theorem zeroizeLeavesNoTraceOfTheSecret : Obligations.ZeroizeLeavesNoTraceOfTheSecret := by
  unfold Obligations.ZeroizeLeavesNoTraceOfTheSecret
  intro s m r acc hidle hs hm hsloc hmloc hhelper
  refine ⟨_, exec_zeroize_of_idle hidle, ?_⟩
  have hbytes : zeroizedBytes m = zeroizedBytes s.mem := by
    refine zeroizedBytes_congr ⟨hs, hsloc⟩ ⟨hm, hmloc⟩ fun a ha => ?_
    have haddr : a = helperAddr (a - 0x010) := by have := ha.1; simp only [helperAddr]; omega
    rw [haddr]
    exact hhelper _ (by have := ha.2; omega)
  rw [exec_zeroize_of_idle (s := { s with mem := m, bres := r, accErr := acc }) hidle, hbytes]

end Sys2Proof.Machine
end

section
/-! The 60_exceptions.md statements: the outcome of a `CMD` write (R272 to R274), uncorrectable sub-blocks (R275) and the
sticky access flag (R277). -/

namespace Sys2Proof.Machine

/-! ### The outcome of a `CMD` write (R272 to R274) -/

theorem err_runOp (kind : RunKind) (b : BlockIdx) (s : State) : (runOp kind b s).err = s.err := by
  rw [runOp_rest]

theorem err_runBlocks (kind : RunKind) (s : State) : (runBlocks kind s).err = s.err := by
  obtain ⟨herr, -⟩ := runBlocks_keeps kind s
  exact herr

/-- A command leaves in `ERR` what the table of R272 says of it. -/
theorem err_commandEffect {s t : State} {i : Instr} (h : CommandEffect s i t) : t.err = acceptance i s := by
  cases h with
  | refused => rfl
  | encode b hidle | decode b hidle => exact (err_runOp _ b _).trans (if_pos hidle).symm
  | enroll hidle => exact (err_runBlocks _ _).trans (if_pos hidle).symm
  | recon hidle hlen => exact (err_runBlocks _ _).trans ((if_pos hidle).trans (if_pos hlen)).symm
  | cont kind hpaused =>
    exact (err_runBlocks _ _).trans (if_neg fun hidle => pausedPhase_ne_idle kind (hpaused ▸ hidle)).symm
  | zeroize hidle => exact (if_pos hidle).symm

theorem writeOutcome_of_decode {c : Byte} {i : Instr} (s : State) (h : decode c = .ok i) :
    writeOutcome c s = acceptance i s := by
  simp only [writeOutcome, h]

theorem writeOutcome_of_illegal {c : Byte} (s : State) (h : decode c = .error .illegalCommand) :
    writeOutcome c s = .illegalCommand := by
  simp only [writeOutcome, h]

/-- Whether a command is accepted has nothing to do with the port. -/
theorem acceptance_takeAction (i : Instr) (s : State) (rest : List HostAction) :
    acceptance i (takeAction s rest) = acceptance i s := by
  cases i <;> rfl

/-- Settles O14: an illegal byte by the raise of `IllegalCommand`, a legal one by the error code its command leaves. -/
theorem everyCommandWriteReportsItsOutcome : Obligations.EveryCommandWriteReportsItsOutcome := by
  unfold Obligations.EveryCommandWriteReportsItsOutcome
  intro s c rest hp
  cases hc : decode c with
  | error e =>
    cases e
    rw [writeOutcome_of_illegal s hc]
    exact ⟨_, step_of_illegal hp hc, rfl, fun _ => rfl⟩
  | ok i =>
    obtain ⟨t, ht⟩ := exists_commandEffect i (takeAction s rest)
    have hexec := exec_of_commandEffect ht
    rw [writeOutcome_of_decode s hc, ← acceptance_takeAction i s rest]
    refine ⟨t, (step_of_decode hp hc).trans hexec, err_commandEffect ht, fun hrefused => ?_⟩
    rw [exec_of_refused hrefused, Host.Outcome.next.injEq] at hexec
    exact hexec.symm

/-! ### The access flag (R277) -/

theorem accErr_runOp (kind : RunKind) (b : BlockIdx) (s : State) : (runOp kind b s).accErr = s.accErr := by
  rw [runOp_rest]

theorem accErr_runBlocks (kind : RunKind) (s : State) : (runBlocks kind s).accErr = s.accErr := by
  obtain ⟨-, hacc, -⟩ := runBlocks_keeps kind s
  exact hacc

/-- A command leaves `ACCERR` alone, unless it is an accepted `ZEROIZE`. -/
theorem accErr_commandEffect {s t : State} {i : Instr} (h : CommandEffect s i t) :
    t.accErr = s.accErr ∨ (i = .zeroize ∧ s.phase = .idle) := by
  cases h with
  | refused => exact .inl rfl
  | encode b | decode b => exact .inl (accErr_runOp _ b _)
  | enroll | recon | cont => exact .inl (accErr_runBlocks _ _)
  | zeroize hidle => exact .inr ⟨rfl, hidle⟩

/-- A host write to the window clears no `ACCERR`. -/
theorem accErr_writeEffect {s t : State} {a : Addr} {v : Byte} (hs : s.accErr = true) (h : WriteEffect s a v t) :
    t.accErr = true := by
  cases h with
  | ignored => rfl
  | ctrl | chal | hlen | byte => exact hs

/-- Settles O11: no other effect of a step clears the flag. -/
theorem accErrClearedOnlyByZeroizeOrReset : Obligations.AccErrClearedOnlyByZeroizeOrReset := by
  unfold Obligations.AccErrClearedOnlyByZeroizeOrReset
  intro s t hset h hclear
  have still {u : State} (hu : u.accErr = true) : ¬u.accErr = false := by rw [hu]; decide
  cases stepEffect_of_step h with
  | nothing => exact absurd hclear (still hset)
  | read => exact absurd hclear (still hset)
  | reset rest hp => exact .inl ⟨rest, hp⟩
  | command c rest i _ hp hc ht =>
    rcases accErr_commandEffect ht with hkept | ⟨rfl, hidle⟩
    · exact absurd hclear (still (hkept.trans hset))
    · exact .inr ⟨c, rest, hp, hc, hidle⟩
  | illegal => exact absurd hclear (still hset)
  | write a v rest _ ha =>
    exact absurd hclear (still (accErr_writeEffect (s := takeAction s rest) hset (writeWindow_writeEffect v ha)))

/-! ### An uncorrectable sub-block (R275) -/

/-- The first key byte of a word holds its information bits 0 to 7 (46_block_decoder.md R228). -/
theorem keySegment0_congr {v w : BitVec 31} (h : ∀ i < 16, v.getLsbD (15 + i) = w.getLsbD (15 + i)) :
    keySegment0 v = keySegment0 w := by
  refine congrArg pack8 (ofBits_ext fun i hi => ?_)
  rw [getLsbD_ofBits, getLsbD_ofBits, h i (by omega)]

/-- The second key byte of a word holds its information bits 8 to 15 (R228). -/
theorem keySegment1_congr {v w : BitVec 31} (h : ∀ i < 16, v.getLsbD (15 + i) = w.getLsbD (15 + i)) :
    keySegment1 v = keySegment1 w := by
  refine congrArg pack8 (ofBits_ext fun i hi => ?_)
  have hplace : 23 + i = 15 + (8 + i) := by omega
  rw [getLsbD_ofBits, getLsbD_ofBits, hplace, h (8 + i) (by omega)]

/-- The received word has the information bits of the reading, as the reading's codeword has. -/
theorem getLsbD_receivedWord_eq_codeword (r : SubBlock) (h : HelperPair) {i : Nat} (hi : i < 16) :
    (receivedWord r h).getLsbD (15 + i) = (codeword (infoBits (unpackResponse r))).getLsbD (15 + i) := by
  rw [getLsbD_receivedWord_info r h hi, getLsbD_codeword_info, getLsbD_infoBits _ hi]

theorem keySegment0_receivedWord (r : SubBlock) (h : HelperPair) : keySegment0 (receivedWord r h) = r.r0 :=
  (keySegment0_congr fun _ hi => getLsbD_receivedWord_eq_codeword r h hi).trans (keySegment0_codeword r)

theorem keySegment1_receivedWord (r : SubBlock) (h : HelperPair) : keySegment1 (receivedWord r h) = r.r1 :=
  (keySegment1_congr fun _ hi => getLsbD_receivedWord_eq_codeword r h hi).trans (keySegment1_codeword r)

theorem bresByte_uncorrectable : bresByte .uncorrectable = 0xC0#8 := by decide

/-- One uncorrectable sub-block makes the whole key uncorrectable (10_state.md R32). -/
theorem resultByte_of_uncorrectable {s : State} {b : BlockIdx} (h : s.bres.get b = .uncorrectable) :
    resultByte s = 0x03#8 := by
  obtain ⟨huncorrectable, -⟩ := resultReadsTheOverallClass s
  exact huncorrectable ⟨b, by rw [h]; rfl⟩

/-- Settles O34: the word is left as received, whose key pair is the reading's. -/
theorem uncorrectableIsAnOutcomeAndNoError : Obligations.UncorrectableIsAnOutcomeAndNoError := by
  unfold Obligations.UncorrectableIsAnOutcomeAndNoError
  intro s b hm hidle syn loc hsyn hcause
  obtain ⟨t, hexec, hk0, hk1, hresult, -, herr, -⟩ := (decodeWritesKeyPairAndResult s b hm).2 hidle
  rw [correctWord_of_uncorrectable hsyn hcause] at hk0 hk1 hresult
  refine ⟨t, hexec, herr, ?_, hk0.trans (keySegment0_receivedWord _ _), hk1.trans (keySegment1_receivedWord _ _),
    resultByte_of_uncorrectable hresult⟩
  rw [hresult]
  exact bresByte_uncorrectable

end Sys2Proof.Machine
end

section
/-! The 70_reset_and_hazards.md statements: reset (R300), that every step has a next state (R303), and that the unused
bits of the reading reach no output (R323), as a relation that commands respect. -/

namespace Sys2Proof.Machine

/-! ### Reset and totality (R300, R303) -/

/-- Settles O6, by the step with nothing pending and the step of a reset. -/
theorem resetRestoresEveryRegister : Obligations.ResetRestoresEveryRegister := by
  unfold Obligations.ResetRestoresEveryRegister
  exact ⟨step_idle, fun _ _ hp => step_reset hp⟩

/-- Settles O15: every action of the host has an effect in every state. -/
theorem everyStepAnswersANextState : Obligations.EveryStepAnswersANextState := by
  unfold Obligations.EveryStepAnswersANextState
  intro s
  obtain ⟨t, ht, -⟩ := step_stepEffect s
  exact ⟨t, ht⟩

/-! ### The discarded bit of a sub-block (42_block_encoder.md R160) -/

/-- The sub-block with its last bit, the discarded one, flipped. -/
def SubBlock.flipDiscarded (r : SubBlock) : SubBlock := { r with r3 := r.r3 ^^^ 0x01#8 }

theorem xor_and_distrib {n : Nat} (x y z : BitVec n) : (x ^^^ y) &&& z = (x &&& z) ^^^ (y &&& z) :=
  BitVec.eq_of_getLsbD_eq fun i _ => by
    rw [BitVec.getLsbD_and, BitVec.getLsbD_xor, BitVec.getLsbD_xor, BitVec.getLsbD_and, BitVec.getLsbD_and,
      Bool.and_xor_distrib_right]

/-- Two bytes that agree above bit 0 are the same or differ there. -/
theorem eq_or_eq_flip_of_and_eq {v w : Byte} (h : v &&& 0xFE#8 = w &&& 0xFE#8) : v = w ∨ v = w ^^^ 0x01#8 := by
  have hsmall : ∀ x : Byte, x &&& 0xFE#8 = 0x00#8 → x = 0x00#8 ∨ x = 0x01#8 := by decide
  have hdiff : v = w ^^^ (w ^^^ v) := by rw [← BitVec.xor_assoc, BitVec.xor_self, BitVec.zero_xor]
  rcases hsmall (w ^^^ v) (by rw [xor_and_distrib, h, BitVec.xor_self]) with h0 | h1
  · exact .inl (by rw [hdiff, h0, BitVec.xor_zero])
  · exact .inr (by rw [hdiff, h1])

/-- Two sub-blocks alike but for the discarded bit are the same or differ there. -/
theorem SubBlock.eq_or_eq_flipDiscarded {r r' : SubBlock} (h0 : r'.r0 = r.r0) (h1 : r'.r1 = r.r1) (h2 : r'.r2 = r.r2)
    (h3 : r'.r3 &&& 0xFE#8 = r.r3 &&& 0xFE#8) : r' = r ∨ r' = r.flipDiscarded := by
  cases r'
  subst h0 h1 h2
  rcases eq_or_eq_flip_of_and_eq h3 with rfl | rfl
  · exact .inl rfl
  · exact .inr rfl

/-- The information bits stand in the first two bytes of the reading (R161). -/
theorem infoBits_flipDiscarded (r : SubBlock) :
    infoBits (unpackResponse r.flipDiscarded) = infoBits (unpackResponse r) := by
  refine ofBits_ext fun i hi => ?_
  rw [getLsbD_infoBits _ hi, getLsbD_infoBits _ hi, getLsbD_unpackResponse _ (by omega),
    getLsbD_unpackResponse _ (by omega)]
  obtain hbyte | hbyte : i / 8 = 0 ∨ i / 8 = 1 := by omega
  · rw [hbyte]; rfl
  · rw [hbyte]; rfl

/-- The padding mask takes the discarded bit out of the perturbation (R164). -/
theorem perturb_flipDiscarded (p : HelperPair) (r : SubBlock) : perturb p r.flipDiscarded = perturb p r := by
  have hmask : (0x01#8) &&& 0xFE#8 = 0x00#8 := by decide
  simp only [perturb, SubBlock.flipDiscarded, ← BitVec.xor_assoc, xor_and_distrib _ 0x01#8, hmask, BitVec.xor_zero]

theorem helperOf_flipDiscarded (r : SubBlock) : helperOf r.flipDiscarded = helperOf r := by
  rw [helperOf, helperOf, infoBits_flipDiscarded, perturb_flipDiscarded]

theorem receivedWord_flipDiscarded (r : SubBlock) (h : HelperPair) :
    receivedWord r.flipDiscarded h = receivedWord r h :=
  receivedWord_flip_discarded r h

/-! ### The used bits of the window (R323) -/

/-- The bits of the stored byte at window address `a` that some command reads or the host reads back as an output, with
stride 32: all of `HELPER` and `KEY`, and the used reading bytes, the fourth of a sub-block without the discarded bit. -/
def usedBits (a : Nat) : Byte :=
  if a < 0x100 then 0xFF#8
  else if isUsedReadingByte (a - 0x100) then (if a % 32 = 3 then 0xFE#8 else 0xFF#8) else 0x00#8

theorem usedBits_of_lt {a : Nat} (h : a < 0x100) : usedBits a = 0xFF#8 := if_pos h

theorem usedBits_pufAddr (i : Nat) : usedBits (pufAddr i) =
    if isUsedReadingByte i then (if i % 32 = 3 then 0xFE#8 else 0xFF#8) else 0x00#8 := by
  have hmod : (0x100 + i) % 32 = i % 32 := by omega
  rw [usedBits, pufAddr, if_neg (by omega), Nat.add_sub_cancel_left, hmod]

/-- The used bits of byte `j` of sub-block `b`. -/
theorem usedBits_pufAddr_subBlock (b : BlockIdx) {j : Nat} (hj : j < 4) :
    usedBits (pufAddr (32 * b.val + j)) = if j = 3 then 0xFE#8 else 0xFF#8 := by
  have hmod : (32 * b.val + j) % 32 = j := by omega
  have hused : isUsedReadingByte (32 * b.val + j) = true := by
    rw [isUsedReadingByte, hmod, Bool.and_eq_true, decide_eq_true_eq, decide_eq_true_eq]
    omega
  rw [usedBits_pufAddr, if_pos hused, hmod]

theorem eq_of_and_eq_of_full {v w mask : Byte} (hmask : mask = 0xFF#8) (h : v &&& mask = w &&& mask) : v = w := by
  have hfull : (0xFF#8 : Byte) = BitVec.allOnes 8 := by decide
  rwa [hmask, hfull, BitVec.and_allOnes, BitVec.and_allOnes] at h

/-- The states have stride 32 and canonical memories, and differ in unused bits of the reading at most. -/
def SameUsed (s s' : State) : Prop :=
  s.encStride = .stride32 ∧ ∃ m, s' = { s with mem := m } ∧ Memory.wf s.mem ∧ Memory.wf m ∧
    ∀ a, Memory.read m a &&& usedBits a = Memory.read s.mem a &&& usedBits a

/-- What the host reads of `HELPER` and `KEY` is alike. -/
theorem SameUsed.read_eq {s s' : State} (h : SameUsed s s') {a : Nat} (ha : a < 0x100) :
    Memory.read s'.mem a = Memory.read s.mem a := by
  obtain ⟨-, m, rfl, -, -, hread⟩ := h
  exact eq_of_and_eq_of_full (usedBits_of_lt ha) (hread a)

theorem SameUsed.readHelper_eq {s s' : State} (h : SameUsed s s') (b : BlockIdx) :
    readHelper s' b = readHelper s b := by
  refine readHelper_congr b fun a ha => h.read_eq ?_
  obtain ⟨-, hlt⟩ := isHelperByte_of_isHelperPair ha
  omega

theorem SameUsed.strideBytes_eq {s s' : State} (h : SameUsed s s') :
    strideBytes s.encStride = 32 ∧ strideBytes s'.encStride = 32 := by
  obtain ⟨hstride, m, rfl, -⟩ := h
  simp only [hstride, strideBytes, and_self]

/-- The sub-blocks of stride 32 are alike but for the discarded bit. -/
theorem SameUsed.readResponse_eq_or_eq_flip {s s' : State} (h : SameUsed s s') (b : BlockIdx) :
    readResponse s' 32 b = readResponse s 32 b ∨ readResponse s' 32 b = (readResponse s 32 b).flipDiscarded := by
  obtain ⟨-, m, rfl, -, -, hread⟩ := h
  have hbyte (j : Nat) := hread (pufAddr (32 * b.val + j))
  have full {j : Nat} (hj : j < 3) : Memory.read m (pufAddr (32 * b.val + j)) = s.puf (32 * b.val + j) :=
    eq_of_and_eq_of_full ((usedBits_pufAddr_subBlock b (by omega)).trans (if_neg (by omega))) (hbyte j)
  have hlast := hbyte 3
  rw [usedBits_pufAddr_subBlock b (by decide), if_pos rfl] at hlast
  exact SubBlock.eq_or_eq_flipDiscarded (full (j := 0) (by decide)) (full (j := 1) (by decide))
    (full (j := 2) (by decide)) hlast

/-! ### Commands respect the used bits -/

/-- The sub-block operation stores the same outputs in both states. -/
theorem SameUsed.runOp_eq_storeOutputs {s s' : State} (hs : SameUsed s s') (kind : RunKind) (b : BlockIdx) :
    ∃ h k0 k1 r, runOp kind b s = storeOutputs kind b h k0 k1 r s ∧
      runOp kind b s' = storeOutputs kind b h k0 k1 r s' := by
  have hreading := hs.readResponse_eq_or_eq_flip b
  cases kind with
  | enroll =>
    obtain ⟨hstride, hstride'⟩ := hs.strideBytes_eq
    refine ⟨helperOf (readResponse s 32 b), (readResponse s 32 b).r0, (readResponse s 32 b).r1, .empty, ?_, ?_⟩
    · simp only [runOp, encBlock, storeOutputs, hstride]
    · simp only [runOp, encBlock, storeOutputs, hstride']
      rcases hreading with e | e
      · rw [e]
      · rw [e, helperOf_flipDiscarded]
        rfl
  | recon =>
    let c := correctWord (receivedWord (readResponse s 32 b) (readHelper s b))
    have hword : receivedWord (readResponse s' 32 b) (readHelper s' b) =
        receivedWord (readResponse s 32 b) (readHelper s b) := by
      rw [hs.readHelper_eq b]
      rcases hreading with e | e
      · rw [e]
      · rw [e, receivedWord_flipDiscarded]
    refine ⟨⟨0, 0⟩, keySegment0 c.word, keySegment1 c.word, c.result, rfl, ?_⟩
    simp only [runOp, decBlock, Config.decStride, storeOutputs, hword, c]

/-- Erasing the same range keeps the used bits alike. -/
theorem SameUsed.zeroRange {s s' : State} (lo len : Nat) (h : SameUsed s s') :
    SameUsed { s with mem := Memory.zeroRange s.mem lo len } { s' with mem := Memory.zeroRange s'.mem lo len } := by
  obtain ⟨hstride, m, rfl, hs, hm, hread⟩ := h
  refine ⟨hstride, _, rfl, Memory.wf_zeroRange _ _ hs, Memory.wf_zeroRange _ _ hm, fun a => ?_⟩
  rw [Memory.read_zeroRange, Memory.read_zeroRange]
  split
  · rfl
  · exact hread a

/-- Storing the same byte keeps the used bits alike. -/
theorem SameUsed.write {s s' : State} (a : Nat) (v : Byte) (h : SameUsed s s') :
    SameUsed { s with mem := Memory.write s.mem a v } { s' with mem := Memory.write s'.mem a v } := by
  obtain ⟨hstride, m, rfl, hs, hm, hread⟩ := h
  refine ⟨hstride, _, rfl, Memory.wf_write _ _ hs, Memory.wf_write _ _ hm, fun a' => ?_⟩
  rw [Memory.read_write _ _ _ hm, Memory.read_write _ _ _ hs]
  split
  · rfl
  · exact hread a'

theorem SameUsed.setBres {s s' : State} (b : BlockIdx) (r : BlockResult) (h : SameUsed s s') :
    SameUsed (s.setBres b r) (s'.setBres b r) := by
  obtain ⟨hstride, m, rfl, hm⟩ := h
  exact ⟨hstride, m, rfl, hm⟩

theorem SameUsed.storeOutputs {s s' : State} (kind : RunKind) (b : BlockIdx) (h : HelperPair) (k0 k1 : Byte)
    (r : BlockResult) (hs : SameUsed s s') :
    SameUsed (storeOutputs kind b h k0 k1 r s) (storeOutputs kind b h k0 k1 r s') := by
  cases kind with
  | enroll => exact ((((hs.write _ _).write _ _).write _ _).write _ _).setBres b r
  | recon => exact ((hs.write _ _).write _ _).setBres b r

theorem commandRespects_sameUsed : CommandRespects SameUsed where
  control := by rintro s _ ⟨-, m, rfl, -⟩; exact ⟨rfl, rfl, rfl, rfl⟩
  update := by
    intro u s s' hs
    cases u with
    | clearHelper | clearKey | clearPuf => exact hs.zeroRange _ _
    | setErr | setPhase | setBlk | clearAccErr | clearBres =>
      obtain ⟨hstride, m, rfl, hm⟩ := hs
      exact ⟨hstride, m, rfl, hm⟩
  runOp := by
    intro kind b s s' hs
    obtain ⟨h, k0, k1, r, hop, hop'⟩ := hs.runOp_eq_storeOutputs kind b
    rw [hop, hop']
    exact hs.storeOutputs kind b h k0 k1 r

/-- Memories that agree below the reading and on the used reading bytes, the fourth of a sub-block above bit 0, agree
on the used bits. -/
theorem read_and_usedBits_eq {m n : Memory} (hlow : ∀ a, a < 0x100 → Memory.read m a = Memory.read n a)
    (hfull : ∀ a, isUsedReadingByte a = true → a % 32 ≠ 3 → Memory.read m (pufAddr a) = Memory.read n (pufAddr a))
    (hfourth : ∀ a, isUsedReadingByte a = true → a % 32 = 3 →
      Memory.read m (pufAddr a) &&& 0xFE#8 = Memory.read n (pufAddr a) &&& 0xFE#8) (a : Nat) :
    Memory.read m a &&& usedBits a = Memory.read n a &&& usedBits a := by
  by_cases ha : a < 0x100
  · rw [hlow a ha]
  · obtain ⟨i, rfl⟩ := Nat.exists_eq_add_of_le (Nat.le_of_not_lt ha)
    rw [← pufAddr, usedBits_pufAddr]
    split
    case isFalse => rw [BitVec.and_zero, BitVec.and_zero]
    case isTrue hused =>
      split
      case isTrue h3 => exact hfourth i hused h3
      case isFalse h3 => exact congrArg (· &&& 0xFF#8) (hfull i hused h3)

/-- Settles O36, by the used bits as a relation that commands respect. -/
theorem unusedReadingBitsReachNoOutput : Obligations.UnusedReadingBitsReachNoOutput := by
  unfold Obligations.UnusedReadingBitsReachNoOutput
  intro i s m hs hm hstride hlow hfull hfourth
  obtain ⟨t, ht⟩ := exists_commandEffect i s
  have hexec := exec_of_commandEffect ht
  obtain ⟨t', hexec', hsame⟩ := commandRespects_sameUsed.exec
    ⟨hstride, m, rfl, hs, hm, read_and_usedBits_eq hlow hfull hfourth⟩ hexec
  have hout (a : Nat) (ha : a < 0x100) := hsame.read_eq ha
  obtain ⟨-, m', rfl, -⟩ := hsame
  exact ⟨t, m', hexec, hexec', hout⟩

end Sys2Proof.Machine
end
